-- ==== Sys2Proof/Word.lean ====
section
/-! DEFINITION. The words the block moves: command, PIX and RSP words, bytes, and 24-bit colours
(spec/00_scope.md R8, spec/20_memory.md R64, R71). -/

namespace Sys2Proof

/-- A command word, a PIX word or an RSP word: 32 bits, bit 0 the least significant (R8, R80). -/
abbrev Word := BitVec 32

/-- A byte of OUT, one colour channel, or a palette index (R64, R71). -/
abbrev Byte := BitVec 8

/-- A 24-bit colour as its three channels (R61, R71). -/
structure Rgb where
  r : Byte
  g : Byte
  b : Byte
deriving DecidableEq, Repr

end Sys2Proof
end

