-- ==== Sys2Proof/Syntax.lean ====
section
/-! DEFINITION. The command set: one constructor per row of spec/opcode_table.json, which is the opcode map of
spec/30_encoding.md R81, with the operand fields of R83 to R89 at their widths. -/

namespace Sys2Proof

/-- A command with its operand fields, each an unsigned field taken as it stands (R89). -/
inductive Instr where
  /-- `PK_WRITE n, v` (R104): append the `n` low bits of `v`. -/
  | pkWrite (n : BitVec 5) (v : BitVec 16)
  /-- `PK_PAD` (R105). -/
  | pkPad
  /-- `PK_FLUSH` (R106). -/
  | pkFlush
  /-- `LZ_START` (R126). -/
  | lzStart
  /-- `LZ_SYM s` (R127). -/
  | lzSym (s : Byte)
  /-- `LZ_END` (R128). -/
  | lzEnd
  /-- `DT_BEGIN f` (R153), with its three flags (R85). -/
  | dtBegin (chain wref uref : Bool)
  /-- `DT_PIXEL r, g, b` (R160). -/
  | dtPixel (r g b : Byte)
  /-- `PAL_WRITE r, g, b` (R151). -/
  | palWrite (r g b : Byte)
  /-- `REG_WRITE n, v` (R191). -/
  | regWrite (reg : BitVec 4) (val : BitVec 24)
  /-- `REG_READ n` (R190). -/
  | regRead (reg : BitVec 4)
  /-- `REF_WRITE r, g, b` (R152). -/
  | refWrite (r g b : Byte)
  /-- `NOP` (R192). -/
  | nop
  /-- `RESET` (R193). Its 28 payload bits are ignored by the command (R88). They are kept here only so that a
  command stands for exactly one word. -/
  | reset (payload : BitVec 28)
deriving DecidableEq, Repr

end Sys2Proof
end

