-- ==== Sys2Proof/WellFormed.lean ====
section
/-! DEFINITION. What an assembler accepts (spec/30_encoding.md R93).

Every value of `Instr` has a word and the block gives that word a meaning: the field widths are in the types. What
R93 asks of an assembler is stricter in two places, and those are the checks here. A command that fails one is still
decoded and executed (`PK_WRITE` with a count of 17 to 31 raises `PK_WIDTH`, R83; any `RESET` payload resets, R88). -/

namespace Sys2Proof

/-- R93: "An assembler must refuse an operand that does not fit": `n ≤ 16` for `PK_WRITE`; and `RESET` is written
with the payload 0. Every other operand fits its field by its type. -/
def Instr.wellFormed : Instr → Bool
  | .pkWrite n _ => n.toNat ≤ 16
  | .pkPad => true
  | .pkFlush => true
  | .lzStart => true
  | .lzSym _ => true
  | .lzEnd => true
  | .dtBegin _ _ _ => true
  | .dtPixel _ _ _ => true
  | .palWrite _ _ _ => true
  | .regWrite _ _ => true
  | .regRead _ => true
  | .refWrite _ _ _ => true
  | .nop => true
  | .reset payload => payload = 0

end Sys2Proof
end

