-- ==== Sys2Proof/Decode.lean ====
section
/-! DEFINITION. Decoding a command word and encoding a command (spec/30_encoding.md R80 to R92). -/

namespace Sys2Proof

/-! ### Fields (R82 to R89) -/

/-- `OP = w[31:28]` (R80). -/
def opField (w : Word) : BitVec 4 := w.extractLsb' 28 4

/-- `REG = w[27:24]` (R89). -/
def regField (w : Word) : BitVec 4 := w.extractLsb' 24 4

/-- `VAL = w[23:0]` (R89). -/
def valField (w : Word) : BitVec 24 := w.extractLsb' 0 24

/-- `N = w[20:16]` (R89). -/
def countField (w : Word) : BitVec 5 := w.extractLsb' 16 5

/-- `V = w[15:0]` (R89). -/
def valueField (w : Word) : BitVec 16 := w.extractLsb' 0 16

/-- `R = w[23:16]` (R89). -/
def redField (w : Word) : Byte := w.extractLsb' 16 8

/-- `G = w[15:8]` (R89). -/
def greenField (w : Word) : Byte := w.extractLsb' 8 8

/-- `B = w[7:0]`, and `S = w[7:0]` (R89). -/
def lowByteField (w : Word) : Byte := w.extractLsb' 0 8

/-! ### Decoding (R90) -/

/-- The reserved-bit masks `RSV(op)` of R90. The two illegal operations have none. -/
def reservedMask (op : BitVec 4) : Word :=
  match op.toNat with
  | 0x1 => 0x0FE00000#32
  | 0x2 | 0x3 | 0x4 | 0x6 | 0xE => 0x0FFFFFFF#32
  | 0x5 => 0x0FFFFF00#32
  | 0x7 => 0x0FFFFFF8#32
  | 0x8 | 0x9 | 0xC => 0x0F000000#32
  | 0xB => 0x00FFFFFF#32
  | _ => 0#32

/-- What decoding a word answers: a command, or a rejection by name. -/
inductive Decoded where
  | instr (i : Instr)
  /-- `OP` is 0x0 or 0xD (R91): the word raises `ILLEGAL_OPCODE`. -/
  | illegalOpcode
  /-- A bit under `RSV(OP)` is 1 (R91): the word raises `RESERVED_BITS`. -/
  | reservedBits
deriving DecidableEq, Repr

/-- The command a word stands for, its operation being neither 0x0 nor 0xD and its reserved bits being 0 (R81). -/
def commandOf (w : Word) : Decoded :=
  match (opField w).toNat with
  | 0x1 => .instr (.pkWrite (countField w) (valueField w))
  | 0x2 => .instr .pkPad
  | 0x3 => .instr .pkFlush
  | 0x4 => .instr .lzStart
  | 0x5 => .instr (.lzSym (lowByteField w))
  | 0x6 => .instr .lzEnd
  | 0x7 => .instr (.dtBegin (w.getLsbD 2) (w.getLsbD 1) (w.getLsbD 0))
  | 0x8 => .instr (.dtPixel (redField w) (greenField w) (lowByteField w))
  | 0x9 => .instr (.palWrite (redField w) (greenField w) (lowByteField w))
  | 0xA => .instr (.regWrite (regField w) (valField w))
  | 0xB => .instr (.regRead (regField w))
  | 0xC => .instr (.refWrite (redField w) (greenField w) (lowByteField w))
  | 0xE => .instr .nop
  | 0xF => .instr (.reset (w.extractLsb' 0 28))
  | _ => .illegalOpcode

/-- Decoding a command word (R90): illegal operations first, then reserved bits, then the command. `RESET` has no
reserved bits, so that its place before the other checks in R90 changes nothing here; the faulted state, which R90
looks at between them, is looked at where the word is executed. -/
def decodeWord (w : Word) : Decoded :=
  if opField w = 0x0#4 ∨ opField w = 0xD#4 then .illegalOpcode
  else if w &&& reservedMask (opField w) ≠ 0#32 then .reservedBits
  else commandOf w

/-- The host's question: the instruction read from a table row's word. A command word is transferred whole (R70), so
its bits are numbered as the table numbers them; every row has 32 bits (R80). -/
def decodeTableWord (_nbits w : Nat) : Option Instr :=
  if w < 4294967296 then
    match decodeWord (BitVec.ofNat 32 w) with
    | .instr i => some i
    | .illegalOpcode => none
    | .reservedBits => none
  else none

/-! ### Encoding (R81 to R88, R93) -/

/-- The operation of each command (R81). -/
def opcodeOf : Instr → BitVec 4
  | .pkWrite _ _ => 0x1#4
  | .pkPad => 0x2#4
  | .pkFlush => 0x3#4
  | .lzStart => 0x4#4
  | .lzSym _ => 0x5#4
  | .lzEnd => 0x6#4
  | .dtBegin _ _ _ => 0x7#4
  | .dtPixel _ _ _ => 0x8#4
  | .palWrite _ _ _ => 0x9#4
  | .regWrite _ _ => 0xA#4
  | .regRead _ => 0xB#4
  | .refWrite _ _ _ => 0xC#4
  | .nop => 0xE#4
  | .reset _ => 0xF#4

/-- The bits 27:0 of each command's word: formats N (R82), PKW (R83), SYM (R84), FLG (R85), RGB (R86), RGW (R87), RGR
and RST (R88). -/
def operandBits : Instr → BitVec 28
  | .pkWrite n v => 0#7 ++ n ++ v
  | .pkPad => 0#28
  | .pkFlush => 0#28
  | .lzStart => 0#28
  | .lzSym s => 0#20 ++ s
  | .lzEnd => 0#28
  | .dtBegin chain wref uref => 0#25 ++ BitVec.ofBool chain ++ BitVec.ofBool wref ++ BitVec.ofBool uref
  | .dtPixel r g b => 0#4 ++ r ++ g ++ b
  | .palWrite r g b => 0#4 ++ r ++ g ++ b
  | .regWrite reg val => reg ++ val
  | .regRead reg => reg ++ 0#24
  | .refWrite r g b => 0#4 ++ r ++ g ++ b
  | .nop => 0#28
  | .reset payload => payload

/-- The word of a command (R93's table). -/
def encode (i : Instr) : Word := opcodeOf i ++ operandBits i

end Sys2Proof
end

