-- ==== Sys2Proof/Config.lean ====
section
/-! DEFINITION. The parameters an instance of the block fixes (spec/00_scope.md R6, R7).

The rule asks for a model "stated for every value of an open parameter within its legal range". The three
parameters are therefore an argument of the model: every state carries the `Params` of its instance, no step
changes them, and every statement is for all of them. Only `State.reset`, which must be one state, has to name
three values: the spec's own example values (log entry 1, DESIGN CHOICE). -/

namespace Sys2Proof

/-- The open parameters of R6: `MAX_WIDTH`, `REF_DEPTH` and `ACC_BITS`. -/
structure Params where
  /-- `MAX_WIDTH`: how many entries each error line buffer has (R7). -/
  maxWidth : Nat
  /-- `REF_DEPTH`: how many entries the reference frame has (R7). -/
  refDepth : Nat
  /-- `ACC_BITS`: the width of the signed fixed-point datapath (R7). -/
  accBits : Nat
deriving DecidableEq, Repr

/-- The legal ranges of R6. -/
abbrev Params.Legal (p : Params) : Prop :=
  (1 ≤ p.maxWidth ∧ p.maxWidth ≤ 65535) ∧ (1 ≤ p.refDepth ∧ p.refDepth ≤ 16777215) ∧
    (20 ≤ p.accBits ∧ p.accBits ≤ 64)

/-- The example values of R6, which `State.reset` takes.
DESIGN CHOICE (log entry 1), unsafe for a claim about `State.reset` alone: any legal values are as right. -/
def Params.sample : Params := { maxWidth := 4096, refDepth := 1048576, accBits := 32 }

end Sys2Proof
end

