-- ==== Sys2Proof/Machine/State.lean ====
section
/-! DEFINITION. The state of the block (spec/10_state.md R22 to R44), its ports (spec/20_memory.md R64 to R67), and
the state after reset (R43, R241). Plain data throughout. -/

namespace Sys2Proof.Machine

/-- One storage space (R60): entries by index, in one canonical form, indices strictly rising (`Memory.wf`). An index
that is not listed holds no value (PAL, REF, DICT) or the value 0 (the error lines, which list no zero entry). -/
abbrev Memory (α : Type) := List (Nat × α)

/-- The fault causes of R212, in the order of their codes. Codes 21 to 255 are never recorded. -/
inductive Cause where
  | none
  | illegalOpcode
  | reservedBits
  | badReg
  | regValue
  | pkWidth
  | pkBusy
  | pkFlushPartial
  | lzSeq
  | lzEmpty
  | lzResetWidth
  | subblockOverrun
  | dtSeq
  | dtGeometry
  | dtPalUninit
  | dtRefUninit
  | dtRange
  | dtBusyConfig
  | dtChainNoLz
  | refRange
  | sinkError
deriving DecidableEq, Repr

/-- The Bit Packer's state (R23). -/
structure Packer where
  /-- `PK.ACC_BYTE`: the partial byte being filled. -/
  accByte : Byte
  /-- `PK.BIT_IDX`: how many bits of it are filled, and the position of the next bit. -/
  bitIdx : BitVec 3
  /-- `PK.BUF[0 .. PK.BUF_CNT - 1]`: the completed bytes not yet emitted, in order. `PK.BUF_CNT` is the length of this
  list (`Packer.bufCnt`). What `PK.BUF` holds at or above `PK.BUF_CNT` is never observable (R43) and is not held (log
  entry 2). -/
  buf : List Byte
deriving DecidableEq, Repr

/-- The LZW encoder's state (R25). -/
structure Lzw where
  /-- `LZ.ACTIVE`: a code stream is open. -/
  active : Bool
  /-- `LZ.DICT`: the partial map from (prefix code `p`, symbol `s`), held at index `256 * p + s`, to a code. -/
  dict : Memory (BitVec 12)
  /-- `LZ.CUR`: `none` is `ROOT`, the empty matched sequence; otherwise the code of the current trie node. -/
  cur : Option (BitVec 12)
  /-- `LZ.WIDTH`: the current code width, 9 to 12. -/
  width : BitVec 4
  /-- `LZ.NEXT`: the next code to allocate. -/
  next : BitVec 13
deriving DecidableEq, Repr

/-- One value per channel in fixed point, a mathematical integer (R9): an accumulated value, an error, or an entry of
an error line (R27). -/
structure Fixed where
  r : Int
  g : Int
  b : Int
deriving DecidableEq, Repr

/-- The Ditherer's state (R27). -/
structure Ditherer where
  /-- `DT.ACTIVE`: a frame is in progress. -/
  active : Bool
  /-- `DT.W`, latched from `DT_WIDTH` by `DT_BEGIN`. -/
  w : BitVec 16
  /-- `DT.H`, latched from `DT_HEIGHT`. -/
  h : BitVec 16
  /-- `DT.X`: the column of the next pixel. -/
  x : BitVec 16
  /-- `DT.Y`: its row. -/
  y : BitVec 16
  /-- `DT.UREF`: compare against the reference frame. -/
  uref : Bool
  /-- `DT.WREF`: mirror into the reference frame. -/
  wref : Bool
  /-- `DT.CHAIN`: feed each index into the LZW encoder. -/
  chain : Bool
  /-- `DT.E0[0 .. MAX_WIDTH - 1]`: the error accumulated for the pixels of the current row; an unlisted entry is
  (0, 0, 0). -/
  e0 : Memory Fixed
  /-- `DT.E1[0 .. MAX_WIDTH - 1]`: the error accumulated for the pixels of the next row. -/
  e1 : Memory Fixed
deriving DecidableEq, Repr

/-- What the host does at the points between two commands (R13, R65, R66, R219, R240, R243). The MODEL's own type: the
host is an agent outside the block, and its schedule is an input of a run (log entry 3). -/
inductive HostAction where
  /-- The host writes a command word to the command port (R65). -/
  | write (w : Word)
  /-- The host takes the first `n` elements of OUT (all of them where there are fewer) (R64). -/
  | takeOut (n : Nat)
  /-- The host takes the first `n` elements of PIX. -/
  | takePix (n : Nat)
  /-- The host takes the first `n` elements of RSP. -/
  | takeRsp (n : Nat)
  /-- The host raises the sink-error event while no command is executing (R219). -/
  | sinkErr
  /-- The host asserts the hardware reset input (R240). -/
  | resetInput
  /-- The host lets the command engine take one word. With `some k` it raises the sink-error event while that command
  executes, after `k` of its append points have passed (R219). -/
  | letRun (sinkAfter : Option Nat)
deriving DecidableEq, Repr

/-- What the host has taken of each output stream, the oldest element first (R14, R64). The elements are the host's from
then on (R243): the MODEL holds them because they are part of a run's result (log entry 19). -/
structure Taken where
  /-- The bytes taken of OUT. -/
  out : List Byte
  /-- The words taken of PIX. -/
  pix : List Word
  /-- The words taken of RSP. -/
  rsp : List Word
deriving DecidableEq, Repr

/-- The state of the block. -/
structure State where
  /-- The parameters of the instance (R6). Not state: an argument of the model that no step changes. -/
  cfg : Params
  /-- `FAULT` (R30). -/
  fault : Bool
  /-- `CAUSE` (R30). -/
  cause : Cause
  /-- `FAULT_CMD` (R30, R33). -/
  faultCmd : Word
  /-- The Bit Packer, `PK` (R23). -/
  pk : Packer
  /-- The LZW encoder, `LZ` (R25). -/
  lz : Lzw
  /-- The Ditherer, `DT` (R27). -/
  dt : Ditherer
  /-- `PAL[2..254]` with `PAL_VALID[2..254]` (R28): a slot is listed exactly when its valid bit is 1. Slots 0, 1 and 255
  are hardwired and never listed. -/
  pal : Memory Rgb
  /-- `PAL_PTR` (R35). -/
  palPtr : BitVec 8
  /-- `REF` with `REF_VALID` (R29): an entry is listed exactly when its valid bit is 1. -/
  ref : Memory Rgb
  /-- `REF_PTR` (R36). -/
  refPtr : BitVec 24
  /-- `DT_WIDTH` (R34). -/
  dtWidth : BitVec 16
  /-- `DT_HEIGHT` (R34). -/
  dtHeight : BitVec 16
  /-- OUT (R64): the bytes appended and not yet taken by the host, the oldest first. -/
  out : List Byte
  /-- PIX (R64), likewise. -/
  pix : List Word
  /-- RSP (R64), likewise. -/
  rsp : List Word
  /-- The MODEL's own: what the host has taken of the three streams (R14, log entry 19). -/
  taken : Taken
  /-- The command port (R65): the words the host has written and the block has not taken, the oldest first. -/
  port : List Word
  /-- The MODEL's own: what the host does next, in order (log entry 3). Empty: the engine takes words as they stand. -/
  host : List HostAction
  /-- The MODEL's own: a sink-error event that reaches the command in progress after that many of its append points
  (log entry 4). `none` between two commands. -/
  sink : Option Nat
deriving DecidableEq, Repr

/-- Why a step stops without a next state. The block's own faults (R212) are not here: taking one is a next state
(R214). These three are reads or writes of entries the spec says are never formed; no run reaches them. -/
inductive Fault where
  /-- Raised by `DT_PIXEL` when its pixel's REF index is not below `REF_DEPTH`, which R62 says is never formed. Safe: it
  stops where the spec gives no effect. -/
  | refEntryMissing
  /-- Raised by `DT_PIXEL` when its position lies outside the frame or the frame is wider than the error lines, which
  R27 and R154 exclude while a frame is in progress. Safe. -/
  | lineEntryMissing
  /-- Raised by `DT_PIXEL` when the search meets a palette slot never written, which R155 excludes while a frame is in
  progress. Safe. -/
  | palSlotUnwritten
deriving DecidableEq, Repr

/-- Why a step is refused. -/
inductive Refusal where
  /-- Raised by `exec` for a command with no meaning in this model. There is none left. Safe. -/
  | notModelled (mnemonic : String)
deriving DecidableEq, Repr

/-- The packer after reset (R43): empty. -/
def Packer.reset : Packer := { accByte := 0#8, bitIdx := 0#3, buf := [] }

/-- The LZW encoder after reset (R43): no stream, the initial 258-code state (R121). -/
def Lzw.reset : Lzw := { active := false, dict := [], cur := none, width := 9#4, next := 258#13 }

/-- The Ditherer after reset (R43). The spec leaves `DT.E0` and `DT.E1` unspecified there; 0 is a DESIGN CHOICE (log
entry 5) that nothing observes, since `DT_BEGIN` zeroes them before use. -/
def Ditherer.reset : Ditherer :=
  { active := false, w := 0#16, h := 0#16, x := 0#16, y := 0#16, uref := false, wref := false, chain := false, e0 := [], e1 := [] }

/-- The block of an instance right after reset, idle, with nothing written to its command port and nothing taken yet (R43,
R241, R242). -/
def State.resetWith (p : Params) : State :=
  { cfg := p, fault := false, cause := .none, faultCmd := 0#32
    pk := Packer.reset, lz := Lzw.reset, dt := Ditherer.reset
    pal := [], palPtr := 0#8, ref := [], refPtr := 0#24, dtWidth := 0#16, dtHeight := 0#16
    out := [], pix := [], rsp := [], taken := { out := [], pix := [], rsp := [] }, port := [], host := [], sink := none }

/-- The machine right after reset, with the spec's example parameters (log entry 1). -/
def State.reset : State := State.resetWith Params.sample

end Sys2Proof.Machine
end

