-- ==== Sys2Proof/Machine/Memory.lean ====
section
/-! DEFINITION. Reading and writing one storage space (spec/20_memory.md R60 to R63, R73): every access moves one
whole entry, by its index. -/

namespace Sys2Proof.Machine

/-- The canonical form: indices strictly rising, so that equal contents are equal data. -/
abbrev Memory.wf {α : Type} (m : Memory α) : Prop := m.Pairwise (fun a b => a.1 < b.1)

/-- The value at an index, if it holds one. -/
def Memory.get? {α : Type} : Memory α → Nat → Option α
  | [], _ => none
  | (b, v) :: m, a => if a = b then some v else Memory.get? m a

/-- Write one entry. -/
def Memory.set {α : Type} : Memory α → Nat → α → Memory α
  | [], a, v => [(a, v)]
  | (b, u) :: m, a, v =>
    if a < b then (a, v) :: (b, u) :: m
    else if a = b then (a, v) :: m
    else (b, u) :: Memory.set m a v

/-- Remove one entry. -/
def Memory.erase {α : Type} (m : Memory α) (a : Nat) : Memory α := m.filter (fun e => e.1 != a)

/-- (0, 0, 0): what an error line holds at an entry no error has reached (R153, R181). -/
def Fixed.zero : Fixed := { r := 0, g := 0, b := 0 }

/-- Read an entry of an error line (R27). -/
def lineGet (line : Memory Fixed) (x : Nat) : Fixed := (line.get? x).getD Fixed.zero

/-- Write an entry of an error line, keeping zero entries unlisted. -/
def lineSet (line : Memory Fixed) (x : Nat) (e : Fixed) : Memory Fixed :=
  if e = Fixed.zero then line.erase x else line.set x e

/-- The canonical form of an error line: rising indices and no zero entry. -/
abbrev lineWf (line : Memory Fixed) : Prop := line.wf ∧ ∀ e ∈ line, e.2 ≠ Fixed.zero

/-- `PAL_VALID[i]` (R28): hardwired to 1 for slots 0, 1 and 255. -/
def palValid (pal : Memory Rgb) (i : Nat) : Bool :=
  i = 0 || i = 1 || i = 255 || (pal.get? i).isSome

/-- `MemRead(PAL, i)` (R61). A slot never written reads as black here; no command reads one (log entry 6). -/
def palRead (pal : Memory Rgb) (i : Nat) : Rgb :=
  if i = 0 ∨ i = 1 then ⟨0x00#8, 0x00#8, 0x00#8⟩
  else if i = 255 then ⟨0xFF#8, 0xFF#8, 0xFF#8⟩
  else (pal.get? i).getD ⟨0x00#8, 0x00#8, 0x00#8⟩

/-- `MemWrite(PAL, i, rgb)` (R61): no effect for slots 0, 1 and 255. -/
def palWrite (pal : Memory Rgb) (i : Nat) (c : Rgb) : Memory Rgb :=
  if i = 0 ∨ i = 1 ∨ i = 255 then pal else pal.set i c

/-- Every slot 2 to 254 has been written since reset (R155). -/
def palReady (pal : Memory Rgb) : Bool := (List.range' 2 253).all (palValid pal)

/-- The index of `LZ.DICT(p, s)` (R25). -/
def dictKey (p : BitVec 12) (s : Byte) : Nat := 256 * p.toNat + s.toNat

end Sys2Proof.Machine
end

