-- ==== Sys2Proof/Machine/Flags.lean ====
section
/-! DEFINITION. What the registers of the block read as (spec/10_state.md R31 to R42): the status flags and the views
of the units' state. -/

namespace Sys2Proof.Machine

/-- The cause codes of R212. -/
def Cause.code : Cause → BitVec 8
  | .none => 0#8
  | .illegalOpcode => 1#8
  | .reservedBits => 2#8
  | .badReg => 3#8
  | .regValue => 4#8
  | .pkWidth => 5#8
  | .pkBusy => 6#8
  | .pkFlushPartial => 7#8
  | .lzSeq => 8#8
  | .lzEmpty => 9#8
  | .lzResetWidth => 10#8
  | .subblockOverrun => 11#8
  | .dtSeq => 12#8
  | .dtGeometry => 13#8
  | .dtPalUninit => 14#8
  | .dtRefUninit => 15#8
  | .dtRange => 16#8
  | .dtBusyConfig => 17#8
  | .dtChainNoLz => 18#8
  | .refRange => 19#8
  | .sinkError => 20#8

/-- `PK.BUF_CNT` (R23): the number of valid bytes of `PK.BUF`. -/
def Packer.bufCnt (pk : Packer) : BitVec 8 := BitVec.ofNat 8 pk.buf.length

/-- `STATUS` (R32), its reserved bits reading 0. -/
def statusWord (s : State) : Word :=
  0#16 ++ s.cause.code ++ 0#2 ++ BitVec.ofBool s.dt.wref ++ BitVec.ofBool s.dt.uref ++ BitVec.ofBool s.dt.chain
    ++ BitVec.ofBool s.dt.active ++ BitVec.ofBool s.lz.active ++ BitVec.ofBool s.fault

/-- `DT_POS` (R37). -/
def posWord (s : State) : Word := s.dt.y ++ s.dt.x

/-- `LZ_STATE` (R38). The low 12 bits of `LZ.NEXT` are shown (log entry 7). -/
def lzStateWord (s : State) : Word :=
  0#3 ++ BitVec.ofBool s.lz.cur.isNone ++ s.lz.cur.getD 0#12 ++ s.lz.width ++ s.lz.next.setWidth 12

/-- `PK_STATE` (R39). -/
def pkStateWord (s : State) : Word := 0#8 ++ s.pk.bufCnt ++ s.pk.accByte ++ 0#5 ++ s.pk.bitIdx

/-- `ID` (R40): the bytes "GIFH", most significant first. -/
def idWord : Word := 0x47494648#32

/-- The value of a register (R31, R33 to R41), or none for the reserved numbers 13 to 15. Bits above a register's
width read 0. -/
def regValue (reg : BitVec 4) (s : State) : Option Word :=
  match reg.toNat with
  | 0 => some idWord
  | 1 => some (statusWord s)
  | 2 => some s.faultCmd
  | 3 => some (s.dtWidth.setWidth 32)
  | 4 => some (s.dtHeight.setWidth 32)
  | 5 => some (s.palPtr.setWidth 32)
  | 6 => some (s.refPtr.setWidth 32)
  | 7 => some (posWord s)
  | 8 => some (lzStateWord s)
  | 9 => some (pkStateWord s)
  | 10 => some (BitVec.ofNat 32 s.cfg.maxWidth)
  | 11 => some (BitVec.ofNat 32 s.cfg.refDepth)
  | 12 => some (BitVec.ofNat 32 s.cfg.accBits)
  | _ => none

/-- The `fault` output (R67, R215). -/
def faultOutput (s : State) : Bool := s.fault

end Sys2Proof.Machine
end

