-- ==== Sys2Proof/Machine/Operands.lean ====
section
/-! DEFINITION. Operand forms and fixed-point arithmetic: the constants of the code stream (spec/00_scope.md R6), the
fields of a register write (spec/43_control.md R191), the operators of R9, and the range check and error shares of the
Ditherer (spec/42_ditherer.md R161, R171, R174 to R178). -/

namespace Sys2Proof.Machine

/-! ### The code stream's constants (R6, R120) -/

/-- The clear code. -/
def clearCode : BitVec 16 := 256#16

/-- The end-of-information code. -/
def eoiCode : BitVec 16 := 257#16

/-! ### Register writes (R191) -/

/-- The width of a read-write register, or none for a read-only or reserved number. -/
def writableWidth (reg : BitVec 4) : Option Nat :=
  match reg.toNat with
  | 3 => some 16
  | 4 => some 16
  | 5 => some 8
  | 6 => some 24
  | _ => none

/-- Put a value into a read-write register. -/
def setRegister (reg : BitVec 4) (val : BitVec 24) (s : State) : State :=
  match reg.toNat with
  | 3 => { s with dtWidth := val.setWidth 16 }
  | 4 => { s with dtHeight := val.setWidth 16 }
  | 5 => { s with palPtr := val.setWidth 8 }
  | 6 => { s with refPtr := val }
  | _ => s

/-! ### Fixed point (R9, R161) -/

/-- A channel in fixed point: `c << 8`. -/
def fix (c : Byte) : Int := 256 * (c.toNat : Int)

/-- A colour in fixed point, channel by channel. -/
def fixRgb (c : Rgb) : Fixed := { r := fix c.r, g := fix c.g, b := fix c.b }

/-- `a >> 8`: the floor of `a / 256` (R9). -/
def shiftDown (a : Int) : Int := a / 256

/-- The bound of the signed datapath: `2 ^ (ACC_BITS - 1)` (R178). -/
def accLimit (p : Params) : Int := ((2 ^ (p.accBits - 1) : Nat) : Int)

/-- `chk` (R178): the value where it lies in the signed `ACC_BITS` range, and none, which raises `DT_RANGE`,
otherwise. -/
def chk (lim v : Int) : Option Int := if -lim ≤ v ∧ v ≤ lim - 1 then some v else none

/-- `|chk(v)|`, itself checked (R178). -/
def chkAbs (lim v : Int) : Option Int := do
  let d ← chk lim v
  chk lim (d.natAbs : Int)

/-- `share(e, k) = tdiv(chk(e * k), 16)` (R174, R176): multiply first, then truncate toward zero. -/
def share (lim e : Int) (k : Int) : Option Int := do
  let p ← chk lim (e * k)
  some (p.tdiv 16)

/-- The accumulated value of a pixel (R161): the input in fixed point plus the error received. -/
def accumulate (lim : Int) (v : Rgb) (e : Fixed) : Option Fixed := do
  let r ← chk lim (fix v.r + e.r)
  let g ← chk lim (fix v.g + e.g)
  let b ← chk lim (fix v.b + e.b)
  some { r := r, g := g, b := b }

/-- `d(i)` of R171 with the checks of R178: the summed absolute per-channel difference. -/
def distance (lim : Int) (acc : Fixed) (c : Rgb) : Option Int := do
  let r ← chkAbs lim (acc.r - fix c.r)
  let g ← chkAbs lim (acc.g - fix c.g)
  let b ← chkAbs lim (acc.b - fix c.b)
  let rg ← chk lim (r + g)
  chk lim (rg + b)

/-- The error of a searched pixel (R173). -/
def errorOf (lim : Int) (acc : Fixed) (c : Rgb) : Option Fixed := do
  let r ← chk lim (acc.r - fix c.r)
  let g ← chk lim (acc.g - fix c.g)
  let b ← chk lim (acc.b - fix c.b)
  some { r := r, g := g, b := b }

/-- Add the `k`/16 share of an error to entry `x` of an error line (R174). -/
def addShare (lim : Int) (line : Memory Fixed) (x : Nat) (err : Fixed) (k : Int) : Option (Memory Fixed) := do
  let old := lineGet line x
  let r ← (share lim err.r k).bind fun q => chk lim (old.r + q)
  let g ← (share lim err.g k).bind fun q => chk lim (old.g + q)
  let b ← (share lim err.b k).bind fun q => chk lim (old.b + q)
  some (lineSet line x { r := r, g := g, b := b })

/-- Add a share only where the neighbour lies in the frame (R175). -/
def addShareIf (c : Bool) (lim : Int) (line : Memory Fixed) (x : Nat) (err : Fixed) (k : Int) : Option (Memory Fixed) :=
  if c then addShare lim line x err k else some line

/-- The colour a fixed-point value shifts down to, when its channels lie in 0..255 (R170). -/
def Fixed.toRgb (a : Fixed) : Rgb :=
  { r := BitVec.ofInt 8 (shiftDown a.r), g := BitVec.ofInt 8 (shiftDown a.g), b := BitVec.ofInt 8 (shiftDown a.b) }

/-- The test of the skip (R170): every channel, shifted down, equals the colour's. -/
def Fixed.showsAs (a : Fixed) (c : Rgb) : Bool :=
  shiftDown a.r = (c.r.toNat : Int) && shiftDown a.g = (c.g.toNat : Int) && shiftDown a.b = (c.b.toNat : Int)

/-- The PIX word of a pixel (R179). -/
def pixWord (c : Rgb) (idx : Byte) : Word := c.r ++ c.g ++ c.b ++ idx

end Sys2Proof.Machine
end

