-- ==== Sys2Proof/Machine/Ops.lean ====
section
/-! DEFINITION. The operations every command is built from: named updates of the state, appending to a stream, taking a
fault, executing a command, and the return from a fault, which is reset (spec/60_exceptions.md, spec/70_reset_and_hazards.md
R240, spec/20_memory.md R64). -/

namespace Sys2Proof.Machine

/-! ### Named updates -/

/-- Record a fault: `FAULT`, `CAUSE` and `FAULT_CMD` (R30). -/
def State.setFault (s : State) (c : Cause) (w : Word) : State := { s with fault := true, cause := c, faultCmd := w }

/-- Write the packer's state. -/
def State.setPk (s : State) (pk : Packer) : State := { s with pk := pk }

/-- Write the LZW encoder's state. -/
def State.setLz (s : State) (lz : Lzw) : State := { s with lz := lz }

/-- Write the Ditherer's state. -/
def State.setDt (s : State) (dt : Ditherer) : State := { s with dt := dt }

/-- Write the palette and its pointer. -/
def State.setPal (s : State) (pal : Memory Rgb) (ptr : BitVec 8) : State := { s with pal := pal, palPtr := ptr }

/-- Write the reference frame. -/
def State.setRef (s : State) (ref : Memory Rgb) : State := { s with ref := ref }

/-- Write `REF_PTR`. -/
def State.setRefPtr (s : State) (ptr : BitVec 24) : State := { s with refPtr := ptr }

/-- Append bytes to OUT (R64). -/
def State.addOut (s : State) (bs : List Byte) : State := { s with out := s.out ++ bs }

/-- Append a word to PIX (R64). -/
def State.addPix (s : State) (w : Word) : State := { s with pix := s.pix ++ [w] }

/-- Append a word to RSP (R64). -/
def State.addRsp (s : State) (w : Word) : State := { s with rsp := s.rsp ++ [w] }

/-- Set what the host has taken of the streams (R14). -/
def State.setTaken (s : State) (tk : Taken) : State := { s with taken := tk }

/-- Set the sink-error event of the command in progress (log entry 4). -/
def State.setSink (s : State) (k : Option Nat) : State := { s with sink := k }

/-- Set the words waiting at the command port (R65). -/
def State.setPort (s : State) (ws : List Word) : State := { s with port := ws }

/-- Set what the host does next (log entry 3). -/
def State.setHost (s : State) (as : List HostAction) : State := { s with host := as }

/-! ### The flow of a command's pseudocode (R11) -/

/-- How far a command's pseudocode has come. -/
inductive Flow where
  /-- It goes on from this state. -/
  | go (s : State)
  /-- It has raised a fault (R10): none of its effects stand. -/
  | raise (c : Cause)
  /-- The sink-error event has stopped it at an append point (R219): the effects made so far stand. -/
  | stop (s : State)
  /-- It has formed an entry the spec says is never formed. -/
  | broken (f : Fault)
deriving DecidableEq, Repr

/-- Go on with the rest of the pseudocode, where it goes on. -/
def Flow.andThen (f : Flow) (rest : State → Flow) : Flow :=
  match f with
  | .go s => rest s
  | .raise c => .raise c
  | .stop s => .stop s
  | .broken x => .broken x

/-! ### Appending to a stream (R64, R219) -/

/-- One append point. The sink-error event, where it reaches this point and the block is not faulted, stops the command
here and the element is not appended (R219); otherwise `appended` is the state in which it is. -/
def appendPoint (s appended : State) : Flow :=
  if s.fault then .go appended
  else
    match s.sink with
    | none => .go appended
    | some 0 => .stop s
    | some (k + 1) => .go (appended.setSink (some k))

/-- `emit_out` (R64). -/
def emitOut (b : Byte) (s : State) : Flow := appendPoint s (s.addOut [b])

/-- `emit_out` of several bytes, one after the other. -/
def emitOuts : List Byte → State → Flow
  | [], s => .go s
  | b :: bs, s => (emitOut b s).andThen (emitOuts bs)

/-- `emit_pix` (R64). -/
def emitPix (w : Word) (s : State) : Flow := appendPoint s (s.addPix w)

/-- `emit_rsp` (R64). -/
def emitRsp (w : Word) (s : State) : Flow := appendPoint s (s.addRsp w)

/-! ### Taking a fault (R214, R219) -/

/-- `take_fault(cause, w)` (R214). A `REG_READ` that faults answers 0 (R220); `FAULT` is 1 by then, so that no
sink-error event stops that answer (log entry 8). -/
def takeFault (c : Cause) (w : Word) (s : State) : State :=
  if opField w = 0xB#4 then (s.setFault c w).addRsp 0#32 else s.setFault c w

/-- Taking `SINK_ERROR` (R219): `w` is the command in progress, or 0 between two commands. The event is used up. -/
def takeSinkError (w : Word) (s : State) : State := (s.setFault .sinkError w).setSink none

/-- How a command ends, begun in `s₀`. A raised fault is precise (R214): it is taken in `s₀` itself. -/
def conclude (s₀ : State) (w : Word) (f : Flow) : Host.Outcome State Fault Refusal :=
  match f with
  | .go s => .next s
  | .raise c => .next (takeFault c w s₀)
  | .stop s => .next (takeSinkError w s)
  | .broken x => .fault x

/-- Execute a command other than `RESET` and `REG_READ`: while faulted it is discarded (R216). -/
def command (i : Instr) (s : State) (body : State → Flow) : Host.Outcome State Fault Refusal :=
  if s.fault then .next s else conclude s (encode i) (body s)

/-- Answer a `REG_READ` while faulted (R216): the register's value, or 0 for a reserved number, with no check. -/
def serveRead (reg : BitVec 4) (s : State) : State := s.addRsp ((regValue reg s).getD 0#32)

/-- A word that is no command (R90, R216): while faulted it is discarded, or served where its operation is
`REG_READ`'s; otherwise it raises its cause. -/
def rejectWord (c : Cause) (w : Word) (s : State) : State :=
  if s.fault then (if opField w = 0xB#4 then serveRead (regField w) s else s) else takeFault c w s

/-! ### The return from a fault: reset (R217, R240) -/

/-- Reset (R240): every element of R43 at its reset value and every stream empty (R243). The parameters of the instance
are constants (R40); the words at the command port, the host's own schedule and what the host has already taken (R243) are
not the block's to reset. -/
def resetBlock (s : State) : State :=
  ((((State.resetWith s.cfg).setTaken s.taken).setPort s.port).setHost s.host).setSink s.sink

/-- Reset by the hardware reset input (R240): the words written but not yet taken are discarded too. -/
def resetByInput (s : State) : State := (resetBlock s).setPort []

end Sys2Proof.Machine
end

