-- ==== Sys2Proof/Machine/Control.lean ====
section
/-! DEFINITION. The control commands (spec/43_control.md): `REG_WRITE`, `REG_READ`, `NOP` and `RESET`. -/

namespace Sys2Proof.Machine

/-- `REG_WRITE n, v` (R191). -/
def execRegWrite (reg : BitVec 4) (val : BitVec 24) (s : State) : Host.Outcome State Fault Refusal :=
  command (.regWrite reg val) s fun s =>
    match writableWidth reg with
    | none => .raise .badReg
    | some width =>
      if 2 ^ width ≤ val.toNat then .raise .regValue
      else if s.dt.active then .raise .dtBusyConfig
      else .go (setRegister reg val s)

/-- `REG_READ n` (R190): served without a check while faulted (R216). -/
def execRegRead (reg : BitVec 4) (s : State) : Host.Outcome State Fault Refusal :=
  if s.fault then .next (serveRead reg s)
  else
    command (.regRead reg) s fun s =>
      match regValue reg s with
      | none => .raise .badReg
      | some v => emitRsp v s

/-- `NOP` (R192). -/
def execNop (s : State) : Host.Outcome State Fault Refusal := command .nop s fun s => .go s

/-- `RESET` (R193): executed also while faulted (R217), whatever its payload (R88). -/
def execReset (_payload : BitVec 28) (s : State) : Host.Outcome State Fault Refusal := .next (resetBlock s)

end Sys2Proof.Machine
end

