-- ==== Sys2Proof/Machine/Packer.lean ====
section
/-! DEFINITION. The Bit Packer (spec/40_bit_packer.md): its internal operations R100 to R103 and the commands
`PK_WRITE`, `PK_PAD` and `PK_FLUSH` (R104 to R106). -/

namespace Sys2Proof.Machine

/-- A byte has been completed (R100): it joins the buffer, and the 255th emits the sub-block. -/
def completeByte (b : Byte) (s : State) : Flow :=
  let full := s.pk.buf ++ [b]
  let s₁ := s.setPk { accByte := 0#8, bitIdx := 0#3, buf := full }
  if 255 < full.length then .raise .subblockOverrun
  else if full.length = 255 then
    (emitOuts (255#8 :: full) s₁).andThen fun s₂ => .go (s₂.setPk { s₂.pk with buf := [] })
  else .go s₁

/-- `put_bit(b)` (R100). -/
def putBit (b : Bool) (s : State) : Flow :=
  let acc := s.pk.accByte ||| ((BitVec.ofBool b).setWidth 8 <<< s.pk.bitIdx.toNat)
  if s.pk.bitIdx = 7#3 then completeByte acc s
  else .go (s.setPk { s.pk with accByte := acc, bitIdx := s.pk.bitIdx + 1#3 })

/-- `put_bit` of several bits, one after the other. -/
def putBits : List Bool → State → Flow
  | [], s => .go s
  | b :: bs, s => (putBit b s).andThen (putBits bs)

/-- The `n` low bits of a value, bit 0 first (R101). -/
def lowBits (v : BitVec 16) (n : Nat) : List Bool := (List.range n).map v.getLsbD

/-- `write_code(v, n)` (R101). -/
def writeCode (v : BitVec 16) (n : Nat) (s : State) : Flow := putBits (lowBits v n) s

/-- The loop of `pad()` (R102), which runs at most seven times. -/
def padLoop : Nat → State → Flow
  | 0, s => .go s
  | fuel + 1, s => if s.pk.bitIdx = 0#3 then .go s else (putBit false s).andThen (padLoop fuel)

/-- `pad()` (R102). -/
def pad (s : State) : Flow := padLoop 8 s

/-- `flush()` (R103). -/
def flush (s : State) : Flow :=
  if s.pk.bitIdx ≠ 0#3 then .raise .pkFlushPartial
  else if s.pk.buf = [] then .go s
  else (emitOuts (s.pk.bufCnt :: s.pk.buf) s).andThen fun s₁ => .go (s₁.setPk { s₁.pk with buf := [] })

/-- `PK_WRITE n, v` (R104). -/
def execPkWrite (n : BitVec 5) (v : BitVec 16) (s : State) : Host.Outcome State Fault Refusal :=
  command (.pkWrite n v) s fun s =>
    if 16 < n.toNat then .raise .pkWidth
    else if s.lz.active then .raise .pkBusy
    else writeCode v n.toNat s

/-- `PK_PAD` (R105). -/
def execPkPad (s : State) : Host.Outcome State Fault Refusal :=
  command .pkPad s fun s => if s.lz.active then .raise .pkBusy else pad s

/-- `PK_FLUSH` (R106). -/
def execPkFlush (s : State) : Host.Outcome State Fault Refusal :=
  command .pkFlush s fun s => if s.lz.active then .raise .pkBusy else flush s

end Sys2Proof.Machine
end

