-- ==== Sys2Proof/Machine/Lzw.lean ====
section
/-! DEFINITION. The LZW dictionary encoder (spec/41_lzw_encoder.md): its per-symbol step R124, the forced reset R125, and
the commands `LZ_START`, `LZ_SYM` and `LZ_END` (R126 to R128). -/

namespace Sys2Proof.Machine

/-- `lz_init()` (R121): the initial 258-code state. `LZ.ACTIVE` is not its to write. -/
def lzInit (lz : Lzw) : Lzw := { lz with dict := [], cur := none, width := 9#4, next := 258#13 }

/-- Binding the next code to (prefix `p`, symbol `s`) (R124), with the growth of the width (R123). -/
def lzBind (lz : Lzw) (p : BitVec 12) (s : Byte) : Lzw :=
  { lz with
    dict := lz.dict.set (dictKey p s) (lz.next.setWidth 12)
    width := if 2 ^ lz.width.toNat ≤ lz.next.toNat then lz.width + 1#4 else lz.width
    next := lz.next + 1#13 }

/-- `forced_reset()` (R125). -/
def forcedReset (s : State) : Flow :=
  if s.lz.width ≠ 12#4 then .raise .lzResetWidth
  else (writeCode clearCode s.lz.width.toNat s).andThen fun s₁ => .go (s₁.setLz (lzInit s₁.lz))

/-- `LZ.CUR <- c`. -/
def setCur (c : BitVec 12) (s : State) : Flow := .go (s.setLz { s.lz with cur := some c })

/-- A miss (R124): write the current code, bind the next one, reset the dictionary where the code space is used up, and
restart from the symbol's singleton code. -/
def lzMiss (p : BitVec 12) (sym : Byte) (s : State) : Flow :=
  (writeCode (p.setWidth 16) s.lz.width.toNat s).andThen fun s₁ =>
    let s₂ := s₁.setLz (lzBind s₁.lz p sym)
    (if s₂.lz.next = 4096#13 then forcedReset s₂ else .go s₂).andThen (setCur (sym.setWidth 12))

/-- `lz_sym(s)` (R124). -/
def lzSym (sym : Byte) (s : State) : Flow :=
  match s.lz.cur with
  | none => setCur (sym.setWidth 12) s
  | some p =>
    match s.lz.dict.get? (dictKey p sym) with
    | some c => setCur c s
    | none => lzMiss p sym s

/-- `LZ_START` (R126). -/
def execLzStart (s : State) : Host.Outcome State Fault Refusal :=
  command .lzStart s fun s =>
    if s.lz.active then .raise .lzSeq
    else writeCode clearCode 9 (s.setLz { lzInit s.lz with active := true })

/-- `LZ_SYM s` (R127). -/
def execLzSym (sym : Byte) (s : State) : Host.Outcome State Fault Refusal :=
  command (.lzSym sym) s fun s => if s.lz.active then lzSym sym s else .raise .lzSeq

/-- The end sequence of R128 with `p` the pending code. -/
def lzFinish (p : BitVec 12) (s : State) : Flow :=
  (writeCode (p.setWidth 16) s.lz.width.toNat s).andThen fun s₁ =>
    (writeCode clearCode s₁.lz.width.toNat s₁).andThen fun s₂ =>
      (writeCode eoiCode 9 s₂).andThen fun s₃ =>
        (pad s₃).andThen fun s₄ =>
          (flush s₄).andThen fun s₅ => .go (s₅.setLz { lzInit s₅.lz with active := false })

/-- `LZ_END` (R128). -/
def execLzEnd (s : State) : Host.Outcome State Fault Refusal :=
  command .lzEnd s fun s =>
    if s.lz.active then
      match s.lz.cur with
      | none => .raise .lzEmpty
      | some p => lzFinish p s
    else .raise .lzSeq

end Sys2Proof.Machine
end

