-- ==== Sys2Proof/Machine/Ditherer.lean ====
section
/-! DEFINITION. The Ditherer, the palette and the reference frame (spec/42_ditherer.md): `PAL_WRITE`, `REF_WRITE`,
`DT_BEGIN` and `DT_PIXEL`. -/

namespace Sys2Proof.Machine

/-- `PAL_WRITE r, g, b` (R151). -/
def execPalWrite (r g b : Byte) (s : State) : Host.Outcome State Fault Refusal :=
  command (.palWrite r g b) s fun s =>
    if s.dt.active then .raise .dtBusyConfig
    else .go (s.setPal (palWrite s.pal s.palPtr.toNat ⟨r, g, b⟩) (s.palPtr + 1#8))

/-- `REF_WRITE r, g, b` (R152). -/
def execRefWrite (r g b : Byte) (s : State) : Host.Outcome State Fault Refusal :=
  command (.refWrite r g b) s fun s =>
    if s.dt.active then .raise .dtBusyConfig
    else if s.cfg.refDepth ≤ s.refPtr.toNat then .raise .refRange
    else .go ((s.setRef (s.ref.set s.refPtr.toNat ⟨r, g, b⟩)).setRefPtr (s.refPtr + 1#24))

/-- The geometry that `DT_BEGIN` refuses (R154). -/
def badGeometry (wref uref : Bool) (s : State) : Bool :=
  s.dtWidth = 0#16 || s.dtHeight = 0#16 || s.cfg.maxWidth < s.dtWidth.toNat
    || ((uref || wref) && s.cfg.refDepth < s.dtWidth.toNat * s.dtHeight.toNat)

/-- `DT_BEGIN f` (R153). -/
def execDtBegin (chain wref uref : Bool) (s : State) : Host.Outcome State Fault Refusal :=
  command (.dtBegin chain wref uref) s fun s =>
    if s.dt.active then .raise .dtSeq
    else if badGeometry wref uref s then .raise .dtGeometry
    else if palReady s.pal then
      .go (s.setDt
        { active := true, w := s.dtWidth, h := s.dtHeight, x := 0#16, y := 0#16
          uref := uref, wref := wref, chain := chain, e0 := [], e1 := [] })
    else .raise .dtPalUninit

/-! ### One pixel -/

/-- The search of R171 with the tie-break of R172: `best` is replaced only on a strictly smaller distance. None where a
value leaves the datapath's range (R178). -/
def searchFrom (lim : Int) (acc : Fixed) (slot : Nat → Rgb) : List Nat → Nat × Int → Option (Nat × Int)
  | [], best => some best
  | i :: is, best => do
    let d ← distance lim acc (slot i)
    searchFrom lim acc slot is (if d < best.2 then (i, d) else best)

/-- The slots searched after slot 0, in order (R171). -/
def laterSlots : List Nat := List.range' 1 255

/-- The chosen slot and its distance (R160, R171): slot 0 first, then slots 1 to 255. -/
def search (lim : Int) (acc : Fixed) (slot : Nat → Rgb) : Option (Nat × Int) := do
  let d ← distance lim acc (slot 0)
  searchFrom lim acc slot laterSlots (0, d)

/-- `diffuse(err, x, y, W, H)` (R174, R175), on the two error lines. -/
def diffuse (lim : Int) (err : Fixed) (dt : Ditherer) : Option (Memory Fixed × Memory Fixed) := do
  let x := dt.x.toNat
  let right : Bool := x + 1 < dt.w.toNat
  let down : Bool := dt.y.toNat + 1 < dt.h.toNat
  let e0 ← addShareIf right lim dt.e0 (x + 1) err 7
  let e1 ← addShareIf (down && 1 ≤ x) lim dt.e1 (x - 1) err 3
  let e1 ← addShareIf down lim e1 x err 5
  let e1 ← addShareIf (down && right) lim e1 (x + 1) err 1
  some (e0, e1)

/-- What dithering a pixel gives (R160): its index, its output colour and the working copies of the error lines. -/
structure Pixel where
  idx : Byte
  colour : Rgb
  e0 : Memory Fixed
  e1 : Memory Fixed
deriving DecidableEq, Repr

/-- The entry of the reference frame a pixel is compared with and mirrored into: `y * W + x` (R29). -/
def pixelEntry (dt : Ditherer) : Nat := dt.y.toNat * dt.w.toNat + dt.x.toNat

/-- The skip is taken (R170). -/
def skipTaken (acc : Fixed) (s : State) : Bool :=
  s.dt.uref && (match s.ref.get? (pixelEntry s.dt) with
    | some c => acc.showsAs c
    | none => false)

/-- The searched pixel (R171 to R175). -/
def searchedPixel (acc : Fixed) (s : State) : Option Pixel := do
  let lim := accLimit s.cfg
  let best ← search lim acc (palRead s.pal)
  let colour := palRead s.pal best.1
  let err ← errorOf lim acc colour
  let lines ← diffuse lim err s.dt
  some { idx := BitVec.ofNat 8 best.1, colour := colour, e0 := lines.1, e1 := lines.2 }

/-- Advance to the next pixel in row-major order (R181), ending the frame after the last one (R182). -/
def advance (dt : Ditherer) : Ditherer :=
  if dt.x + 1#16 = dt.w then
    if dt.y + 1#16 = dt.h then { dt with active := false, x := 0#16, y := 0#16, e0 := dt.e1, e1 := [] }
    else { dt with x := 0#16, y := dt.y + 1#16, e0 := dt.e1, e1 := [] }
  else { dt with x := dt.x + 1#16 }

/-- Writing a pixel's error lines, and mirroring its colour where `WREF` is set (R180). -/
def storePixel (p : Pixel) (s : State) : State :=
  let s₁ := s.setDt { s.dt with e0 := p.e0, e1 := p.e1 }
  if s.dt.wref then s₁.setRef (s.ref.set (pixelEntry s.dt) p.colour) else s₁

/-- Committing a pixel (R160's last lines): the index goes to the LZW encoder where the frame is chained (R183), the
error lines and the mirrored colour are written, the PIX word is appended (R179) and the position advances. -/
def commitPixel (p : Pixel) (s : State) : Flow :=
  (if s.dt.chain then lzSym p.idx s else .go s).andThen fun s₁ =>
    (emitPix (pixWord p.colour p.idx) (storePixel p s₁)).andThen fun s₂ => .go (s₂.setDt (advance s₂.dt))

/-- The rest of `DT_PIXEL` once the accumulated value is known. -/
def finishPixel (acc : Fixed) (s : State) : Flow :=
  if skipTaken acc s then commitPixel { idx := 1#8, colour := acc.toRgb, e0 := s.dt.e0, e1 := s.dt.e1 } s
  else if palReady s.pal then
    match searchedPixel acc s with
    | none => .raise .dtRange
    | some p => commitPixel p s
  else .broken .palSlotUnwritten

/-- `DT_PIXEL` once its sequence checks have passed (R160). -/
def ditherPixel (v : Rgb) (s : State) : Flow :=
  if s.dt.w.toNat ≤ s.dt.x.toNat ∨ s.cfg.maxWidth < s.dt.w.toNat then .broken .lineEntryMissing
  else if (s.dt.uref || s.dt.wref) && s.cfg.refDepth ≤ pixelEntry s.dt then .broken .refEntryMissing
  else if s.dt.uref && (s.ref.get? (pixelEntry s.dt)).isNone then .raise .dtRefUninit
  else
    match accumulate (accLimit s.cfg) v (lineGet s.dt.e0 s.dt.x.toNat) with
    | none => .raise .dtRange
    | some acc => finishPixel acc s

/-- `DT_PIXEL r, g, b` (R160). -/
def execDtPixel (r g b : Byte) (s : State) : Host.Outcome State Fault Refusal :=
  command (.dtPixel r g b) s fun s =>
    if s.dt.active then
      if s.dt.chain && !s.lz.active then .raise .dtChainNoLz else ditherPixel ⟨r, g, b⟩ s
    else .raise .dtSeq

end Sys2Proof.Machine
end

