-- ==== Sys2Proof/Machine/Dispatch.lean ====
section
/-! DEFINITION. One arm per command of spec/30_encoding.md R81. -/

namespace Sys2Proof.Machine

def exec (i : Instr) (s : State) : Host.Outcome State Fault Refusal :=
  match i with
  | .pkWrite n v => Sys2Proof.Machine.execPkWrite n v s
  | .pkPad => Sys2Proof.Machine.execPkPad s
  | .pkFlush => Sys2Proof.Machine.execPkFlush s
  | .lzStart => Sys2Proof.Machine.execLzStart s
  | .lzSym sym => Sys2Proof.Machine.execLzSym sym s
  | .lzEnd => Sys2Proof.Machine.execLzEnd s
  | .dtBegin chain wref uref => Sys2Proof.Machine.execDtBegin chain wref uref s
  | .dtPixel r g b => Sys2Proof.Machine.execDtPixel r g b s
  | .palWrite r g b => Sys2Proof.Machine.execPalWrite r g b s
  | .regWrite reg val => Sys2Proof.Machine.execRegWrite reg val s
  | .regRead reg => Sys2Proof.Machine.execRegRead reg s
  | .refWrite r g b => Sys2Proof.Machine.execRefWrite r g b s
  | .nop => Sys2Proof.Machine.execNop s
  | .reset payload => Sys2Proof.Machine.execReset payload s

end Sys2Proof.Machine
end

