-- ==== Sys2Proof/Machine/Port.lean ====
section
/-! DEFINITION. The points between two commands: taking a word from the command port (spec/20_memory.md R65), the host's
actions (spec/00_scope.md R13), a sink-error event that found no append point (spec/60_exceptions.md R219), and the end of a
run with its observable result (spec/00_scope.md R14). -/

namespace Sys2Proof.Machine

/-- The sink-error event at a point between two commands (R219): taken with `FAULT_CMD` 0, or ignored while faulted. -/
def sinkBetween (s : State) : State := if s.fault then s.setSink none else takeSinkError 0#32 s

/-- The point after a command: an event that reached none of its append points is taken here (R219). -/
def afterCommand (s : State) : State :=
  match s.sink with
  | none => s
  | some _ => sinkBetween s

/-- The host takes the first `n` elements of OUT, all of them where there are fewer (R64). -/
def takeOut (n : Nat) (s : State) : State :=
  { s with out := s.out.drop n, taken := { s.taken with out := s.taken.out ++ s.out.take n } }

/-- The host takes the first `n` elements of PIX. -/
def takePix (n : Nat) (s : State) : State :=
  { s with pix := s.pix.drop n, taken := { s.taken with pix := s.taken.pix ++ s.pix.take n } }

/-- The host takes the first `n` elements of RSP. -/
def takeRsp (n : Nat) (s : State) : State :=
  { s with rsp := s.rsp.drop n, taken := { s.taken with rsp := s.taken.rsp ++ s.rsp.take n } }

/-- What the host's action does, between two commands. `letRun` is not among these points: it is where the engine runs. -/
def hostAct (a : HostAction) (s : State) : State :=
  match a with
  | .write w => s.setPort (s.port ++ [w])
  | .takeOut n => takeOut n s
  | .takePix n => takePix n s
  | .takeRsp n => takeRsp n s
  | .sinkErr => sinkBetween s
  | .resetInput => resetByInput s
  | .letRun _ => s

/-- The host's schedule that lets the engine take its next word at once: as it stands where it is empty. -/
def letRunFirst (as : List HostAction) : List HostAction :=
  match as with
  | [] => []
  | a :: rest => .letRun none :: a :: rest

/-! ### The end of a run (R14) -/

/-- A run is over: every command word has been executed or ignored, the host has nothing left to do and has taken every
element of the three streams. -/
abbrev State.runOver (s : State) : Prop :=
  s.port = [] ∧ s.host = [] ∧ s.sink = none ∧ s.out = [] ∧ s.pix = [] ∧ s.rsp = []

/-- The observable result of a run (R14). -/
structure RunResult where
  /-- OUT, as the host has taken it. -/
  out : List Byte
  /-- PIX, likewise. -/
  pix : List Word
  /-- RSP, likewise. -/
  rsp : List Word
  /-- The final values of registers 0 to 12, in the order of their numbers. -/
  registers : List Word
  /-- The contents of PAL, slot by slot: none where a slot has never been written (R43 gives it no value). -/
  pal : List (Option Rgb)
  /-- The contents of REF: the entries written since reset. -/
  ref : Memory Rgb
deriving DecidableEq, Repr

/-- The contents of a palette slot, where it has any (R28). -/
def palContents (pal : Memory Rgb) (i : Nat) : Option Rgb := if palValid pal i then some (palRead pal i) else none

/-- The observable result of a run that is over, and none before (R14). -/
def State.result (s : State) : Option RunResult :=
  if s.runOver then
    some
      { out := s.taken.out, pix := s.taken.pix, rsp := s.taken.rsp
        registers := (List.range 13).filterMap fun n => regValue (BitVec.ofNat 4 n) s
        pal := (List.range 256).map (palContents s.pal)
        ref := s.ref }
  else none

end Sys2Proof.Machine
end

