-- ==== Sys2Proof/Machine/Step.lean ====
section
/-! DEFINITION. One step of the machine: an action of the host, or one command word executed to its end
(spec/20_memory.md R65, spec/30_encoding.md R90, spec/60_exceptions.md R218). -/

namespace Sys2Proof.Machine

/-- Execute one word (R90, R218). -/
def runWord (w : Word) (s : State) : Host.Outcome State Fault Refusal :=
  match decodeWord w with
  | .instr i => exec i s
  | .illegalOpcode => .next (rejectWord .illegalOpcode w s)
  | .reservedBits => .next (rejectWord .reservedBits w s)

/-- Pass the point after a command, where it gave a next state. -/
def settle (o : Host.Outcome State Fault Refusal) : Host.Outcome State Fault Refusal :=
  match o with
  | .next s => .next (afterCommand s)
  | .fault f => .fault f
  | .refused r => .refused r

/-- Let the command engine take one word, a sink-error event reaching it after `sinkAfter` append points where there is
one. With no word at the port the block is idle and keeps its state (R225, R242). -/
def runEngine (sinkAfter : Option Nat) (s : State) : Host.Outcome State Fault Refusal :=
  match s.port with
  | [] => .next (afterCommand (s.setSink sinkAfter))
  | w :: ws => settle (runWord w ((s.setPort ws).setSink sinkAfter))

/-- One step. -/
def step (s : State) : Host.Outcome State Fault Refusal :=
  match s.host with
  | [] => runEngine none s
  | .letRun sinkAfter :: rest => runEngine sinkAfter (s.setHost rest)
  | a :: rest => .next (hostAct a (s.setHost rest))

/-- The state with a command word put at the head of the command port, so that the very next step executes it. Where the
host has actions scheduled, it first lets the engine run. -/
def State.withFetchWord (s : State) (_nbits w : Nat) : State :=
  (s.setPort (BitVec.ofNat 32 w :: s.port)).setHost (letRunFirst s.host)

end Sys2Proof.Machine
end

