-- ==== Sys2Proof/Safety.lean ====
section
/-! DEFINITION. What a safe state is: the invariant that the rules of the spec keep between commands (spec/10_state.md R23,
R24, R26, R27, R30, R37; spec/00_scope.md R6), and the words claims about the packed code stream use (spec/40_bit_packer.md
R107). Nothing here is part of the machine. -/

namespace Sys2Proof.Machine

/-! ### The invariant -/

/-- The block stands stopped by a sink error, which may have cut a command short (R219). -/
abbrev State.sinkStopped (s : State) : Prop := s.fault = true ∧ s.cause = .sinkError

/-- Every storage space is in canonical form. -/
abbrev State.memWf (s : State) : Prop :=
  s.pal.wf ∧ s.ref.wf ∧ s.lz.dict.wf ∧ lineWf s.dt.e0 ∧ lineWf s.dt.e1

/-- Only entries that exist are listed (R61, R62): slots 2 to 254 of PAL, and REF below `REF_DEPTH`. -/
abbrev State.storageOk (s : State) : Prop :=
  (∀ e ∈ s.pal, 2 ≤ e.1 ∧ e.1 ≤ 254) ∧ (∀ e ∈ s.ref, e.1 < s.cfg.refDepth)

/-- The fault registers (R30): clear while no fault has been taken, and never holding one of the two causes R212 calls
unreachable. -/
abbrev State.faultOk (s : State) : Prop :=
  (s.fault = false → s.cause = .none ∧ s.faultCmd = 0#32) ∧ (s.fault = true → s.cause ≠ .none) ∧
    s.cause ≠ .lzResetWidth ∧ s.cause ≠ .subblockOverrun

/-- Bits of `PK.ACC_BYTE` at positions `PK.BIT_IDX` and above are 0 (R23). -/
abbrev Packer.clean (pk : Packer) : Prop := pk.accByte.toNat < 2 ^ pk.bitIdx.toNat

/-- The packer as it stands between commands (R23, R24). -/
abbrev Packer.ok (pk : Packer) : Prop := pk.clean ∧ pk.buf.length ≤ 254

/-- The packer (R23, R24): `PK.BUF_CNT` is 255 only where a sink error stopped the emit of a full sub-block. -/
abbrev State.packerOk (s : State) : Prop :=
  s.pk.clean ∧ (s.pk.buf.length ≤ 254 ∨ (s.sinkStopped ∧ s.pk.buf.length = 255))

/-- The code width that goes with `LZ.NEXT` (R26). -/
def widthFor (next : Nat) : Nat := if next ≤ 512 then 9 else if next ≤ 1024 then 10 else if next ≤ 2048 then 11 else 12

/-- A code that stands for a sequence (R120): a singleton, or one bound before `next`. -/
abbrev isNode (next c : Nat) : Prop := c < 256 ∨ (258 ≤ c ∧ c < next)

/-- The dictionary (R26): exactly the codes 258 to `LZ.NEXT` - 1 are bound, each once, each under a prefix that is a
singleton or a code bound earlier. -/
abbrev Lzw.dictOk (lz : Lzw) : Prop :=
  lz.dict.length + 258 = lz.next.toNat ∧ (lz.dict.map (fun e => e.2)).Nodup ∧
    ∀ e ∈ lz.dict, 258 ≤ e.2.toNat ∧ e.2.toNat < lz.next.toNat ∧ isNode e.2.toNat (e.1 / 256)

/-- The LZW encoder (R26): the width follows `LZ.NEXT`, `LZ.CUR` is a node, the dictionary is empty at `ROOT`, and
outside a code stream the encoder stands in its initial state. -/
abbrev Lzw.ok (lz : Lzw) : Prop :=
  258 ≤ lz.next.toNat ∧ lz.width.toNat = widthFor lz.next.toNat ∧ lz.dictOk ∧
    (∀ c ∈ lz.cur, isNode lz.next.toNat c.toNat) ∧ (lz.cur = none → lz.dict = []) ∧ (lz.active = false → lz.cur = none)

/-- The LZW encoder between commands: `LZ.NEXT` is below 4096 (R26), or 4096 where a sink error stopped the clear code of
a forced reset (R125, R219; log entry 7). -/
abbrev State.lzOk (s : State) : Prop :=
  s.lz.ok ∧ (s.lz.next.toNat ≤ 4095 ∨ (s.sinkStopped ∧ s.lz.next.toNat = 4096))

/-- A value lies in the signed `ACC_BITS` range (R178). -/
abbrev inRange (lim v : Int) : Prop := -lim ≤ v ∧ v ≤ lim - 1

/-- Every channel does. -/
abbrev Fixed.inRange (lim : Int) (e : Fixed) : Prop :=
  Machine.inRange lim e.r ∧ Machine.inRange lim e.g ∧ Machine.inRange lim e.b

/-- An error line (R27): entries below `MAX_WIDTH`, values in the signed `ACC_BITS` range. -/
abbrev lineOk (p : Params) (line : Memory Fixed) : Prop :=
  ∀ e ∈ line, e.1 < p.maxWidth ∧ e.2.inRange (accLimit p)

/-- A frame in progress (R27, R154, R155): the position lies in it, the error lines hold a row of it, the reference frame
holds all of it where it is used, and the palette is loaded. -/
abbrev State.frameOk (s : State) : Prop :=
  s.dt.x.toNat < s.dt.w.toNat ∧ s.dt.y.toNat < s.dt.h.toNat ∧ s.dt.w.toNat ≤ s.cfg.maxWidth ∧
    ((s.dt.uref = true ∨ s.dt.wref = true) → s.dt.w.toNat * s.dt.h.toNat ≤ s.cfg.refDepth) ∧ palReady s.pal = true

/-- The Ditherer (R27, R37): with no frame in progress the position reads 0. -/
abbrev State.dithererOk (s : State) : Prop :=
  lineOk s.cfg s.dt.e0 ∧ lineOk s.cfg s.dt.e1 ∧ (s.dt.active = true → s.frameOk) ∧
    (s.dt.active = false → s.dt.x = 0#16 ∧ s.dt.y = 0#16)

/-- The invariant of the block between two steps. -/
structure State.Inv (s : State) : Prop where
  legal : s.cfg.Legal
  memory : s.memWf
  storage : s.storageOk
  faultRegs : s.faultOk
  packer : s.packerOk
  lzw : s.lzOk
  ditherer : s.dithererOk
  noSink : s.sink = none

/-- No fault has been taken and no sink-error event reaches the command: what most claims about a command's effect ask
of a state. -/
abbrev State.Quiet (s : State) : Prop := s.fault = false ∧ s.sink = none

/-! ### The packed stream, read as bits -/

/-- The eight bits of a byte, bit 0 first (R69). -/
def byteBits (b : Byte) : List Bool := (List.range 8).map b.getLsbD

/-- The bits of the packer that have not been emitted, the oldest first (R23, R100). -/
def Packer.bits (pk : Packer) : List Bool := pk.buf.flatMap byteBits ++ (byteBits pk.accByte).take pk.bitIdx.toNat

/-- Sub-blocks as they stand on OUT: each a length byte and its data (R64). -/
def onOut (blocks : List (List Byte)) : List Byte := blocks.flatMap (fun d => BitVec.ofNat 8 d.length :: d)

/-- `t` is `s` with some bits appended to the packed stream (R100): the sub-blocks emitted on the way are full ones, and
their data followed by the bits still pending are the bits that were pending followed by the new ones. -/
def Appends (s t : State) (bits : List Bool) : Prop :=
  ∃ blocks : List (List Byte), (∀ d ∈ blocks, d.length = 255) ∧ t.out = s.out ++ onOut blocks ∧
    blocks.flatten.flatMap byteBits ++ t.pk.bits = s.pk.bits ++ bits ∧ t.pk.ok

/-- `t` is `s` with some bits appended, padded with fewer than eight 0 bits to a byte boundary, and every pending byte
emitted (R102, R103): all sub-blocks but the last are full, the last is not empty, and nothing is pending. -/
def Closes (s t : State) (bits : List Bool) : Prop :=
  ∃ (blocks : List (List Byte)) (zeros : Nat), (∀ d ∈ blocks.dropLast, d.length = 255) ∧
    (∀ d ∈ blocks, 1 ≤ d.length ∧ d.length ≤ 255) ∧ t.out = s.out ++ onOut blocks ∧ zeros < 8 ∧
    blocks.flatten.flatMap byteBits = s.pk.bits ++ bits ++ List.replicate zeros false ∧
    t.pk = { accByte := 0#8, bitIdx := 0#3, buf := [] }

/-- How many elements the three streams hold. -/
def streamed (s : State) : Nat := s.out.length + s.pix.length + s.rsp.length

/-- `t` is `s` stopped while the bits were being appended, at the emit of a full sub-block (R100, R219): OUT has gained the
full sub-blocks before it and its first `j` elements, not all of them; its 255 bytes are still in the buffer (R24); and no
bit after them has been taken. -/
def StoppedEmitting (s t : State) (bits : List Bool) : Prop :=
  ∃ (before : List (List Byte)) (d : List Byte) (j : Nat), (∀ b ∈ before, b.length = 255) ∧ d.length = 255 ∧ j ≤ 255 ∧
    t.out = s.out ++ onOut before ++ (BitVec.ofNat 8 d.length :: d).take j ∧
    t.pk = { accByte := 0#8, bitIdx := 0#3, buf := d } ∧
    (before.flatten ++ d).flatMap byteBits <+: s.pk.bits ++ bits

/-- `t` is `s` stopped after the bits were appended, at the emit of the last sub-block (R103, R219), whose fewer than 255
bytes are still in the buffer. -/
def StoppedFlushing (s t : State) (bits : List Bool) : Prop :=
  ∃ (before : List (List Byte)) (d : List Byte) (j : Nat), (∀ b ∈ before, b.length = 255) ∧ d.length ≤ 254 ∧ j ≤ d.length ∧
    t.out = s.out ++ onOut before ++ (BitVec.ofNat 8 d.length :: d).take j ∧
    t.pk = { accByte := 0#8, bitIdx := 0#3, buf := d } ∧
    (before.flatten ++ d).flatMap byteBits = s.pk.bits ++ bits

end Sys2Proof.Machine
end

