-- ==== Sys2Proof/Certificates/Slice0/Obligations.lean ====
section
/-! DEFINITION. The statements made of this model, each from the numbered rules its docstring names. What the rules leave to
the model is said where a statement rests on it. -/

open Sys2Proof Sys2Proof.Machine

namespace Sys2Proof.Claims

/-! ### Words the statements use -/

/-- What RSP gains when a command faults (R214, R220): one 0 for `REG_READ`, nothing otherwise. -/
def faultAnswer : Instr → List Word
  | .regRead _ => [0#32]
  | _ => []

/-- The causes each command can record (R213), those R213 calls unreachable included, and `SINK_ERROR` for the commands
that append to a stream. -/
def causesOf : Instr → List Cause
  | .pkWrite _ _ => [.pkWidth, .pkBusy, .subblockOverrun, .sinkError]
  | .pkPad => [.pkBusy, .subblockOverrun, .sinkError]
  | .pkFlush => [.pkBusy, .pkFlushPartial, .sinkError]
  | .lzStart => [.lzSeq, .subblockOverrun, .sinkError]
  | .lzSym _ => [.lzSeq, .lzResetWidth, .subblockOverrun, .sinkError]
  | .lzEnd => [.lzSeq, .lzEmpty, .subblockOverrun, .sinkError]
  | .dtBegin _ _ _ => [.dtSeq, .dtGeometry, .dtPalUninit]
  | .dtPixel _ _ _ => [.dtSeq, .dtChainNoLz, .dtRefUninit, .dtRange, .lzResetWidth, .subblockOverrun, .sinkError]
  | .palWrite _ _ _ => [.dtBusyConfig]
  | .regWrite _ _ => [.badReg, .regValue, .dtBusyConfig]
  | .regRead _ => [.badReg, .sinkError]
  | .refWrite _ _ _ => [.dtBusyConfig, .refRange]
  | .nop => []
  | .reset _ => []

/-- The cause codes of R212, as its table numbers them. -/
def causeTable : List (Cause × Nat) :=
  [(.none, 0), (.illegalOpcode, 1), (.reservedBits, 2), (.badReg, 3), (.regValue, 4), (.pkWidth, 5), (.pkBusy, 6),
    (.pkFlushPartial, 7), (.lzSeq, 8), (.lzEmpty, 9), (.lzResetWidth, 10)] ++
  [(.subblockOverrun, 11), (.dtSeq, 12), (.dtGeometry, 13), (.dtPalUninit, 14), (.dtRefUninit, 15), (.dtRange, 16),
    (.dtBusyConfig, 17), (.dtChainNoLz, 18), (.refRange, 19), (.sinkError, 20)]

/-- Everything the table of R43 says a state holds after reset, but for the contents R43 leaves unspecified. -/
def AtResetTable (t : State) : Prop :=
  t.fault = false ∧ t.cause = .none ∧ t.faultCmd = 0#32 ∧
  t.pk.accByte = 0#8 ∧ t.pk.bitIdx = 0#3 ∧ t.pk.buf = [] ∧
  t.lz.active = false ∧ (∀ key, t.lz.dict.get? key = none) ∧ t.lz.cur = none ∧ t.lz.width = 9#4 ∧ t.lz.next = 258#13 ∧
  t.dt.active = false ∧ t.dt.chain = false ∧ t.dt.uref = false ∧ t.dt.wref = false ∧
  t.dt.w = 0#16 ∧ t.dt.h = 0#16 ∧ t.dt.x = 0#16 ∧ t.dt.y = 0#16 ∧
  t.dtWidth = 0#16 ∧ t.dtHeight = 0#16 ∧
  palRead t.pal 0 = ⟨0#8, 0#8, 0#8⟩ ∧ palRead t.pal 1 = ⟨0#8, 0#8, 0#8⟩ ∧ palRead t.pal 255 = ⟨255#8, 255#8, 255#8⟩ ∧
  (∀ i, i ≤ 255 → (palValid t.pal i = true ↔ i = 0 ∨ i = 1 ∨ i = 255)) ∧ t.palPtr = 0#8 ∧
  (∀ a, t.ref.get? a = none) ∧ t.refPtr = 0#24 ∧
  t.out = [] ∧ t.pix = [] ∧ t.rsp = []

/-- A run of `write_code`s (R107). -/
def writeCodes : List (BitVec 16 × Nat) → State → Flow
  | [], s => .go s
  | c :: cs, s => (writeCode c.1 c.2 s).andThen (writeCodes cs)

/-- Read codes of the given widths, bit 0 of each first (R107). -/
def readCodes : List Nat → List Bool → List Nat
  | [], _ => []
  | n :: ns, bits => (bits.take n).foldr (fun b v => 2 * v + b.toNat) 0 :: readCodes ns (bits.drop n)

/-- The pixel R160 computes for an accumulated value: the skipped one (R170) or the searched one (R171 to R175). -/
def pixelFor (acc : Fixed) (s : State) : Option Pixel :=
  if skipTaken acc s then some { idx := 1#8, colour := acc.toRgb, e0 := s.dt.e0, e1 := s.dt.e1 } else searchedPixel acc s

/-- The sum of two errors, channel by channel. -/
def plus (a b : Fixed) : Fixed := { r := a.r + b.r, g := a.g + b.g, b := a.b + b.b }

/-- The `k`/16 share of an error (R176): multiplied first, then truncated toward zero. -/
def shareOf (e : Fixed) (k : Int) : Fixed :=
  { r := (e.r * k).tdiv 16, g := (e.g * k).tdiv 16, b := (e.b * k).tdiv 16 }

/-- An error share where a condition holds, nothing otherwise. -/
def shareIf (c : Prop) [Decidable c] (e : Fixed) (k : Int) : Fixed := if c then shareOf e k else Fixed.zero

/-- Where a neighbour is in the frame, the product of R176 and the new entry of R174 are both in the signed range, channel by
channel (R178). -/
def ShareFits (c : Prop) (lim : Int) (old err : Fixed) (k : Int) : Prop :=
  c → Fixed.inRange lim ⟨err.r * k, err.g * k, err.b * k⟩ ∧ (plus old (shareOf err k)).inRange lim

/-- The source's scratch buffer of R184, as the errors it holds for each pixel (column, row) beyond the shifted input:
what it holds after the error of pixel (`x`, `y`) of a `w` by `h` frame has been diffused into it (R174, R175). -/
def scratchDiffuse (err : Fixed) (x y w h : Nat) (buf : Nat → Nat → Fixed) : Nat → Nat → Fixed := fun x' y' =>
  plus (buf x' y')
    (plus (plus (shareIf (x' = x + 1 ∧ y' = y ∧ x + 1 < w) err 7) (shareIf (x' + 1 = x ∧ y' = y + 1 ∧ y + 1 < h) err 3))
      (plus (shareIf (x' = x ∧ y' = y + 1 ∧ y + 1 < h) err 5)
        (shareIf (x' = x + 1 ∧ y' = y + 1 ∧ y + 1 < h ∧ x + 1 < w) err 1)))

/-- The error lines hold what the scratch buffer holds for every pixel still to come (R184). -/
def HoldsScratch (dt : Ditherer) (buf : Nat → Nat → Fixed) : Prop :=
  (∀ x', dt.x.toNat ≤ x' → x' < dt.w.toNat → lineGet dt.e0 x' = buf x' dt.y.toNat) ∧
    (∀ x', x' < dt.w.toNat → lineGet dt.e1 x' = buf x' (dt.y.toNat + 1)) ∧
    ∀ x' y', dt.y.toNat + 1 < y' → buf x' y' = Fixed.zero

/-- The codes `LZ_END` writes (R128): the pending one and the clear code at the current width, and 257 at 9 bits. -/
def endBits (p : BitVec 12) (width : Nat) : List Bool :=
  (List.range width).map p.getLsbD ++ (List.range width).map (256#16 : BitVec 16).getLsbD ++
    (List.range 9).map (257#16 : BitVec 16).getLsbD

/-- What `lz_sym` of a symbol has done where the event stops it (R124, R125, R219). Stopped in the code it writes, the encoder
is as before; stopped in the clear code of a forced reset, the pair is bound and the reset is still to come. The first is
the case where the sub-block, at bit 2040, is filled by the code. (That `LZ.NEXT` stands at 4096 in the second is the model's
reading of R219 against R38, log entry 7.) -/
def StoppedInSymbol (sym : Byte) (s t : State) : Prop :=
  ∃ p, s.lz.cur = some p ∧
    ((2040 ≤ s.pk.bits.length + s.lz.width.toNat ∧ t.lz = s.lz ∧
        StoppedEmitting s t ((List.range s.lz.width.toNat).map p.getLsbD)) ∨
      (s.pk.bits.length + s.lz.width.toNat < 2040 ∧ s.lz.next = 4095#13 ∧ s.lz.width = 12#4 ∧
        StoppedEmitting s t ((List.range 12).map p.getLsbD ++ (List.range 12).map (256#12 : BitVec 12).getLsbD) ∧
        t.lz.active = s.lz.active ∧ t.lz.cur = s.lz.cur ∧ t.lz.width = 12#4 ∧ t.lz.next = 4096#13 ∧
        ∀ key, t.lz.dict.get? key =
          if key = 256 * p.toNat + sym.toNat then some 4095#12 else s.lz.dict.get? key))

/-- The effects a command has made where the event after `k` of its append points stops it, and that it has made no later
one (R219). The commands that append nothing are never stopped. -/
def KeptAtStop (i : Instr) (k : Nat) (s t : State) : Prop :=
  match i with
  | .pkWrite n v => StoppedEmitting s t ((List.range n.toNat).map v.getLsbD)
  | .pkPad => StoppedEmitting s t (List.replicate (8 - s.pk.bitIdx.toNat) false)
  | .pkFlush => t.pk = s.pk ∧ t.out = s.out ++ (BitVec.ofNat 8 s.pk.buf.length :: s.pk.buf).take k
  | .lzStart =>
    t.lz = { active := true, dict := [], cur := none, width := 9#4, next := 258#13 } ∧
      StoppedEmitting s t [false, false, false, false, false, false, false, false, true]
  | .lzSym sym => StoppedInSymbol sym s t
  | .lzEnd =>
    t.lz = s.lz ∧ ∃ p zeros, s.lz.cur = some p ∧ zeros < 8 ∧
      (StoppedEmitting s t (endBits p s.lz.width.toNat ++ List.replicate zeros false) ∨
        StoppedFlushing s t (endBits p s.lz.width.toNat ++ List.replicate zeros false))
  | .dtPixel r g b =>
    t.pix = s.pix ∧ ∃ acc p, accumulate (accLimit s.cfg) ⟨r, g, b⟩ (lineGet s.dt.e0 s.dt.x.toNat) = some acc ∧
      pixelFor acc s = some p ∧
      ((s.dt.chain = true ∧ StoppedInSymbol p.idx s t ∧ t.dt = s.dt ∧ t.ref = s.ref) ∨
        (t.dt = { s.dt with e0 := p.e0, e1 := p.e1 } ∧
          (∀ a, t.ref.get? a =
            if s.dt.wref = true ∧ a = s.dt.y.toNat * s.dt.w.toNat + s.dt.x.toNat then some p.colour else s.ref.get? a) ∧
          (s.dt.chain = false → t.lz = s.lz ∧ t.pk = s.pk ∧ t.out = s.out) ∧
          (s.dt.chain = true → ∃ v, exec (.lzSym p.idx) s = .next v ∧ v.fault = false ∧
            t.lz = v.lz ∧ t.pk = v.pk ∧ t.out = v.out)))
  | .regRead _ => t.rsp = s.rsp
  | .dtBegin _ _ _ => False
  | .palWrite _ _ _ => False
  | .regWrite _ _ => False
  | .refWrite _ _ _ => False
  | .nop => False
  | .reset _ => False

end Sys2Proof.Claims

open Sys2Proof.Claims

/-! ### Encoding (spec/30_encoding.md) -/

/-- R80 to R89: decoding the word of a command gives the command back, with every operand at every value its field
admits. -/
def Obligations.DecodeOfEncodeIsTheCommand : Prop := ∀ i : Instr, decodeWord (encode i) = .instr i

/-- R80 to R89: a word that decodes to a command is that command's word, so that no bit of it is dropped and `FAULT_CMD`
can be given from the command. -/
def Obligations.EncodeOfDecodeIsTheWord : Prop := ∀ (w : Word) (i : Instr), decodeWord w = .instr i → encode i = w

/-- R82 to R88, R90, R91: the words that are no command, by the reserved bits of each format. -/
def Obligations.RejectedWordsAreTheReservedOnes : Prop := ∀ w : Word,
  (decodeWord w = .illegalOpcode ↔ opField w = 0x0#4 ∨ opField w = 0xD#4) ∧
  (decodeWord w = .reservedBits ↔
    (opField w = 0x1#4 ∧ w.extractLsb' 21 7 ≠ 0#7) ∨
    ((opField w = 0x2#4 ∨ opField w = 0x3#4 ∨ opField w = 0x4#4 ∨ opField w = 0x6#4 ∨ opField w = 0xE#4) ∧
      w.extractLsb' 0 28 ≠ 0#28) ∨
    (opField w = 0x5#4 ∧ w.extractLsb' 8 20 ≠ 0#20) ∨
    (opField w = 0x7#4 ∧ w.extractLsb' 3 25 ≠ 0#25) ∨
    ((opField w = 0x8#4 ∨ opField w = 0x9#4 ∨ opField w = 0xC#4) ∧ w.extractLsb' 24 4 ≠ 0#4) ∨
    (opField w = 0xB#4 ∧ w.extractLsb' 0 24 ≠ 0#24))

/-- R93: a few words of the spec's own assembly table and vectors decode to the commands they stand for. -/
def Obligations.SampleWordsDecode : Prop :=
  decodeWord 0x1010ABCD#32 = .instr (.pkWrite 16#5 0xABCD#16) ∧ decodeWord 0x500000FF#32 = .instr (.lzSym 255#8) ∧
  decodeWord 0x70000006#32 = .instr (.dtBegin true true false) ∧
  decodeWord 0x801EC85A#32 = .instr (.dtPixel 30#8 200#8 90#8) ∧
  decodeWord 0xA5000100#32 = .instr (.regWrite 5#4 256#24) ∧ decodeWord 0xB8000000#32 = .instr (.regRead 8#4) ∧
  decodeWord 0xD1234567#32 = .illegalOpcode ∧ decodeWord 0x10230005#32 = .reservedBits

/-! ### Steps and words (R65, R90, R214 to R218) -/

/-- R64, R65: a step takes the word at the head of the command port and runs the command it decodes to, or decides it as a
word that is no command; the point after the command (R219) is passed in the same step. A schedule that lets the engine run
may bring a sink-error event with it. The host's actions: a written word goes behind the words waiting, and elements are
taken from the front of a stream. -/
def Obligations.StepExecutesTheNextWord : Prop := ∀ s : State,
  (∀ w ws, s.port = w :: ws →
    (s.host = [] →
      step s = settle (runWord w ((s.setPort ws).setSink none)) ∧
      ∀ i, decodeWord w = .instr i → step s = settle (exec i ((s.setPort ws).setSink none))) ∧
    (∀ sinkAfter rest, s.host = .letRun sinkAfter :: rest →
      step s = settle (runWord w (((s.setHost rest).setPort ws).setSink sinkAfter)) ∧
      ∀ i, decodeWord w = .instr i →
        step s = settle (exec i (((s.setHost rest).setPort ws).setSink sinkAfter)))) ∧
  (∀ w rest, s.host = .write w :: rest → step s = .next { s with host := rest, port := s.port ++ [w] }) ∧
  (∀ n rest, s.host = .takeOut n :: rest →
    ∃ t, step s = .next t ∧ s.out = s.out.take n ++ t.out ∧ t.taken.out = s.taken.out ++ s.out.take n ∧
      t = { s with host := rest, out := t.out, taken := { s.taken with out := t.taken.out } }) ∧
  (∀ n rest, s.host = .takePix n :: rest →
    ∃ t, step s = .next t ∧ s.pix = s.pix.take n ++ t.pix ∧ t.taken.pix = s.taken.pix ++ s.pix.take n ∧
      t = { s with host := rest, pix := t.pix, taken := { s.taken with pix := t.taken.pix } }) ∧
  (∀ n rest, s.host = .takeRsp n :: rest →
    ∃ t, step s = .next t ∧ s.rsp = s.rsp.take n ++ t.rsp ∧ t.taken.rsp = s.taken.rsp ++ s.rsp.take n ∧
      t = { s with host := rest, rsp := t.rsp, taken := { s.taken with rsp := t.taken.rsp } })

/-- R225, R14: with the command port empty, and nothing scheduled by the host, the block keeps all its state. When the host
has then taken every element of the streams, and only then, the run has a result: the three streams as they were taken, the
final value of every register, and the contents of PAL and REF. -/
def Obligations.IdleBlockKeepsItsState : Prop := ∀ s : State,
  (s.host = [] → s.port = [] → s.sink = none →
    step s = .next s ∧ (s.out = [] → s.pix = [] → s.rsp = [] → ∃ r, s.result = some r)) ∧
  ∀ r, s.result = some r →
    step s = .next s ∧ s.port = [] ∧ s.host = [] ∧ s.out = [] ∧ s.pix = [] ∧ s.rsp = [] ∧
    r.out = s.taken.out ∧ r.pix = s.taken.pix ∧ r.rsp = s.taken.rsp ∧
    r.registers.length = 13 ∧ (∀ n, n ≤ 12 → r.registers[n]? = regValue (BitVec.ofNat 4 n) s) ∧
    r.pal.length = 256 ∧
    (∀ i, i ≤ 255 → r.pal[i]? = some (if palValid s.pal i = true then some (palRead s.pal i) else none)) ∧
    ∀ a, r.ref.get? a = s.ref.get? a

/-- R90, R216, R218: what is decided of a word, and in what order. -/
def Obligations.WordIsDecidedInPriorityOrder : Prop := ∀ (w : Word) (s : State),
  (opField w = 0xF#4 → runWord w s = .next (resetBlock s)) ∧
  (opField w ≠ 0xF#4 → s.fault = true →
    (opField w = 0xB#4 → runWord w s = .next (s.addRsp ((regValue (w.extractLsb' 24 4) s).getD 0#32))) ∧
    (opField w ≠ 0xB#4 → runWord w s = .next s)) ∧
  (s.fault = false → (opField w = 0x0#4 ∨ opField w = 0xD#4) → runWord w s = .next (takeFault .illegalOpcode w s)) ∧
  (s.fault = false → opField w ≠ 0x0#4 → opField w ≠ 0xD#4 → w &&& reservedMask (opField w) ≠ 0#32 →
    runWord w s = .next (takeFault .reservedBits w s)) ∧
  (s.fault = false → opField w ≠ 0x0#4 → opField w ≠ 0xD#4 → w &&& reservedMask (opField w) = 0#32 →
    ∃ i, encode i = w ∧ runWord w s = exec i s)

/-- R214: a fault raised by a command, or by a word that is no command, is precise. It leaves everything as it was but
`FAULT`, `CAUSE`, `FAULT_CMD`, which holds the word, and the 0 a `REG_READ` answers. -/
def Obligations.FaultEntryIsPrecise : Prop :=
  (∀ (i : Instr) (s t : State), s.fault = false → exec i s = .next t → t.fault = true → t.cause ≠ .sinkError →
    t.cause ≠ .none ∧
    t = { s with fault := true, cause := t.cause, faultCmd := encode i, rsp := s.rsp ++ faultAnswer i }) ∧
  ∀ (w : Word) (s : State), s.fault = false →
    (decodeWord w = .illegalOpcode →
      runWord w s = .next { s with fault := true, cause := .illegalOpcode, faultCmd := w }) ∧
    (decodeWord w = .reservedBits →
      runWord w s = .next { s with
        fault := true, cause := .reservedBits, faultCmd := w
        rsp := s.rsp ++ (if opField w = 0xB#4 then [0#32] else []) })

/-- R213: a command records no cause but its own. -/
def Obligations.CommandsRaiseOnlyTheirCauses : Prop := ∀ (i : Instr) (s t : State),
  s.fault = false → exec i s = .next t → t.fault = true → t.cause ∈ causesOf i

/-- R216: while faulted every command is discarded, but that `REG_READ` answers (0 for a reserved number) without a new
fault, and `RESET` resets. -/
def Obligations.FaultedBlockServesOnlyReads : Prop := ∀ (i : Instr) (s : State), s.fault = true →
  match i with
  | .reset _ => exec i s = .next (resetBlock s)
  | .regRead reg => exec i s = .next (s.addRsp ((regValue reg s).getD 0#32))
  | _ => exec i s = .next s

/-- R216, R217: a step from a faulted state leaves `FAULT`, `CAUSE` and `FAULT_CMD` as they are, unless it is the hardware
reset input's or takes a `RESET` word. -/
def Obligations.OnlyResetLeavesAFault : Prop := ∀ s t : State, s.fault = true → step s = .next t →
  (t.fault = true ∧ t.cause = s.cause ∧ t.faultCmd = s.faultCmd) ∨
  (∃ rest, s.host = .resetInput :: rest ∧ t = resetByInput (s.setHost rest)) ∨
  (∃ w ws, s.port = w :: ws ∧ opField w = 0xF#4 ∧ (s.host = [] ∨ ∃ k rest, s.host = .letRun k :: rest))

/-! ### The register file (R31 to R41, R190, R191) -/

/-- R190, R220: a `REG_READ` appends exactly one word to RSP and changes nothing else, unless it faults; a reserved number
faults `BAD_REG` and answers 0, and so does a word with reserved bits set, with `RESERVED_BITS`; while faulted neither is
checked; the sink-error event at its own append point leaves no answer. (That the event does not stop the 0 of a faulting
`REG_READ` is the model's reading, log entry 8.) -/
def Obligations.RegReadAnswersOneWord : Prop := ∀ (reg : BitVec 4) (s : State),
  (s.fault = true → exec (.regRead reg) s = .next { s with rsp := s.rsp ++ [(regValue reg s).getD 0#32] }) ∧
  (s.fault = false → 13 ≤ reg.toNat →
    exec (.regRead reg) s =
      .next { s with fault := true, cause := .badReg, faultCmd := encode (.regRead reg), rsp := s.rsp ++ [0#32] }) ∧
  (s.fault = false → reg.toNat ≤ 12 → s.sink = none →
    ∃ v, regValue reg s = some v ∧ exec (.regRead reg) s = .next { s with rsp := s.rsp ++ [v] }) ∧
  (s.fault = false → reg.toNat ≤ 12 → s.sink = some 0 →
    exec (.regRead reg) s =
      .next { s with fault := true, cause := .sinkError, faultCmd := encode (.regRead reg), sink := none }) ∧
  ∀ w : Word, opField w = 0xB#4 → w.extractLsb' 0 24 ≠ 0#24 →
    (s.fault = false →
      runWord w s =
        .next { s with fault := true, cause := .reservedBits, faultCmd := w, rsp := s.rsp ++ [0#32] }) ∧
    (s.fault = true →
      runWord w s = .next { s with rsp := s.rsp ++ [(regValue (w.extractLsb' 24 4) s).getD 0#32] })

/-- R32, R67, R212, R215: the bits of `STATUS`, its cause field holding the number R212 gives the recorded cause; that it
reads 0 after reset; that it is read-only: a `REG_WRITE` of it faults; and that the `fault` output equals its bit 0. -/
def Obligations.StatusRegisterLayout : Prop := ∀ s : State,
  (∃ v, regValue 1#4 s = some v ∧
    v.getLsbD 0 = s.fault ∧ v.getLsbD 1 = s.lz.active ∧ v.getLsbD 2 = s.dt.active ∧ v.getLsbD 3 = s.dt.chain ∧
    v.getLsbD 4 = s.dt.uref ∧ v.getLsbD 5 = s.dt.wref ∧ v.extractLsb' 6 2 = 0#2 ∧
    (s.cause, (v.extractLsb' 8 8).toNat) ∈ causeTable ∧ v.extractLsb' 16 16 = 0#16 ∧ faultOutput s = v.getLsbD 0) ∧
  regValue 1#4 (State.resetWith s.cfg) = some 0#32 ∧
  ∀ val, s.fault = false → exec (.regWrite 1#4 val) s = .next (s.setFault .badReg (encode (.regWrite 1#4 val)))

/-- R37, R38, R39: the bits of `DT_POS`, `LZ_STATE` and `PK_STATE`. -/
def Obligations.UnitRegisterLayouts : Prop := ∀ s : State, ∃ p l k,
  regValue 7#4 s = some p ∧ regValue 8#4 s = some l ∧ regValue 9#4 s = some k ∧
  p.extractLsb' 0 16 = s.dt.x ∧ p.extractLsb' 16 16 = s.dt.y ∧
  (s.lz.next.toNat ≤ 4095 → (l.extractLsb' 0 12).toNat = s.lz.next.toNat) ∧ l.extractLsb' 12 4 = s.lz.width ∧
  (∀ c, s.lz.cur = some c → l.extractLsb' 16 12 = c ∧ l.getLsbD 28 = false) ∧
  (s.lz.cur = none → l.extractLsb' 16 12 = 0#12 ∧ l.getLsbD 28 = true) ∧ l.extractLsb' 29 3 = 0#3 ∧
  k.extractLsb' 0 3 = s.pk.bitIdx ∧ k.extractLsb' 3 5 = 0#5 ∧ k.extractLsb' 8 8 = s.pk.accByte ∧
  (s.pk.buf.length ≤ 255 → (k.extractLsb' 16 8).toNat = s.pk.buf.length) ∧ k.extractLsb' 24 8 = 0#8

/-- R31, R33 to R36, R40, R41: the other registers read as numbers, bits above a register's width reading 0. -/
def Obligations.PlainRegisterValues : Prop := ∀ s : State, s.cfg.Legal →
  regValue 0#4 s = some 0x47494648#32 ∧ regValue 2#4 s = some s.faultCmd ∧
  (∃ v, regValue 3#4 s = some v ∧ v.toNat = s.dtWidth.toNat) ∧ (∃ v, regValue 4#4 s = some v ∧ v.toNat = s.dtHeight.toNat) ∧
  (∃ v, regValue 5#4 s = some v ∧ v.toNat = s.palPtr.toNat) ∧ (∃ v, regValue 6#4 s = some v ∧ v.toNat = s.refPtr.toNat) ∧
  (∃ v, regValue 10#4 s = some v ∧ v.toNat = s.cfg.maxWidth) ∧
  (∃ v, regValue 11#4 s = some v ∧ v.toNat = s.cfg.refDepth) ∧
  (∃ v, regValue 12#4 s = some v ∧ v.toNat = s.cfg.accBits) ∧
  regValue 13#4 s = none ∧ regValue 14#4 s = none ∧ regValue 15#4 s = none

/-- R191: outside a frame a `REG_WRITE` of a value that fits sets the register it names, which then reads as the value, and
no other. -/
def Obligations.RegWriteSetsOneRegister : Prop := ∀ (reg : BitVec 4) (val : BitVec 24) (width : Nat) (s : State),
  s.fault = false → s.dt.active = false →
  (reg = 3#4 ∧ width = 16 ∨ reg = 4#4 ∧ width = 16 ∨ reg = 5#4 ∧ width = 8 ∨ reg = 6#4 ∧ width = 24) →
  val.toNat < 2 ^ width →
    ∃ t, exec (.regWrite reg val) s = .next t ∧ (∃ v, regValue reg t = some v ∧ v.toNat = val.toNat) ∧
      (∀ other, other ≠ reg → regValue other t = regValue other s) ∧
      t = { s with dtWidth := t.dtWidth, dtHeight := t.dtHeight, palPtr := t.palPtr, refPtr := t.refPtr }

/-- R191, R41: a `REG_WRITE` of a read-only or reserved number faults `BAD_REG`, and one of a value wider than its register
faults `REG_VALUE`, a frame being in progress or not. -/
def Obligations.RegWriteFaultsBeforeTheBusyCheck : Prop := ∀ (reg : BitVec 4) (val : BitVec 24) (s : State), s.fault = false →
  (reg ≠ 3#4 → reg ≠ 4#4 → reg ≠ 5#4 → reg ≠ 6#4 →
    exec (.regWrite reg val) s = .next (s.setFault .badReg (encode (.regWrite reg val)))) ∧
  ((reg = 3#4 ∨ reg = 4#4) → 2 ^ 16 ≤ val.toNat →
    exec (.regWrite reg val) s = .next (s.setFault .regValue (encode (.regWrite reg val)))) ∧
  (reg = 5#4 → 2 ^ 8 ≤ val.toNat →
    exec (.regWrite reg val) s = .next (s.setFault .regValue (encode (.regWrite reg val))))

/-! ### NOP and reset (R192, R193, R240 to R243) -/

/-- R192: `NOP`, the word 0xE0000000, changes no state and appends nothing, also while faulted; with any other bit set
its word faults `RESERVED_BITS`. -/
def Obligations.NopChangesNothing : Prop := ∀ s : State,
  exec .nop s = .next s ∧ runWord 0xE0000000#32 s = .next s ∧
  ∀ w : Word, opField w = 0xE#4 → w ≠ 0xE0000000#32 →
    (s.fault = false → runWord w s = .next (s.setFault .reservedBits w)) ∧ (s.fault = true → runWord w s = .next s)

/-- R193, R240, R43: `RESET`, with any payload and also while faulted, puts every element at its reset value and discards
every stream; the parameters stay, what the host has taken stays its own (R243), and so do the words still waiting at the
command port (that the waiting words and the host's own schedule stay is the model's reading, log entry 9). -/
def Obligations.ResetGivesTheResetTable : Prop := ∀ (payload : BitVec 28) (s : State),
  ∃ t, exec (.reset payload) s = .next t ∧ AtResetTable t ∧ t.cfg = s.cfg ∧ t.taken = s.taken ∧ t.port = s.port ∧ t.host = s.host

/-- R241: the state right after reset holds the table of R43 and its registers read as R241 says, for every legal
instance; `State.reset` is such a state (its parameters are the spec's examples, log entry 1). -/
def Obligations.ResetRegistersRead : Prop :=
  (∀ p : Params, p.Legal →
    AtResetTable (State.resetWith p) ∧ regValue 0#4 (State.resetWith p) = some 0x47494648#32 ∧
    regValue 1#4 (State.resetWith p) = some 0#32 ∧ regValue 2#4 (State.resetWith p) = some 0#32 ∧
    regValue 3#4 (State.resetWith p) = some 0#32 ∧ regValue 4#4 (State.resetWith p) = some 0#32 ∧
    regValue 5#4 (State.resetWith p) = some 0#32 ∧ regValue 6#4 (State.resetWith p) = some 0#32 ∧
    regValue 7#4 (State.resetWith p) = some 0#32 ∧ regValue 8#4 (State.resetWith p) = some 0x10009102#32 ∧
    regValue 9#4 (State.resetWith p) = some 0#32 ∧
    (∃ v, regValue 10#4 (State.resetWith p) = some v ∧ v.toNat = p.maxWidth) ∧
    (∃ v, regValue 11#4 (State.resetWith p) = some v ∧ v.toNat = p.refDepth) ∧
    ∃ v, regValue 12#4 (State.resetWith p) = some v ∧ v.toNat = p.accBits) ∧
  ∃ p : Params, p.Legal ∧ State.reset = State.resetWith p

/-- R240, R243: the hardware reset input resets at any point between commands and discards the words written but not yet
taken; what the host has taken stays its own. -/
def Obligations.ResetInputDiscardsThePort : Prop := ∀ (s : State) (rest : List HostAction),
  s.host = .resetInput :: rest →
    ∃ t, step s = .next t ∧ AtResetTable t ∧ t.cfg = s.cfg ∧ t.taken = s.taken ∧ t.port = [] ∧ t.host = rest

/-! ### The Bit Packer (spec/40_bit_packer.md) -/

/-- R100, R101, R104: outside a code stream `PK_WRITE n, v` with `n` up to 16 appends the `n` low bits of `v`, bit 0
first, and changes nothing but the packer and OUT. -/
def Obligations.PkWriteAppendsLowBits : Prop := ∀ (n : BitVec 5) (v : BitVec 16) (s : State),
  s.Quiet → s.lz.active = false → s.pk.ok → n.toNat ≤ 16 →
    ∃ t, exec (.pkWrite n v) s = .next t ∧ Appends s t ((List.range n.toNat).map v.getLsbD) ∧
      t = { s with pk := t.pk, out := t.out }

/-- R102, R105: `PK_PAD` appends the 0 bits that reach the next byte boundary: none where the packer stands at one, and
8 - `PK.BIT_IDX` otherwise. -/
def Obligations.PkPadReachesAByteBoundary : Prop := ∀ s : State,
  s.Quiet → s.lz.active = false → s.pk.ok →
    ∃ t, exec .pkPad s = .next t ∧
      Appends s t (List.replicate (if s.pk.bitIdx = 0#3 then 0 else 8 - s.pk.bitIdx.toNat) false) ∧
      t.pk.bitIdx = 0#3 ∧ t.pk.accByte = 0#8 ∧ t = { s with pk := t.pk, out := t.out }

/-- R103, R106: at a byte boundary `PK_FLUSH` emits the completed bytes as one sub-block, or nothing where there are
none. -/
def Obligations.PkFlushEmitsThePendingBytes : Prop := ∀ s : State,
  s.Quiet → s.lz.active = false → s.pk.ok → s.pk.bitIdx = 0#3 →
    exec .pkFlush s =
      .next { s with
        pk := { s.pk with buf := [] }
        out := s.out ++ (if s.pk.buf = [] then [] else BitVec.ofNat 8 s.pk.buf.length :: s.pk.buf) }

/-- R104 to R106: what the packer's commands fault on, and in what order. -/
def Obligations.PackerCommandsFault : Prop := ∀ (n : BitVec 5) (v : BitVec 16) (s : State), s.fault = false →
  (16 < n.toNat → exec (.pkWrite n v) s = .next (s.setFault .pkWidth (encode (.pkWrite n v)))) ∧
  (n.toNat ≤ 16 → s.lz.active = true → exec (.pkWrite n v) s = .next (s.setFault .pkBusy (encode (.pkWrite n v)))) ∧
  (s.lz.active = true → exec .pkPad s = .next (s.setFault .pkBusy 0x20000000#32)) ∧
  (s.lz.active = true → exec .pkFlush s = .next (s.setFault .pkBusy 0x30000000#32)) ∧
  (s.lz.active = false → s.pk.bitIdx ≠ 0#3 → exec .pkFlush s = .next (s.setFault .pkFlushPartial 0x30000000#32))

/-- R107: the round trip of the packer. From an empty packer, any codes of widths up to 16, then a pad and a flush, put
whole sub-blocks on OUT; their data has one byte for every eight bits or part of them, and read LSB first in the same
widths it gives every code back. -/
def Obligations.PackerRoundTrip : Prop := ∀ (codes : List (BitVec 16 × Nat)) (s : State),
  s.Quiet → s.pk.clean → s.pk.bitIdx = 0#3 → s.pk.buf = [] → (∀ c ∈ codes, c.2 ≤ 16) →
    ∃ t blocks, (((writeCodes codes s).andThen pad).andThen flush) = .go t ∧ t.out = s.out ++ onOut blocks ∧
      (∀ d ∈ blocks.dropLast, d.length = 255) ∧ (∀ d ∈ blocks, 1 ≤ d.length ∧ d.length ≤ 255) ∧
      blocks.flatten.length = ((codes.map (fun c => c.2)).sum + 7) / 8 ∧
      readCodes (codes.map (fun c => c.2)) (blocks.flatten.flatMap byteBits) =
        codes.map (fun c => c.1.toNat % 2 ^ c.2)

/-! ### The LZW encoder (spec/41_lzw_encoder.md) -/

/-- R121, R126: `LZ_START` opens a code stream in the initial 258-code state and writes the clear code at 9 bits. -/
def Obligations.LzStartOpensAStream : Prop := ∀ s : State,
  s.Quiet → s.lz.active = false → s.pk.ok →
    ∃ t, exec .lzStart s = .next t ∧
      t.lz = { active := true, dict := [], cur := none, width := 9#4, next := 258#13 } ∧
      Appends s t [false, false, false, false, false, false, false, false, true] ∧
      t = { s with lz := t.lz, pk := t.pk, out := t.out }

/-- R122, R124: at the root, and where the dictionary holds the pair, `LZ_SYM` descends and writes nothing. -/
def Obligations.LzSymDescendsWithoutOutput : Prop := ∀ (sym : Byte) (s : State),
  s.fault = false → s.lz.active = true →
    (s.lz.cur = none →
      exec (.lzSym sym) s = .next { s with lz := { s.lz with cur := some (BitVec.ofNat 12 sym.toNat) } }) ∧
    (∀ p c, s.lz.cur = some p → s.lz.dict.get? (256 * p.toNat + sym.toNat) = some c →
      exec (.lzSym sym) s = .next { s with lz := { s.lz with cur := some c } })

/-- R123, R124: on a miss that does not use up the code space, `LZ_SYM` writes the current code at the current width, binds
the pair to the next code, widens where that code needs one more bit, and restarts from the symbol. -/
def Obligations.LzSymMissWritesAndBinds : Prop := ∀ (sym : Byte) (p : BitVec 12) (s : State),
  s.Quiet → s.lz.active = true → s.pk.ok → s.lz.cur = some p → s.lz.dict.get? (256 * p.toNat + sym.toNat) = none →
  s.lz.next.toNat < 4095 →
    ∃ t, exec (.lzSym sym) s = .next t ∧ Appends s t ((List.range s.lz.width.toNat).map p.getLsbD) ∧
      t.lz.active = true ∧ t.lz.cur = some (BitVec.ofNat 12 sym.toNat) ∧ t.lz.next.toNat = s.lz.next.toNat + 1 ∧
      t.lz.width = (if 2 ^ s.lz.width.toNat ≤ s.lz.next.toNat then s.lz.width + 1#4 else s.lz.width) ∧
      (∀ key, t.lz.dict.get? key =
        if key = 256 * p.toNat + sym.toNat then some (BitVec.ofNat 12 s.lz.next.toNat) else s.lz.dict.get? key) ∧
      t = { s with lz := t.lz, pk := t.pk, out := t.out }

/-- R125: on the miss that binds code 4095, the clear code follows at the same width, 12, and the encoder stands in its
initial state but for the symbol it restarts from. -/
def Obligations.LzSymForcedReset : Prop := ∀ (sym : Byte) (p : BitVec 12) (s : State),
  s.Quiet → s.lz.active = true → s.pk.ok → s.lz.cur = some p → s.lz.dict.get? (256 * p.toNat + sym.toNat) = none →
  s.lz.next = 4095#13 → s.lz.width = 12#4 →
    ∃ t, exec (.lzSym sym) s = .next t ∧
      Appends s t ((List.range 12).map p.getLsbD ++ (List.range 12).map (256#12 : BitVec 12).getLsbD) ∧
      t.lz = { active := true, dict := [], cur := some (BitVec.ofNat 12 sym.toNat), width := 9#4, next := 258#13 } ∧
      t = { s with lz := t.lz, pk := t.pk, out := t.out }

/-- R128: `LZ_END` writes the pending code and the clear code at the current width and the end-of-information code at 9
bits, pads, flushes, and leaves the stream closed with the encoder and the packer as after reset. -/
def Obligations.LzEndClosesTheStream : Prop := ∀ (p : BitVec 12) (s : State),
  s.Quiet → s.lz.active = true → s.pk.ok → s.lz.cur = some p →
    ∃ t, exec .lzEnd s = .next t ∧
      Closes s t (endBits p s.lz.width.toNat) ∧
      t.lz = { active := false, dict := [], cur := none, width := 9#4, next := 258#13 } ∧
      t = { s with lz := t.lz, pk := t.pk, out := t.out }

/-- R126, R127, R128: what the commands of the code stream fault on. -/
def Obligations.LzCommandsFault : Prop := ∀ (sym : Byte) (s : State), s.fault = false →
  (s.lz.active = true → exec .lzStart s = .next (s.setFault .lzSeq 0x40000000#32)) ∧
  (s.lz.active = false → exec (.lzSym sym) s = .next (s.setFault .lzSeq (encode (.lzSym sym)))) ∧
  (s.lz.active = false → exec .lzEnd s = .next (s.setFault .lzSeq 0x60000000#32)) ∧
  (s.lz.active = true → s.lz.cur = none → exec .lzEnd s = .next (s.setFault .lzEmpty 0x60000000#32))

/-- R131: every code that can be written is below 2 to the current width, and at most 4096 codes are in use. -/
def Obligations.PendingCodeFitsTheWidth : Prop := ∀ s : State, s.Inv →
  (∀ p, s.lz.cur = some p → p.toNat < 2 ^ s.lz.width.toNat ∧ p.toNat < s.lz.next.toNat) ∧ s.lz.next.toNat ≤ 4096 ∧
    s.lz.next.toNat ≤ 2 ^ s.lz.width.toNat ∧ 256 < 2 ^ s.lz.width.toNat

/-! ### Palette, reference frame and geometry (spec/42_ditherer.md R150 to R155) -/

/-- R61, R151: outside a frame `PAL_WRITE` sets the slot `PAL_PTR` and no other, has no effect on slots 0, 1 and 255, and
moves `PAL_PTR` on modulo 256. -/
def Obligations.PalWriteSetsTheSlot : Prop := ∀ (r g b : Byte) (s : State), s.fault = false → s.dt.active = false →
  ∃ t, exec (.palWrite r g b) s = .next t ∧ t.palPtr.toNat = (s.palPtr.toNat + 1) % 256 ∧
    (∀ i, i ≤ 255 →
      palRead t.pal i = (if i = s.palPtr.toNat ∧ 2 ≤ i ∧ i ≤ 254 then ⟨r, g, b⟩ else palRead s.pal i) ∧
      palValid t.pal i = (if i = s.palPtr.toNat then true else palValid s.pal i)) ∧
    t = { s with pal := t.pal, palPtr := t.palPtr }

/-- R62, R152: outside a frame and below `REF_DEPTH`, `REF_WRITE` sets the entry `REF_PTR` and no other, and moves
`REF_PTR` on without wrapping. -/
def Obligations.RefWriteSetsTheEntry : Prop := ∀ (r g b : Byte) (s : State), s.cfg.Legal → s.fault = false →
  s.dt.active = false → s.refPtr.toNat < s.cfg.refDepth →
    ∃ t, exec (.refWrite r g b) s = .next t ∧ t.refPtr.toNat = s.refPtr.toNat + 1 ∧
      (∀ a, t.ref.get? a = if a = s.refPtr.toNat then some ⟨r, g, b⟩ else s.ref.get? a) ∧
      t = { s with ref := t.ref, refPtr := t.refPtr }

/-- R152, R247: while a frame is in progress `PAL_WRITE`, `REF_WRITE` and every `REG_WRITE` of a fitting value fault with
`DT_BUSY_CONFIG`; outside one, `REF_WRITE` at or above `REF_DEPTH` faults with `REF_RANGE`. -/
def Obligations.BusyConfigurationFaults : Prop := ∀ (r g b : Byte) (s : State), s.fault = false →
  (s.dt.active = true →
    exec (.palWrite r g b) s = .next (s.setFault .dtBusyConfig (encode (.palWrite r g b))) ∧
    exec (.refWrite r g b) s = .next (s.setFault .dtBusyConfig (encode (.refWrite r g b))) ∧
    ∀ (reg : BitVec 4) (val : BitVec 24) (width : Nat),
      (reg = 3#4 ∧ width = 16 ∨ reg = 4#4 ∧ width = 16 ∨ reg = 5#4 ∧ width = 8 ∨ reg = 6#4 ∧ width = 24) →
      val.toNat < 2 ^ width →
        exec (.regWrite reg val) s = .next (s.setFault .dtBusyConfig (encode (.regWrite reg val)))) ∧
  (s.dt.active = false → s.cfg.refDepth ≤ s.refPtr.toNat →
    exec (.refWrite r g b) s = .next (s.setFault .refRange (encode (.refWrite r g b))))

/-- R153: `DT_BEGIN` with a loaded palette and a geometry R154 accepts starts a frame at its first pixel, with the given
flags, the latched geometry and both error lines at 0. -/
def Obligations.DtBeginStartsAFrame : Prop := ∀ (chain wref uref : Bool) (s : State),
  s.fault = false → s.dt.active = false → 1 ≤ s.dtWidth.toNat → 1 ≤ s.dtHeight.toNat →
  s.dtWidth.toNat ≤ s.cfg.maxWidth → ((uref = true ∨ wref = true) → s.dtWidth.toNat * s.dtHeight.toNat ≤ s.cfg.refDepth) →
  (∀ i, 2 ≤ i → i ≤ 254 → palValid s.pal i = true) →
    ∃ t, exec (.dtBegin chain wref uref) s = .next t ∧ t.dt.active = true ∧ t.dt.w = s.dtWidth ∧ t.dt.h = s.dtHeight ∧
      t.dt.x = 0#16 ∧ t.dt.y = 0#16 ∧ t.dt.uref = uref ∧ t.dt.wref = wref ∧ t.dt.chain = chain ∧
      (∀ x, lineGet t.dt.e0 x = Fixed.zero ∧ lineGet t.dt.e1 x = Fixed.zero) ∧ t = { s with dt := t.dt }

/-- R153, R154, R155: what `DT_BEGIN` faults on, and in what order. -/
def Obligations.DtBeginFaultsInOrder : Prop := ∀ (chain wref uref : Bool) (s : State), s.fault = false →
  let bad := s.dtWidth.toNat = 0 ∨ s.dtHeight.toNat = 0 ∨ s.cfg.maxWidth < s.dtWidth.toNat ∨
    ((uref = true ∨ wref = true) ∧ s.cfg.refDepth < s.dtWidth.toNat * s.dtHeight.toNat)
  let w := encode (.dtBegin chain wref uref)
  (s.dt.active = true → exec (.dtBegin chain wref uref) s = .next (s.setFault .dtSeq w)) ∧
  (s.dt.active = false → bad → exec (.dtBegin chain wref uref) s = .next (s.setFault .dtGeometry w)) ∧
  (s.dt.active = false → ¬bad → (∃ i, 2 ≤ i ∧ i ≤ 254 ∧ palValid s.pal i = false) →
    exec (.dtBegin chain wref uref) s = .next (s.setFault .dtPalUninit w))

/-! ### One pixel (R160 to R186) -/

/-- R160, R178, R183: what `DT_PIXEL` faults on, and in what order. -/
def Obligations.DtPixelFaultsInOrder : Prop := ∀ (r g b : Byte) (s : State), s.Inv → s.fault = false →
  let w := encode (.dtPixel r g b)
  let noEntry := s.dt.uref = true ∧ s.ref.get? (s.dt.y.toNat * s.dt.w.toNat + s.dt.x.toNat) = none
  (s.dt.active = false → exec (.dtPixel r g b) s = .next (s.setFault .dtSeq w)) ∧
  (s.dt.active = true → s.dt.chain = true → s.lz.active = false →
    exec (.dtPixel r g b) s = .next (s.setFault .dtChainNoLz w)) ∧
  (s.dt.active = true → (s.dt.chain = true → s.lz.active = true) → noEntry →
    exec (.dtPixel r g b) s = .next (s.setFault .dtRefUninit w)) ∧
  (s.dt.active = true → (s.dt.chain = true → s.lz.active = true) → ¬noEntry →
    ((accumulate (accLimit s.cfg) ⟨r, g, b⟩ (lineGet s.dt.e0 s.dt.x.toNat)).bind fun acc => pixelFor acc s) = none →
    exec (.dtPixel r g b) s = .next (s.setFault .dtRange w))

/-- R160, R170, R179, R180, R181, R183: a `DT_PIXEL` whose checks pass appends the pixel's PIX word, keeps or writes the
error lines, mirrors the output colour where `WREF` is set, advances, and touches the LZW encoder, the packer and OUT only
where the frame is chained. That pixel is index 1 with the shifted accumulated value as its colour where the skip is taken,
and otherwise the slot the search answers, with that slot's colour, its error diffused into the error lines (R171, R173). -/
def Obligations.DtPixelCompletes : Prop := ∀ (acc : Fixed) (p : Pixel) (s : State),
  (pixelFor acc s = some p ↔
    (skipTaken acc s = true ∧
      p.idx = 1#8 ∧ p.colour = acc.toRgb ∧ p.e0 = s.dt.e0 ∧ p.e1 = s.dt.e1) ∨
    (skipTaken acc s = false ∧ ∃ i d err, search (accLimit s.cfg) acc (palRead s.pal) = some (i, d) ∧
      p.idx.toNat = i ∧ p.colour = palRead s.pal i ∧ errorOf (accLimit s.cfg) acc (palRead s.pal i) = some err ∧
      diffuse (accLimit s.cfg) err s.dt = some (p.e0, p.e1))) ∧
  ∀ r g b : Byte,
  s.Inv → s.fault = false → s.dt.active = true → (s.dt.chain = true → s.lz.active = true) →
  (s.dt.uref = true → (s.ref.get? (s.dt.y.toNat * s.dt.w.toNat + s.dt.x.toNat)).isSome = true) →
  accumulate (accLimit s.cfg) ⟨r, g, b⟩ (lineGet s.dt.e0 s.dt.x.toNat) = some acc → pixelFor acc s = some p →
    ∃ t, exec (.dtPixel r g b) s = .next t ∧ t.fault = false ∧
      t.pix = s.pix ++ [p.colour.r ++ p.colour.g ++ p.colour.b ++ p.idx] ∧
      t.dt = advance { s.dt with e0 := p.e0, e1 := p.e1 } ∧
      (∀ a, t.ref.get? a =
        if s.dt.wref = true ∧ a = s.dt.y.toNat * s.dt.w.toNat + s.dt.x.toNat then some p.colour else s.ref.get? a) ∧
      (s.dt.chain = false → t = { s with dt := t.dt, ref := t.ref, pix := t.pix }) ∧
      (s.dt.chain = true →
        t = { s with dt := t.dt, ref := t.ref, pix := t.pix, lz := t.lz, pk := t.pk, out := t.out })

/-- R161, R173, R178: the accumulated value and the error are exact, and none where a channel leaves the signed range. The
bound of that range for an instance is 2 to `ACC_BITS` - 1 (R7, R178). -/
def Obligations.AccumulatedValueAndErrorAreExact : Prop := ∀ (p : Params) (lim : Int) (v : Rgb) (e a : Fixed),
  accLimit p = (2 : Int) ^ (p.accBits - 1) ∧
  (accumulate lim v e = some a ↔
    a = ⟨256 * (v.r.toNat : Int) + e.r, 256 * (v.g.toNat : Int) + e.g, 256 * (v.b.toNat : Int) + e.b⟩ ∧ a.inRange lim) ∧
  (errorOf lim e v = some a ↔
    a = ⟨e.r - 256 * (v.r.toNat : Int), e.g - 256 * (v.g.toNat : Int), e.b - 256 * (v.b.toNat : Int)⟩ ∧ a.inRange lim)

/-- R170: the skip is taken exactly where `UREF` is set and every channel's accumulated value, shifted down by 8 with
floor, equals the reference entry's; the output colour is then that entry's. -/
def Obligations.SkipComparesTheShiftedValue : Prop := ∀ (acc : Fixed) (s : State),
  (skipTaken acc s = true ↔
    s.dt.uref = true ∧ ∃ c, s.ref.get? (s.dt.y.toNat * s.dt.w.toNat + s.dt.x.toNat) = some c ∧
      acc.r / 256 = (c.r.toNat : Int) ∧ acc.g / 256 = (c.g.toNat : Int) ∧ acc.b / 256 = (c.b.toNat : Int)) ∧
  (skipTaken acc s = true →
    s.ref.get? (s.dt.y.toNat * s.dt.w.toNat + s.dt.x.toNat) = some acc.toRgb)

/-- R171, R178: the distance is the summed absolute difference per channel, and there is none exactly where it leaves the
signed range (every value it is computed from then stays in range). -/
def Obligations.DistanceIsTheSummedDifference : Prop := ∀ (lim d : Int) (acc : Fixed) (c : Rgb),
  distance lim acc c = some d ↔
    d = ((acc.r - 256 * (c.r.toNat : Int)).natAbs : Int) + ((acc.g - 256 * (c.g.toNat : Int)).natAbs : Int) +
        ((acc.b - 256 * (c.b.toNat : Int)).natAbs : Int) ∧ d ≤ lim - 1

/-- R171, R172: the search answers a slot of 0 to 255 of least distance, the lowest of those, and answers none exactly
where some slot's distance leaves the range. -/
def Obligations.SearchFindsTheNearestLowestSlot : Prop := ∀ (lim : Int) (acc : Fixed) (slot : Nat → Rgb),
  (∀ i d, search lim acc slot = some (i, d) →
    i ≤ 255 ∧ distance lim acc (slot i) = some d ∧
      ∀ j, j ≤ 255 → ∃ dj, distance lim acc (slot j) = some dj ∧ d ≤ dj ∧ (j < i → d < dj)) ∧
  (search lim acc slot = none ↔ ∃ j, j ≤ 255 ∧ distance lim acc (slot j) = none)

/-- R186: the search never chooses index 1, so that a pixel's index is 1 exactly where it is skipped; and it chooses
index 255 only where no slot 2 to 254 is white. -/
def Obligations.SearchNeverChoosesIndexOne : Prop := ∀ (acc : Fixed) (s : State) (p : Pixel),
  (searchedPixel acc s = some p →
    p.idx ≠ 1#8 ∧ (p.idx = 255#8 → ∀ i, 2 ≤ i → i ≤ 254 → palRead s.pal i ≠ ⟨255#8, 255#8, 255#8⟩)) ∧
  (pixelFor acc s = some p → (p.idx = 1#8 ↔ skipTaken acc s = true))

/-- R174, R175, R176: what diffusing an error adds to each entry of the error lines: 7/16 to the right, 3/16 below-left,
5/16 below and 1/16 below-right, each truncated toward zero, and nothing outside the frame. There is a diffusion exactly
where, for every neighbour in the frame, the product and the new entry stay in the signed range (R178). -/
def Obligations.DiffusionAddsTheShares : Prop := ∀ (lim : Int) (err : Fixed) (dt : Ditherer),
  lineWf dt.e0 → lineWf dt.e1 →
  ((∃ lines, diffuse lim err dt = some lines) ↔
    ShareFits (dt.x.toNat + 1 < dt.w.toNat) lim (lineGet dt.e0 (dt.x.toNat + 1)) err 7 ∧
    ShareFits (dt.y.toNat + 1 < dt.h.toNat ∧ 1 ≤ dt.x.toNat) lim (lineGet dt.e1 (dt.x.toNat - 1)) err 3 ∧
    ShareFits (dt.y.toNat + 1 < dt.h.toNat) lim (lineGet dt.e1 dt.x.toNat) err 5 ∧
    ShareFits (dt.y.toNat + 1 < dt.h.toNat ∧ dt.x.toNat + 1 < dt.w.toNat) lim (lineGet dt.e1 (dt.x.toNat + 1)) err 1) ∧
  ∀ (e0 e1 : Memory Fixed), diffuse lim err dt = some (e0, e1) → ∀ x',
    lineGet e0 x' = plus (lineGet dt.e0 x') (shareIf (x' = dt.x.toNat + 1 ∧ dt.x.toNat + 1 < dt.w.toNat) err 7) ∧
    lineGet e1 x' = plus (lineGet dt.e1 x')
      (plus (shareIf (x' + 1 = dt.x.toNat ∧ dt.y.toNat + 1 < dt.h.toNat) err 3)
        (plus (shareIf (x' = dt.x.toNat ∧ dt.y.toNat + 1 < dt.h.toNat) err 5)
          (shareIf (x' = dt.x.toNat + 1 ∧ dt.y.toNat + 1 < dt.h.toNat ∧ dt.x.toNat + 1 < dt.w.toNat) err 1)))

/-- R181, R182: the position moves through the frame in row-major order, the next row's errors becoming current at a row's
end, and the frame ends after its last pixel with the position at 0. -/
def Obligations.AdvanceIsRowMajor : Prop := ∀ dt : Ditherer, dt.active = true → dt.x.toNat < dt.w.toNat →
  dt.y.toNat < dt.h.toNat →
    (dt.x.toNat + 1 = dt.w.toNat → dt.y.toNat + 1 = dt.h.toNat →
      advance dt = { dt with active := false, x := 0#16, y := 0#16, e0 := dt.e1, e1 := [] }) ∧
    (dt.x.toNat + 1 = dt.w.toNat → dt.y.toNat + 1 < dt.h.toNat →
      ∃ u, advance dt = { dt with x := 0#16, y := u, e0 := dt.e1, e1 := [] } ∧ u.toNat = dt.y.toNat + 1) ∧
    (dt.x.toNat + 1 < dt.w.toNat → ∃ u, advance dt = { dt with x := u } ∧ u.toNat = dt.x.toNat + 1)

/-- R183: a completed pixel of a chained frame does to the LZW encoder, the packer and OUT exactly what `LZ_SYM` of its
index does; with no code stream open it faults `DT_CHAIN_NO_LZ`; an unchained one does not touch them. -/
def Obligations.ChainedPixelIsAnLzSym : Prop := ∀ (r g b : Byte) (s : State), s.dt.active = true →
  (s.Quiet → s.dt.chain = true → ∀ t, exec (.dtPixel r g b) s = .next t → t.fault = false →
    ∃ w u, t.pix = s.pix ++ [w] ∧ exec (.lzSym (w.extractLsb' 0 8)) s = .next u ∧
      t.lz = u.lz ∧ t.pk = u.pk ∧ t.out = u.out) ∧
  (s.fault = false → s.dt.chain = true → s.lz.active = false →
    exec (.dtPixel r g b) s = .next (s.setFault .dtChainNoLz (encode (.dtPixel r g b)))) ∧
  (s.dt.chain = false → ∀ t, exec (.dtPixel r g b) s = .next t → t.lz = s.lz ∧ t.pk = s.pk ∧ t.out = s.out)

/-- R185: where no error has reached a pixel and its input equals its reference entry, it is skipped: index 1, its own
colour, and the error lines as they were. -/
def Obligations.IdenticalPixelIsSkipped : Prop := ∀ (r g b : Byte) (s : State),
  s.Inv → s.fault = false → s.dt.active = true → (s.dt.chain = true → s.lz.active = true) → s.dt.uref = true →
  lineGet s.dt.e0 s.dt.x.toNat = Fixed.zero →
  s.ref.get? (s.dt.y.toNat * s.dt.w.toNat + s.dt.x.toNat) = some ⟨r, g, b⟩ →
    ∃ t, exec (.dtPixel r g b) s = .next t ∧ t.fault = false ∧ t.pix = s.pix ++ [r ++ g ++ b ++ 1#8] ∧
      t.dt = advance s.dt

/-- R185: where no error has reached a pixel whose input is a palette colour, and `UREF` is clear, the output colour is the
input and no error is left anywhere. -/
def Obligations.PaletteExactPixelLeavesNoError : Prop := ∀ (r g b : Byte) (s : State),
  s.Inv → s.fault = false → s.dt.active = true → (s.dt.chain = true → s.lz.active = true) → s.dt.uref = false →
  lineGet s.dt.e0 s.dt.x.toNat = Fixed.zero → (∃ i, i ≤ 255 ∧ palRead s.pal i = ⟨r, g, b⟩) →
    ∃ (t : State) (idx : Byte), exec (.dtPixel r g b) s = .next t ∧ t.fault = false ∧
      t.pix = s.pix ++ [r ++ g ++ b ++ idx] ∧
      palRead s.pal idx.toNat = ⟨r, g, b⟩ ∧
      ∃ e0 e1, t.dt = advance { s.dt with e0 := e0, e1 := e1 } ∧
        (∀ x, lineGet e0 x = lineGet s.dt.e0 x) ∧ ∀ x, lineGet e1 x = lineGet s.dt.e1 x

/-- R184: the two error lines hold, for every pixel still to come, what the source's frame-sized scratch buffer holds. A
completed pixel reads the same accumulated value as from the scratch buffer, and keeps the relation to the scratch buffer
after the same pixel (unchanged by a skipped one). `DT_BEGIN` begins it with an empty buffer. -/
def Obligations.LineBuffersHoldTheScratchBuffer : Prop :=
  (∀ (chain wref uref : Bool) (s t : State), s.fault = false → exec (.dtBegin chain wref uref) s = .next t →
    t.fault = false → HoldsScratch t.dt (fun _ _ => Fixed.zero)) ∧
  ∀ (r g b : Byte) (s t : State) (buf : Nat → Nat → Fixed), s.Inv → s.fault = false → s.dt.active = true →
    HoldsScratch s.dt buf → exec (.dtPixel r g b) s = .next t → t.fault = false →
      ∃ acc p, accumulate (accLimit s.cfg) ⟨r, g, b⟩ (buf s.dt.x.toNat s.dt.y.toNat) = some acc ∧
        pixelFor acc s = some p ∧ t.pix = s.pix ++ [p.colour.r ++ p.colour.g ++ p.colour.b ++ p.idx] ∧
        (t.dt.active = true →
          HoldsScratch t.dt
            (if skipTaken acc s then buf
             else scratchDiffuse ⟨acc.r - fix p.colour.r, acc.g - fix p.colour.g, acc.b - fix p.colour.b⟩ s.dt.x.toNat
               s.dt.y.toNat s.dt.w.toNat s.dt.h.toNat buf))

/-! ### Frames (R42 and the "State written" lines of R104 to R193) -/

/-- R42: which commands write which flags. -/
def Obligations.FlagsChangeOnlyWhereNamed : Prop := ∀ (i : Instr) (s t : State), exec i s = .next t →
  (∀ payload, i ≠ .reset payload) →
    (t.fault ≠ s.fault → s.fault = false ∧ t.fault = true) ∧ (t.cause ≠ s.cause → s.fault = false ∧ t.fault = true) ∧
    (t.lz.active ≠ s.lz.active → i = .lzStart ∨ i = .lzEnd) ∧
    (t.dt.active ≠ s.dt.active → (∃ c w u, i = .dtBegin c w u) ∨
      ((∃ r g b, i = .dtPixel r g b) ∧ s.dt.x + 1#16 = s.dt.w ∧ s.dt.y + 1#16 = s.dt.h)) ∧
    ((t.dt.chain ≠ s.dt.chain ∨ t.dt.uref ≠ s.dt.uref ∨ t.dt.wref ≠ s.dt.wref) → ∃ c w u, i = .dtBegin c w u)

/-- R104 to R106, R126 to R128: what the packer's and the encoder's commands leave unchanged, whatever they answer: every
register, storage space and stream but the packer, OUT, the fault registers where a fault is taken, and, for the encoder's
commands, the encoder. -/
def Obligations.PackerAndEncoderFrames : Prop := ∀ (i : Instr) (s t : State), exec i s = .next t →
  (((∃ n v, i = .pkWrite n v) ∨ i = .pkPad ∨ i = .pkFlush) →
    t = { s with pk := t.pk, out := t.out, fault := t.fault, cause := t.cause, faultCmd := t.faultCmd, sink := t.sink }) ∧
  ((i = .lzStart ∨ (∃ sym, i = .lzSym sym) ∨ i = .lzEnd) →
    t = { s with
      lz := t.lz, pk := t.pk, out := t.out, fault := t.fault, cause := t.cause, faultCmd := t.faultCmd, sink := t.sink })

/-- R151, R152, R153, R160: what the Ditherer's commands leave unchanged, whatever they answer, storage entry by storage
entry: `PAL_WRITE` writes only slot `PAL_PTR`, `REF_WRITE` only entry `REF_PTR`, `DT_BEGIN` no storage, and `DT_PIXEL` only
entry `y * W + x` of REF, and that only with `WREF` set; the encoder, the packer and OUT change only in a chained frame. -/
def Obligations.DithererCommandFrames : Prop := ∀ (s t : State),
  (∀ r g b, exec (.palWrite r g b) s = .next t →
    t = { s with pal := t.pal, palPtr := t.palPtr, fault := t.fault, cause := t.cause, faultCmd := t.faultCmd } ∧
    ∀ i, i ≠ s.palPtr.toNat → t.pal.get? i = s.pal.get? i) ∧
  (∀ r g b, exec (.refWrite r g b) s = .next t →
    t = { s with ref := t.ref, refPtr := t.refPtr, fault := t.fault, cause := t.cause, faultCmd := t.faultCmd } ∧
    ∀ a, a ≠ s.refPtr.toNat → t.ref.get? a = s.ref.get? a) ∧
  (∀ c w u, exec (.dtBegin c w u) s = .next t →
    t = { s with dt := t.dt, fault := t.fault, cause := t.cause, faultCmd := t.faultCmd }) ∧
  (∀ r g b, exec (.dtPixel r g b) s = .next t →
    t = { s with
      dt := t.dt, ref := t.ref, pix := t.pix, lz := t.lz, pk := t.pk, out := t.out
      fault := t.fault, cause := t.cause, faultCmd := t.faultCmd, sink := t.sink } ∧
    (∀ a, s.dt.wref = false ∨ a ≠ s.dt.y.toNat * s.dt.w.toNat + s.dt.x.toNat → t.ref.get? a = s.ref.get? a) ∧
    (s.dt.chain = false → t.lz = s.lz ∧ t.pk = s.pk ∧ t.out = s.out))

/-- R190, R191: what the register commands leave unchanged, whatever they answer. -/
def Obligations.RegisterCommandFrames : Prop := ∀ (s t : State),
  (∀ reg, exec (.regRead reg) s = .next t →
    t = { s with rsp := t.rsp, fault := t.fault, cause := t.cause, faultCmd := t.faultCmd, sink := t.sink }) ∧
  (∀ reg val, exec (.regWrite reg val) s = .next t →
    t = { s with
      dtWidth := t.dtWidth, dtHeight := t.dtHeight, palPtr := t.palPtr, refPtr := t.refPtr
      fault := t.fault, cause := t.cause, faultCmd := t.faultCmd } ∧
    ∀ other : BitVec 4, other ≠ reg → other ≠ 1#4 → other ≠ 2#4 → regValue other t = regValue other s)

/-! ### The sink error (R219) -/

/-- R219: between two commands the event is taken with `FAULT_CMD` 0, and ignored while faulted; an event that no append
point of a command met is taken so after it. -/
def Obligations.SinkErrorBetweenCommands : Prop := ∀ (s : State),
  (∀ rest, s.host = .sinkErr :: rest → s.sink = none →
    (s.fault = false →
      step s = .next { s with host := rest, fault := true, cause := .sinkError, faultCmd := 0#32 }) ∧
    (s.fault = true → step s = .next { s with host := rest })) ∧
  (∀ k, s.sink = some k →
    (s.fault = false →
      settle (.next s) = .next { s with fault := true, cause := .sinkError, faultCmd := 0#32, sink := none }) ∧
    (s.fault = true → settle (.next s) = .next { s with sink := none }))

/-- R219: the event stops a command at the append point it reaches. Let a command end without a fault where no event
reaches it, having appended some elements. With the event after `k` of its append points, it ends the same way if it
appends no more than `k` elements (the event is then still to come), and otherwise it is stopped: `SINK_ERROR` with the
command's word, exactly `k` elements appended, and those the first `k` the command appends to each stream. From a state that
meets the invariant the stopped command keeps every effect it made before that point, and makes none after it. -/
def Obligations.SinkErrorStopsAtItsAppendPoint : Prop := ∀ (i : Instr) (k : Nat) (s u : State),
  s.fault = false → (∀ payload, i ≠ .reset payload) → exec i (s.setSink none) = .next u → u.fault = false →
    (streamed u ≤ streamed s + k →
      exec i (s.setSink (some k)) = .next (u.setSink (some (streamed s + k - streamed u)))) ∧
    (streamed s + k < streamed u →
      ∃ t, exec i (s.setSink (some k)) = .next t ∧ t.fault = true ∧ t.cause = .sinkError ∧ t.faultCmd = encode i ∧
        t.sink = none ∧ streamed t = streamed s + k ∧ t.out <+: u.out ∧ t.pix <+: u.pix ∧ t.rsp <+: u.rsp ∧
        (s.Inv → KeptAtStop i k s t))

/-! ### The invariant -/

/-- R43: the invariant holds right after reset, for every legal instance. -/
def Obligations.InvariantHoldsAtReset : Prop := (∀ p : Params, p.Legal → (State.resetWith p).Inv) ∧ State.reset.Inv

/-- R23, R24, R26, R27, R30, R37, R61, R62: every step from a state that meets the invariant gives a state that meets
it. -/
def Obligations.StepKeepsTheInvariant : Prop := ∀ s t : State, s.Inv → step s = .next t → t.Inv

/-- R108, R130, R62: whatever the host does, a run from reset of any legal instance never stops, never forms an entry that
does not exist, and never records `SUBBLOCK_OVERRUN` or `LZ_RESET_WIDTH`; its parameters never change (R40). -/
def Obligations.RunsNeverStopNorRecordTheInternalCauses : Prop := ∀ (p : Params) (schedule : List HostAction) (n : Nat),
  p.Legal →
    ∃ t : State, Sys2Proof.core.run n ((State.resetWith p).setHost schedule) = .next t ∧
      t.cause ≠ .subblockOverrun ∧ t.cause ≠ .lzResetWidth ∧ t.cfg = p
end

