-- ==== Sys2Proof/Laws/Memory.lean ====
section
/-! SUPPORT. What reading and writing a storage space do: a read after a write, the entries a write leaves alone, and
that every write keeps the canonical form. -/

namespace Sys2Proof.Machine

variable {α : Type}

@[simp] theorem Memory.get?_nil (a : Nat) : Memory.get? ([] : Memory α) a = none := rfl

theorem Memory.get?_cons (b : Nat) (v : α) (m : Memory α) (a : Nat) :
    Memory.get? ((b, v) :: m) a = if a = b then some v else Memory.get? m a := rfl

theorem Memory.wf_cons {b : Nat} {v : α} {m : Memory α} :
    Memory.wf ((b, v) :: m) ↔ (∀ e ∈ m, b < e.1) ∧ Memory.wf m := List.pairwise_cons

/-- An index below every listed one holds no value. -/
theorem Memory.get?_eq_none_of_lt {m : Memory α} {a : Nat} (h : ∀ e ∈ m, a < e.1) : m.get? a = none := by
  induction m with
  | nil => rfl
  | cons e m ih =>
    obtain ⟨b, v⟩ := e
    have hb : a < b := h (b, v) (by simp)
    rw [Memory.get?_cons, if_neg (by omega), ih (fun e he => h e (by simp [he]))]

/-- A listed entry is read, where the form is canonical. -/
theorem Memory.get?_eq_some_iff {m : Memory α} (h : m.wf) {a : Nat} {v : α} : m.get? a = some v ↔ (a, v) ∈ m := by
  induction m with
  | nil => simp
  | cons e m ih =>
    obtain ⟨b, u⟩ := e
    obtain ⟨hlt, hm⟩ := Memory.wf_cons.1 h
    rw [Memory.get?_cons]
    by_cases hab : a = b
    · subst hab
      simp only [if_pos, Option.some.injEq, List.mem_cons, Prod.mk.injEq, true_and]
      constructor
      · exact fun h => .inl h.symm
      · rintro (h | h)
        · exact h.symm
        · exact absurd (hlt _ h) (by simp)
    · simp [hab, ih hm]

theorem Memory.mem_of_get? {m : Memory α} {a : Nat} {v : α} (h : m.get? a = some v) : (a, v) ∈ m := by
  induction m with
  | nil => simp at h
  | cons e m ih =>
    obtain ⟨b, u⟩ := e
    rw [Memory.get?_cons] at h
    split at h
    · simp_all
    · exact List.mem_cons_of_mem _ (ih h)

/-- A read after a write: the value written at its index, and the old value at every other. -/
theorem Memory.get?_set (m : Memory α) (a : Nat) (v : α) (x : Nat) :
    (m.set a v).get? x = if x = a then some v else m.get? x := by
  induction m with
  | nil => rfl
  | cons e m ih =>
    obtain ⟨b, u⟩ := e
    simp only [Memory.set]
    split
    · simp only [Memory.get?_cons]
    · split
      · subst_vars
        simp only [Memory.get?_cons]
        split <;> simp_all
      · simp only [Memory.get?_cons, ih]
        split
        · split
          · omega
          · rfl
        · rfl

/-- What a write can list: the new entry, and old ones. -/
theorem Memory.mem_set {m : Memory α} {a : Nat} {v : α} {e : Nat × α} (h : e ∈ m.set a v) : e = (a, v) ∨ e ∈ m := by
  induction m with
  | nil => simpa [Memory.set] using h
  | cons e' m ih =>
    obtain ⟨b, u⟩ := e'
    simp only [Memory.set] at h
    split at h
    · simpa using h
    · split at h
      · rcases List.mem_cons.1 h with h | h
        · exact .inl h
        · exact .inr (List.mem_cons_of_mem _ h)
      · rcases List.mem_cons.1 h with h | h
        · exact .inr (by simp [h])
        · rcases ih h with h | h
          · exact .inl h
          · exact .inr (List.mem_cons_of_mem _ h)

theorem Memory.set_wf {m : Memory α} (h : m.wf) (a : Nat) (v : α) : (m.set a v).wf := by
  induction m with
  | nil => simp [Memory.set, Memory.wf]
  | cons e m ih =>
    obtain ⟨b, u⟩ := e
    obtain ⟨hlt, hm⟩ := Memory.wf_cons.1 h
    simp only [Memory.set]
    split
    · refine Memory.wf_cons.2 ⟨?_, h⟩
      intro e he
      rcases List.mem_cons.1 he with rfl | he
      · assumption
      · have := hlt e he
        omega
    · split
      · subst_vars
        exact Memory.wf_cons.2 ⟨hlt, hm⟩
      · refine Memory.wf_cons.2 ⟨?_, ih hm⟩
        intro e he
        rcases Memory.mem_set he with rfl | he
        · simp
          omega
        · exact hlt e he

/-- Writing at an index that held no value lists one entry more, with the values it had and the new one. -/
theorem Memory.set_perm {m : Memory α} {a : Nat} (h : m.get? a = none) (v : α) : (m.set a v).Perm ((a, v) :: m) := by
  induction m with
  | nil => exact List.Perm.refl _
  | cons e m ih =>
    obtain ⟨b, u⟩ := e
    rw [Memory.get?_cons] at h
    simp only [Memory.set]
    split
    · exact List.Perm.refl _
    · split
      · simp_all
      · exact ((ih (by simpa [*] using h)).cons _).trans (List.Perm.swap _ _ _)

theorem Memory.get?_erase (m : Memory α) (a x : Nat) : (m.erase a).get? x = if x = a then none else m.get? x := by
  induction m with
  | nil => simp [Memory.erase]
  | cons e m ih =>
    obtain ⟨b, u⟩ := e
    simp only [Memory.erase, List.filter_cons] at ih ⊢
    by_cases hb : b = a
    · subst hb
      simp only [bne_self_eq_false, Bool.false_eq_true, if_false, ih, Memory.get?_cons]
      split <;> rfl
    · simp only [bne_iff_ne, ne_eq, hb, not_false_eq_true, if_true, Memory.get?_cons, ih]
      split
      · split
        · omega
        · rfl
      · rfl

theorem Memory.erase_wf {m : Memory α} (h : m.wf) (a : Nat) : (m.erase a).wf :=
  List.Pairwise.sublist List.filter_sublist h

theorem Memory.mem_of_mem_erase {m : Memory α} {a : Nat} {e : Nat × α} (h : e ∈ m.erase a) : e ∈ m :=
  (List.mem_filter.1 h).1

/-! ### Error lines -/

@[simp] theorem lineGet_nil (x : Nat) : lineGet [] x = Fixed.zero := rfl

/-- A read of an error line after a write. -/
theorem lineGet_lineSet (line : Memory Fixed) (a : Nat) (e : Fixed) (x : Nat) :
    lineGet (lineSet line a e) x = if x = a then e else lineGet line x := by
  unfold lineGet lineSet
  split
  · rw [Memory.get?_erase]
    split <;> simp_all
  · rw [Memory.get?_set]
    split <;> simp_all

theorem lineSet_wf {line : Memory Fixed} (h : lineWf line) (a : Nat) (e : Fixed) : lineWf (lineSet line a e) := by
  unfold lineSet
  split
  · exact ⟨Memory.erase_wf h.1 a, fun e he => h.2 e (Memory.mem_of_mem_erase he)⟩
  · refine ⟨Memory.set_wf h.1 a e, fun x hx => ?_⟩
    rcases Memory.mem_set hx with rfl | hx
    · assumption
    · exact h.2 x hx

/-- What a write to an error line can list: the new entry, and old ones. -/
theorem mem_lineSet {line : Memory Fixed} {a : Nat} {e : Fixed} {x : Nat × Fixed} (h : x ∈ lineSet line a e) :
    x = (a, e) ∨ x ∈ line := by
  unfold lineSet at h
  split at h
  · exact .inr (Memory.mem_of_mem_erase h)
  · exact Memory.mem_set h

/-! ### The palette -/

theorem palRead_palWrite (pal : Memory Rgb) (i : Nat) (c : Rgb) (j : Nat) :
    palRead (palWrite pal i c) j = if j = i ∧ j ≠ 0 ∧ j ≠ 1 ∧ j ≠ 255 then c else palRead pal j := by
  unfold palRead palWrite
  by_cases hj : j = 0 ∨ j = 1
  · rcases hj with rfl | rfl <;> simp
  · by_cases hj' : j = 255
    · subst hj'
      simp
    · by_cases hi : i = 0 ∨ i = 1 ∨ i = 255
      · have : j ≠ i := by omega
        simp [hi, this]
      · simp only [if_neg hj, if_neg hj', if_neg hi, Memory.get?_set]
        have hne : j ≠ 0 ∧ j ≠ 1 := by omega
        by_cases h : j = i <;> simp [h]
        · subst h
          simp [hne, hj']

theorem palValid_palWrite (pal : Memory Rgb) (i : Nat) (c : Rgb) (j : Nat) :
    palValid (palWrite pal i c) j = (palValid pal j || decide (j = i)) := by
  unfold palValid palWrite
  by_cases hi : i = 0 ∨ i = 1 ∨ i = 255
  · simp only [hi, if_true]
    by_cases h : j = i
    · subst h
      rcases hi with rfl | rfl | rfl <;> simp
    · simp [h]
  · simp only [hi, if_false, Memory.get?_set]
    by_cases h : j = i
    · simp [h]
    · simp [h]

theorem palWrite_wf {pal : Memory Rgb} (h : pal.wf) (i : Nat) (c : Rgb) : (palWrite pal i c).wf := by
  unfold palWrite
  split
  · exact h
  · exact Memory.set_wf h i c

theorem palReady_iff (pal : Memory Rgb) : palReady pal = true ↔ ∀ i, 2 ≤ i → i ≤ 254 → palValid pal i = true := by
  simp only [palReady, List.all_eq_true, List.mem_range'_1]
  constructor
  · exact fun h i h2 h254 => h i ⟨h2, by omega⟩
  · exact fun h i hi => h i hi.1 (by omega)

end Sys2Proof.Machine
end

