-- ==== Sys2Proof/Laws/State.lean ====
section
/-! SUPPORT. One lemma per field per named update of the state. -/

namespace Sys2Proof.Machine.State

variable (s : State)

@[simp] theorem setFault_cfg (c : Cause) (w : Word) : (s.setFault c w).cfg = s.cfg := rfl
@[simp] theorem setFault_fault (c : Cause) (w : Word) : (s.setFault c w).fault = true := rfl
@[simp] theorem setFault_cause (c : Cause) (w : Word) : (s.setFault c w).cause = c := rfl
@[simp] theorem setFault_faultCmd (c : Cause) (w : Word) : (s.setFault c w).faultCmd = w := rfl
@[simp] theorem setFault_pk (c : Cause) (w : Word) : (s.setFault c w).pk = s.pk := rfl
@[simp] theorem setFault_lz (c : Cause) (w : Word) : (s.setFault c w).lz = s.lz := rfl
@[simp] theorem setFault_dt (c : Cause) (w : Word) : (s.setFault c w).dt = s.dt := rfl
@[simp] theorem setFault_pal (c : Cause) (w : Word) : (s.setFault c w).pal = s.pal := rfl
@[simp] theorem setFault_palPtr (c : Cause) (w : Word) : (s.setFault c w).palPtr = s.palPtr := rfl
@[simp] theorem setFault_ref (c : Cause) (w : Word) : (s.setFault c w).ref = s.ref := rfl
@[simp] theorem setFault_refPtr (c : Cause) (w : Word) : (s.setFault c w).refPtr = s.refPtr := rfl
@[simp] theorem setFault_dtWidth (c : Cause) (w : Word) : (s.setFault c w).dtWidth = s.dtWidth := rfl
@[simp] theorem setFault_dtHeight (c : Cause) (w : Word) : (s.setFault c w).dtHeight = s.dtHeight := rfl
@[simp] theorem setFault_out (c : Cause) (w : Word) : (s.setFault c w).out = s.out := rfl
@[simp] theorem setFault_pix (c : Cause) (w : Word) : (s.setFault c w).pix = s.pix := rfl
@[simp] theorem setFault_rsp (c : Cause) (w : Word) : (s.setFault c w).rsp = s.rsp := rfl
@[simp] theorem setFault_taken (c : Cause) (w : Word) : (s.setFault c w).taken = s.taken := rfl
@[simp] theorem setFault_port (c : Cause) (w : Word) : (s.setFault c w).port = s.port := rfl
@[simp] theorem setFault_host (c : Cause) (w : Word) : (s.setFault c w).host = s.host := rfl
@[simp] theorem setFault_sink (c : Cause) (w : Word) : (s.setFault c w).sink = s.sink := rfl

@[simp] theorem setPk_cfg (pk : Packer) : (s.setPk pk).cfg = s.cfg := rfl
@[simp] theorem setPk_fault (pk : Packer) : (s.setPk pk).fault = s.fault := rfl
@[simp] theorem setPk_cause (pk : Packer) : (s.setPk pk).cause = s.cause := rfl
@[simp] theorem setPk_faultCmd (pk : Packer) : (s.setPk pk).faultCmd = s.faultCmd := rfl
@[simp] theorem setPk_pk (pk : Packer) : (s.setPk pk).pk = pk := rfl
@[simp] theorem setPk_lz (pk : Packer) : (s.setPk pk).lz = s.lz := rfl
@[simp] theorem setPk_dt (pk : Packer) : (s.setPk pk).dt = s.dt := rfl
@[simp] theorem setPk_pal (pk : Packer) : (s.setPk pk).pal = s.pal := rfl
@[simp] theorem setPk_palPtr (pk : Packer) : (s.setPk pk).palPtr = s.palPtr := rfl
@[simp] theorem setPk_ref (pk : Packer) : (s.setPk pk).ref = s.ref := rfl
@[simp] theorem setPk_refPtr (pk : Packer) : (s.setPk pk).refPtr = s.refPtr := rfl
@[simp] theorem setPk_dtWidth (pk : Packer) : (s.setPk pk).dtWidth = s.dtWidth := rfl
@[simp] theorem setPk_dtHeight (pk : Packer) : (s.setPk pk).dtHeight = s.dtHeight := rfl
@[simp] theorem setPk_out (pk : Packer) : (s.setPk pk).out = s.out := rfl
@[simp] theorem setPk_pix (pk : Packer) : (s.setPk pk).pix = s.pix := rfl
@[simp] theorem setPk_rsp (pk : Packer) : (s.setPk pk).rsp = s.rsp := rfl
@[simp] theorem setPk_taken (pk : Packer) : (s.setPk pk).taken = s.taken := rfl
@[simp] theorem setPk_port (pk : Packer) : (s.setPk pk).port = s.port := rfl
@[simp] theorem setPk_host (pk : Packer) : (s.setPk pk).host = s.host := rfl
@[simp] theorem setPk_sink (pk : Packer) : (s.setPk pk).sink = s.sink := rfl

@[simp] theorem setLz_cfg (lz : Lzw) : (s.setLz lz).cfg = s.cfg := rfl
@[simp] theorem setLz_fault (lz : Lzw) : (s.setLz lz).fault = s.fault := rfl
@[simp] theorem setLz_cause (lz : Lzw) : (s.setLz lz).cause = s.cause := rfl
@[simp] theorem setLz_faultCmd (lz : Lzw) : (s.setLz lz).faultCmd = s.faultCmd := rfl
@[simp] theorem setLz_pk (lz : Lzw) : (s.setLz lz).pk = s.pk := rfl
@[simp] theorem setLz_lz (lz : Lzw) : (s.setLz lz).lz = lz := rfl
@[simp] theorem setLz_dt (lz : Lzw) : (s.setLz lz).dt = s.dt := rfl
@[simp] theorem setLz_pal (lz : Lzw) : (s.setLz lz).pal = s.pal := rfl
@[simp] theorem setLz_palPtr (lz : Lzw) : (s.setLz lz).palPtr = s.palPtr := rfl
@[simp] theorem setLz_ref (lz : Lzw) : (s.setLz lz).ref = s.ref := rfl
@[simp] theorem setLz_refPtr (lz : Lzw) : (s.setLz lz).refPtr = s.refPtr := rfl
@[simp] theorem setLz_dtWidth (lz : Lzw) : (s.setLz lz).dtWidth = s.dtWidth := rfl
@[simp] theorem setLz_dtHeight (lz : Lzw) : (s.setLz lz).dtHeight = s.dtHeight := rfl
@[simp] theorem setLz_out (lz : Lzw) : (s.setLz lz).out = s.out := rfl
@[simp] theorem setLz_pix (lz : Lzw) : (s.setLz lz).pix = s.pix := rfl
@[simp] theorem setLz_rsp (lz : Lzw) : (s.setLz lz).rsp = s.rsp := rfl
@[simp] theorem setLz_taken (lz : Lzw) : (s.setLz lz).taken = s.taken := rfl
@[simp] theorem setLz_port (lz : Lzw) : (s.setLz lz).port = s.port := rfl
@[simp] theorem setLz_host (lz : Lzw) : (s.setLz lz).host = s.host := rfl
@[simp] theorem setLz_sink (lz : Lzw) : (s.setLz lz).sink = s.sink := rfl

@[simp] theorem setDt_cfg (dt : Ditherer) : (s.setDt dt).cfg = s.cfg := rfl
@[simp] theorem setDt_fault (dt : Ditherer) : (s.setDt dt).fault = s.fault := rfl
@[simp] theorem setDt_cause (dt : Ditherer) : (s.setDt dt).cause = s.cause := rfl
@[simp] theorem setDt_faultCmd (dt : Ditherer) : (s.setDt dt).faultCmd = s.faultCmd := rfl
@[simp] theorem setDt_pk (dt : Ditherer) : (s.setDt dt).pk = s.pk := rfl
@[simp] theorem setDt_lz (dt : Ditherer) : (s.setDt dt).lz = s.lz := rfl
@[simp] theorem setDt_dt (dt : Ditherer) : (s.setDt dt).dt = dt := rfl
@[simp] theorem setDt_pal (dt : Ditherer) : (s.setDt dt).pal = s.pal := rfl
@[simp] theorem setDt_palPtr (dt : Ditherer) : (s.setDt dt).palPtr = s.palPtr := rfl
@[simp] theorem setDt_ref (dt : Ditherer) : (s.setDt dt).ref = s.ref := rfl
@[simp] theorem setDt_refPtr (dt : Ditherer) : (s.setDt dt).refPtr = s.refPtr := rfl
@[simp] theorem setDt_dtWidth (dt : Ditherer) : (s.setDt dt).dtWidth = s.dtWidth := rfl
@[simp] theorem setDt_dtHeight (dt : Ditherer) : (s.setDt dt).dtHeight = s.dtHeight := rfl
@[simp] theorem setDt_out (dt : Ditherer) : (s.setDt dt).out = s.out := rfl
@[simp] theorem setDt_pix (dt : Ditherer) : (s.setDt dt).pix = s.pix := rfl
@[simp] theorem setDt_rsp (dt : Ditherer) : (s.setDt dt).rsp = s.rsp := rfl
@[simp] theorem setDt_taken (dt : Ditherer) : (s.setDt dt).taken = s.taken := rfl
@[simp] theorem setDt_port (dt : Ditherer) : (s.setDt dt).port = s.port := rfl
@[simp] theorem setDt_host (dt : Ditherer) : (s.setDt dt).host = s.host := rfl
@[simp] theorem setDt_sink (dt : Ditherer) : (s.setDt dt).sink = s.sink := rfl

@[simp] theorem setPal_cfg (m : Memory Rgb) (q : BitVec 8) : (s.setPal m q).cfg = s.cfg := rfl
@[simp] theorem setPal_fault (m : Memory Rgb) (q : BitVec 8) : (s.setPal m q).fault = s.fault := rfl
@[simp] theorem setPal_cause (m : Memory Rgb) (q : BitVec 8) : (s.setPal m q).cause = s.cause := rfl
@[simp] theorem setPal_faultCmd (m : Memory Rgb) (q : BitVec 8) : (s.setPal m q).faultCmd = s.faultCmd := rfl
@[simp] theorem setPal_pk (m : Memory Rgb) (q : BitVec 8) : (s.setPal m q).pk = s.pk := rfl
@[simp] theorem setPal_lz (m : Memory Rgb) (q : BitVec 8) : (s.setPal m q).lz = s.lz := rfl
@[simp] theorem setPal_dt (m : Memory Rgb) (q : BitVec 8) : (s.setPal m q).dt = s.dt := rfl
@[simp] theorem setPal_pal (m : Memory Rgb) (q : BitVec 8) : (s.setPal m q).pal = m := rfl
@[simp] theorem setPal_palPtr (m : Memory Rgb) (q : BitVec 8) : (s.setPal m q).palPtr = q := rfl
@[simp] theorem setPal_ref (m : Memory Rgb) (q : BitVec 8) : (s.setPal m q).ref = s.ref := rfl
@[simp] theorem setPal_refPtr (m : Memory Rgb) (q : BitVec 8) : (s.setPal m q).refPtr = s.refPtr := rfl
@[simp] theorem setPal_dtWidth (m : Memory Rgb) (q : BitVec 8) : (s.setPal m q).dtWidth = s.dtWidth := rfl
@[simp] theorem setPal_dtHeight (m : Memory Rgb) (q : BitVec 8) : (s.setPal m q).dtHeight = s.dtHeight := rfl
@[simp] theorem setPal_out (m : Memory Rgb) (q : BitVec 8) : (s.setPal m q).out = s.out := rfl
@[simp] theorem setPal_pix (m : Memory Rgb) (q : BitVec 8) : (s.setPal m q).pix = s.pix := rfl
@[simp] theorem setPal_rsp (m : Memory Rgb) (q : BitVec 8) : (s.setPal m q).rsp = s.rsp := rfl
@[simp] theorem setPal_taken (m : Memory Rgb) (q : BitVec 8) : (s.setPal m q).taken = s.taken := rfl
@[simp] theorem setPal_port (m : Memory Rgb) (q : BitVec 8) : (s.setPal m q).port = s.port := rfl
@[simp] theorem setPal_host (m : Memory Rgb) (q : BitVec 8) : (s.setPal m q).host = s.host := rfl
@[simp] theorem setPal_sink (m : Memory Rgb) (q : BitVec 8) : (s.setPal m q).sink = s.sink := rfl

@[simp] theorem setRef_cfg (m : Memory Rgb) : (s.setRef m).cfg = s.cfg := rfl
@[simp] theorem setRef_fault (m : Memory Rgb) : (s.setRef m).fault = s.fault := rfl
@[simp] theorem setRef_cause (m : Memory Rgb) : (s.setRef m).cause = s.cause := rfl
@[simp] theorem setRef_faultCmd (m : Memory Rgb) : (s.setRef m).faultCmd = s.faultCmd := rfl
@[simp] theorem setRef_pk (m : Memory Rgb) : (s.setRef m).pk = s.pk := rfl
@[simp] theorem setRef_lz (m : Memory Rgb) : (s.setRef m).lz = s.lz := rfl
@[simp] theorem setRef_dt (m : Memory Rgb) : (s.setRef m).dt = s.dt := rfl
@[simp] theorem setRef_pal (m : Memory Rgb) : (s.setRef m).pal = s.pal := rfl
@[simp] theorem setRef_palPtr (m : Memory Rgb) : (s.setRef m).palPtr = s.palPtr := rfl
@[simp] theorem setRef_ref (m : Memory Rgb) : (s.setRef m).ref = m := rfl
@[simp] theorem setRef_refPtr (m : Memory Rgb) : (s.setRef m).refPtr = s.refPtr := rfl
@[simp] theorem setRef_dtWidth (m : Memory Rgb) : (s.setRef m).dtWidth = s.dtWidth := rfl
@[simp] theorem setRef_dtHeight (m : Memory Rgb) : (s.setRef m).dtHeight = s.dtHeight := rfl
@[simp] theorem setRef_out (m : Memory Rgb) : (s.setRef m).out = s.out := rfl
@[simp] theorem setRef_pix (m : Memory Rgb) : (s.setRef m).pix = s.pix := rfl
@[simp] theorem setRef_rsp (m : Memory Rgb) : (s.setRef m).rsp = s.rsp := rfl
@[simp] theorem setRef_taken (m : Memory Rgb) : (s.setRef m).taken = s.taken := rfl
@[simp] theorem setRef_port (m : Memory Rgb) : (s.setRef m).port = s.port := rfl
@[simp] theorem setRef_host (m : Memory Rgb) : (s.setRef m).host = s.host := rfl
@[simp] theorem setRef_sink (m : Memory Rgb) : (s.setRef m).sink = s.sink := rfl

@[simp] theorem setRefPtr_cfg (q : BitVec 24) : (s.setRefPtr q).cfg = s.cfg := rfl
@[simp] theorem setRefPtr_fault (q : BitVec 24) : (s.setRefPtr q).fault = s.fault := rfl
@[simp] theorem setRefPtr_cause (q : BitVec 24) : (s.setRefPtr q).cause = s.cause := rfl
@[simp] theorem setRefPtr_faultCmd (q : BitVec 24) : (s.setRefPtr q).faultCmd = s.faultCmd := rfl
@[simp] theorem setRefPtr_pk (q : BitVec 24) : (s.setRefPtr q).pk = s.pk := rfl
@[simp] theorem setRefPtr_lz (q : BitVec 24) : (s.setRefPtr q).lz = s.lz := rfl
@[simp] theorem setRefPtr_dt (q : BitVec 24) : (s.setRefPtr q).dt = s.dt := rfl
@[simp] theorem setRefPtr_pal (q : BitVec 24) : (s.setRefPtr q).pal = s.pal := rfl
@[simp] theorem setRefPtr_palPtr (q : BitVec 24) : (s.setRefPtr q).palPtr = s.palPtr := rfl
@[simp] theorem setRefPtr_ref (q : BitVec 24) : (s.setRefPtr q).ref = s.ref := rfl
@[simp] theorem setRefPtr_refPtr (q : BitVec 24) : (s.setRefPtr q).refPtr = q := rfl
@[simp] theorem setRefPtr_dtWidth (q : BitVec 24) : (s.setRefPtr q).dtWidth = s.dtWidth := rfl
@[simp] theorem setRefPtr_dtHeight (q : BitVec 24) : (s.setRefPtr q).dtHeight = s.dtHeight := rfl
@[simp] theorem setRefPtr_out (q : BitVec 24) : (s.setRefPtr q).out = s.out := rfl
@[simp] theorem setRefPtr_pix (q : BitVec 24) : (s.setRefPtr q).pix = s.pix := rfl
@[simp] theorem setRefPtr_rsp (q : BitVec 24) : (s.setRefPtr q).rsp = s.rsp := rfl
@[simp] theorem setRefPtr_taken (q : BitVec 24) : (s.setRefPtr q).taken = s.taken := rfl
@[simp] theorem setRefPtr_port (q : BitVec 24) : (s.setRefPtr q).port = s.port := rfl
@[simp] theorem setRefPtr_host (q : BitVec 24) : (s.setRefPtr q).host = s.host := rfl
@[simp] theorem setRefPtr_sink (q : BitVec 24) : (s.setRefPtr q).sink = s.sink := rfl

@[simp] theorem addOut_cfg (bs : List Byte) : (s.addOut bs).cfg = s.cfg := rfl
@[simp] theorem addOut_fault (bs : List Byte) : (s.addOut bs).fault = s.fault := rfl
@[simp] theorem addOut_cause (bs : List Byte) : (s.addOut bs).cause = s.cause := rfl
@[simp] theorem addOut_faultCmd (bs : List Byte) : (s.addOut bs).faultCmd = s.faultCmd := rfl
@[simp] theorem addOut_pk (bs : List Byte) : (s.addOut bs).pk = s.pk := rfl
@[simp] theorem addOut_lz (bs : List Byte) : (s.addOut bs).lz = s.lz := rfl
@[simp] theorem addOut_dt (bs : List Byte) : (s.addOut bs).dt = s.dt := rfl
@[simp] theorem addOut_pal (bs : List Byte) : (s.addOut bs).pal = s.pal := rfl
@[simp] theorem addOut_palPtr (bs : List Byte) : (s.addOut bs).palPtr = s.palPtr := rfl
@[simp] theorem addOut_ref (bs : List Byte) : (s.addOut bs).ref = s.ref := rfl
@[simp] theorem addOut_refPtr (bs : List Byte) : (s.addOut bs).refPtr = s.refPtr := rfl
@[simp] theorem addOut_dtWidth (bs : List Byte) : (s.addOut bs).dtWidth = s.dtWidth := rfl
@[simp] theorem addOut_dtHeight (bs : List Byte) : (s.addOut bs).dtHeight = s.dtHeight := rfl
@[simp] theorem addOut_out (bs : List Byte) : (s.addOut bs).out = s.out ++ bs := rfl
@[simp] theorem addOut_pix (bs : List Byte) : (s.addOut bs).pix = s.pix := rfl
@[simp] theorem addOut_rsp (bs : List Byte) : (s.addOut bs).rsp = s.rsp := rfl
@[simp] theorem addOut_taken (bs : List Byte) : (s.addOut bs).taken = s.taken := rfl
@[simp] theorem addOut_port (bs : List Byte) : (s.addOut bs).port = s.port := rfl
@[simp] theorem addOut_host (bs : List Byte) : (s.addOut bs).host = s.host := rfl
@[simp] theorem addOut_sink (bs : List Byte) : (s.addOut bs).sink = s.sink := rfl

@[simp] theorem addPix_cfg (w : Word) : (s.addPix w).cfg = s.cfg := rfl
@[simp] theorem addPix_fault (w : Word) : (s.addPix w).fault = s.fault := rfl
@[simp] theorem addPix_cause (w : Word) : (s.addPix w).cause = s.cause := rfl
@[simp] theorem addPix_faultCmd (w : Word) : (s.addPix w).faultCmd = s.faultCmd := rfl
@[simp] theorem addPix_pk (w : Word) : (s.addPix w).pk = s.pk := rfl
@[simp] theorem addPix_lz (w : Word) : (s.addPix w).lz = s.lz := rfl
@[simp] theorem addPix_dt (w : Word) : (s.addPix w).dt = s.dt := rfl
@[simp] theorem addPix_pal (w : Word) : (s.addPix w).pal = s.pal := rfl
@[simp] theorem addPix_palPtr (w : Word) : (s.addPix w).palPtr = s.palPtr := rfl
@[simp] theorem addPix_ref (w : Word) : (s.addPix w).ref = s.ref := rfl
@[simp] theorem addPix_refPtr (w : Word) : (s.addPix w).refPtr = s.refPtr := rfl
@[simp] theorem addPix_dtWidth (w : Word) : (s.addPix w).dtWidth = s.dtWidth := rfl
@[simp] theorem addPix_dtHeight (w : Word) : (s.addPix w).dtHeight = s.dtHeight := rfl
@[simp] theorem addPix_out (w : Word) : (s.addPix w).out = s.out := rfl
@[simp] theorem addPix_pix (w : Word) : (s.addPix w).pix = s.pix ++ [w] := rfl
@[simp] theorem addPix_rsp (w : Word) : (s.addPix w).rsp = s.rsp := rfl
@[simp] theorem addPix_taken (w : Word) : (s.addPix w).taken = s.taken := rfl
@[simp] theorem addPix_port (w : Word) : (s.addPix w).port = s.port := rfl
@[simp] theorem addPix_host (w : Word) : (s.addPix w).host = s.host := rfl
@[simp] theorem addPix_sink (w : Word) : (s.addPix w).sink = s.sink := rfl

@[simp] theorem addRsp_cfg (w : Word) : (s.addRsp w).cfg = s.cfg := rfl
@[simp] theorem addRsp_fault (w : Word) : (s.addRsp w).fault = s.fault := rfl
@[simp] theorem addRsp_cause (w : Word) : (s.addRsp w).cause = s.cause := rfl
@[simp] theorem addRsp_faultCmd (w : Word) : (s.addRsp w).faultCmd = s.faultCmd := rfl
@[simp] theorem addRsp_pk (w : Word) : (s.addRsp w).pk = s.pk := rfl
@[simp] theorem addRsp_lz (w : Word) : (s.addRsp w).lz = s.lz := rfl
@[simp] theorem addRsp_dt (w : Word) : (s.addRsp w).dt = s.dt := rfl
@[simp] theorem addRsp_pal (w : Word) : (s.addRsp w).pal = s.pal := rfl
@[simp] theorem addRsp_palPtr (w : Word) : (s.addRsp w).palPtr = s.palPtr := rfl
@[simp] theorem addRsp_ref (w : Word) : (s.addRsp w).ref = s.ref := rfl
@[simp] theorem addRsp_refPtr (w : Word) : (s.addRsp w).refPtr = s.refPtr := rfl
@[simp] theorem addRsp_dtWidth (w : Word) : (s.addRsp w).dtWidth = s.dtWidth := rfl
@[simp] theorem addRsp_dtHeight (w : Word) : (s.addRsp w).dtHeight = s.dtHeight := rfl
@[simp] theorem addRsp_out (w : Word) : (s.addRsp w).out = s.out := rfl
@[simp] theorem addRsp_pix (w : Word) : (s.addRsp w).pix = s.pix := rfl
@[simp] theorem addRsp_rsp (w : Word) : (s.addRsp w).rsp = s.rsp ++ [w] := rfl
@[simp] theorem addRsp_taken (w : Word) : (s.addRsp w).taken = s.taken := rfl
@[simp] theorem addRsp_port (w : Word) : (s.addRsp w).port = s.port := rfl
@[simp] theorem addRsp_host (w : Word) : (s.addRsp w).host = s.host := rfl
@[simp] theorem addRsp_sink (w : Word) : (s.addRsp w).sink = s.sink := rfl

@[simp] theorem setTaken_cfg (tk : Taken) : (s.setTaken tk).cfg = s.cfg := rfl
@[simp] theorem setTaken_fault (tk : Taken) : (s.setTaken tk).fault = s.fault := rfl
@[simp] theorem setTaken_cause (tk : Taken) : (s.setTaken tk).cause = s.cause := rfl
@[simp] theorem setTaken_faultCmd (tk : Taken) : (s.setTaken tk).faultCmd = s.faultCmd := rfl
@[simp] theorem setTaken_pk (tk : Taken) : (s.setTaken tk).pk = s.pk := rfl
@[simp] theorem setTaken_lz (tk : Taken) : (s.setTaken tk).lz = s.lz := rfl
@[simp] theorem setTaken_dt (tk : Taken) : (s.setTaken tk).dt = s.dt := rfl
@[simp] theorem setTaken_pal (tk : Taken) : (s.setTaken tk).pal = s.pal := rfl
@[simp] theorem setTaken_palPtr (tk : Taken) : (s.setTaken tk).palPtr = s.palPtr := rfl
@[simp] theorem setTaken_ref (tk : Taken) : (s.setTaken tk).ref = s.ref := rfl
@[simp] theorem setTaken_refPtr (tk : Taken) : (s.setTaken tk).refPtr = s.refPtr := rfl
@[simp] theorem setTaken_dtWidth (tk : Taken) : (s.setTaken tk).dtWidth = s.dtWidth := rfl
@[simp] theorem setTaken_dtHeight (tk : Taken) : (s.setTaken tk).dtHeight = s.dtHeight := rfl
@[simp] theorem setTaken_out (tk : Taken) : (s.setTaken tk).out = s.out := rfl
@[simp] theorem setTaken_pix (tk : Taken) : (s.setTaken tk).pix = s.pix := rfl
@[simp] theorem setTaken_rsp (tk : Taken) : (s.setTaken tk).rsp = s.rsp := rfl
@[simp] theorem setTaken_taken (tk : Taken) : (s.setTaken tk).taken = tk := rfl
@[simp] theorem setTaken_port (tk : Taken) : (s.setTaken tk).port = s.port := rfl
@[simp] theorem setTaken_host (tk : Taken) : (s.setTaken tk).host = s.host := rfl
@[simp] theorem setTaken_sink (tk : Taken) : (s.setTaken tk).sink = s.sink := rfl

@[simp] theorem setSink_cfg (k : Option Nat) : (s.setSink k).cfg = s.cfg := rfl
@[simp] theorem setSink_fault (k : Option Nat) : (s.setSink k).fault = s.fault := rfl
@[simp] theorem setSink_cause (k : Option Nat) : (s.setSink k).cause = s.cause := rfl
@[simp] theorem setSink_faultCmd (k : Option Nat) : (s.setSink k).faultCmd = s.faultCmd := rfl
@[simp] theorem setSink_pk (k : Option Nat) : (s.setSink k).pk = s.pk := rfl
@[simp] theorem setSink_lz (k : Option Nat) : (s.setSink k).lz = s.lz := rfl
@[simp] theorem setSink_dt (k : Option Nat) : (s.setSink k).dt = s.dt := rfl
@[simp] theorem setSink_pal (k : Option Nat) : (s.setSink k).pal = s.pal := rfl
@[simp] theorem setSink_palPtr (k : Option Nat) : (s.setSink k).palPtr = s.palPtr := rfl
@[simp] theorem setSink_ref (k : Option Nat) : (s.setSink k).ref = s.ref := rfl
@[simp] theorem setSink_refPtr (k : Option Nat) : (s.setSink k).refPtr = s.refPtr := rfl
@[simp] theorem setSink_dtWidth (k : Option Nat) : (s.setSink k).dtWidth = s.dtWidth := rfl
@[simp] theorem setSink_dtHeight (k : Option Nat) : (s.setSink k).dtHeight = s.dtHeight := rfl
@[simp] theorem setSink_out (k : Option Nat) : (s.setSink k).out = s.out := rfl
@[simp] theorem setSink_pix (k : Option Nat) : (s.setSink k).pix = s.pix := rfl
@[simp] theorem setSink_rsp (k : Option Nat) : (s.setSink k).rsp = s.rsp := rfl
@[simp] theorem setSink_taken (k : Option Nat) : (s.setSink k).taken = s.taken := rfl
@[simp] theorem setSink_port (k : Option Nat) : (s.setSink k).port = s.port := rfl
@[simp] theorem setSink_host (k : Option Nat) : (s.setSink k).host = s.host := rfl
@[simp] theorem setSink_sink (k : Option Nat) : (s.setSink k).sink = k := rfl

@[simp] theorem setPort_cfg (ws : List Word) : (s.setPort ws).cfg = s.cfg := rfl
@[simp] theorem setPort_fault (ws : List Word) : (s.setPort ws).fault = s.fault := rfl
@[simp] theorem setPort_cause (ws : List Word) : (s.setPort ws).cause = s.cause := rfl
@[simp] theorem setPort_faultCmd (ws : List Word) : (s.setPort ws).faultCmd = s.faultCmd := rfl
@[simp] theorem setPort_pk (ws : List Word) : (s.setPort ws).pk = s.pk := rfl
@[simp] theorem setPort_lz (ws : List Word) : (s.setPort ws).lz = s.lz := rfl
@[simp] theorem setPort_dt (ws : List Word) : (s.setPort ws).dt = s.dt := rfl
@[simp] theorem setPort_pal (ws : List Word) : (s.setPort ws).pal = s.pal := rfl
@[simp] theorem setPort_palPtr (ws : List Word) : (s.setPort ws).palPtr = s.palPtr := rfl
@[simp] theorem setPort_ref (ws : List Word) : (s.setPort ws).ref = s.ref := rfl
@[simp] theorem setPort_refPtr (ws : List Word) : (s.setPort ws).refPtr = s.refPtr := rfl
@[simp] theorem setPort_dtWidth (ws : List Word) : (s.setPort ws).dtWidth = s.dtWidth := rfl
@[simp] theorem setPort_dtHeight (ws : List Word) : (s.setPort ws).dtHeight = s.dtHeight := rfl
@[simp] theorem setPort_out (ws : List Word) : (s.setPort ws).out = s.out := rfl
@[simp] theorem setPort_pix (ws : List Word) : (s.setPort ws).pix = s.pix := rfl
@[simp] theorem setPort_rsp (ws : List Word) : (s.setPort ws).rsp = s.rsp := rfl
@[simp] theorem setPort_taken (ws : List Word) : (s.setPort ws).taken = s.taken := rfl
@[simp] theorem setPort_port (ws : List Word) : (s.setPort ws).port = ws := rfl
@[simp] theorem setPort_host (ws : List Word) : (s.setPort ws).host = s.host := rfl
@[simp] theorem setPort_sink (ws : List Word) : (s.setPort ws).sink = s.sink := rfl

@[simp] theorem setHost_cfg (acts : List HostAction) : (s.setHost acts).cfg = s.cfg := rfl
@[simp] theorem setHost_fault (acts : List HostAction) : (s.setHost acts).fault = s.fault := rfl
@[simp] theorem setHost_cause (acts : List HostAction) : (s.setHost acts).cause = s.cause := rfl
@[simp] theorem setHost_faultCmd (acts : List HostAction) : (s.setHost acts).faultCmd = s.faultCmd := rfl
@[simp] theorem setHost_pk (acts : List HostAction) : (s.setHost acts).pk = s.pk := rfl
@[simp] theorem setHost_lz (acts : List HostAction) : (s.setHost acts).lz = s.lz := rfl
@[simp] theorem setHost_dt (acts : List HostAction) : (s.setHost acts).dt = s.dt := rfl
@[simp] theorem setHost_pal (acts : List HostAction) : (s.setHost acts).pal = s.pal := rfl
@[simp] theorem setHost_palPtr (acts : List HostAction) : (s.setHost acts).palPtr = s.palPtr := rfl
@[simp] theorem setHost_ref (acts : List HostAction) : (s.setHost acts).ref = s.ref := rfl
@[simp] theorem setHost_refPtr (acts : List HostAction) : (s.setHost acts).refPtr = s.refPtr := rfl
@[simp] theorem setHost_dtWidth (acts : List HostAction) : (s.setHost acts).dtWidth = s.dtWidth := rfl
@[simp] theorem setHost_dtHeight (acts : List HostAction) : (s.setHost acts).dtHeight = s.dtHeight := rfl
@[simp] theorem setHost_out (acts : List HostAction) : (s.setHost acts).out = s.out := rfl
@[simp] theorem setHost_pix (acts : List HostAction) : (s.setHost acts).pix = s.pix := rfl
@[simp] theorem setHost_rsp (acts : List HostAction) : (s.setHost acts).rsp = s.rsp := rfl
@[simp] theorem setHost_taken (acts : List HostAction) : (s.setHost acts).taken = s.taken := rfl
@[simp] theorem setHost_port (acts : List HostAction) : (s.setHost acts).port = s.port := rfl
@[simp] theorem setHost_host (acts : List HostAction) : (s.setHost acts).host = acts := rfl
@[simp] theorem setHost_sink (acts : List HostAction) : (s.setHost acts).sink = s.sink := rfl

end Sys2Proof.Machine.State
end

