-- ==== Sys2Proof/Laws/Ops.lean ====
section
/-! SUPPORT. What the shared operations do: appending to a stream, going on with the pseudocode, and how a command ends. -/

namespace Sys2Proof.Machine

/-! ### Flows -/

@[simp] theorem Flow.go_andThen (s : State) (k : State → Flow) : (Flow.go s).andThen k = k s := rfl
@[simp] theorem Flow.raise_andThen (c : Cause) (k : State → Flow) : (Flow.raise c).andThen k = .raise c := rfl
@[simp] theorem Flow.stop_andThen (s : State) (k : State → Flow) : (Flow.stop s).andThen k = .stop s := rfl
@[simp] theorem Flow.broken_andThen (x : Fault) (k : State → Flow) : (Flow.broken x).andThen k = .broken x := rfl

theorem Flow.andThen_assoc (f : Flow) (k l : State → Flow) :
    (f.andThen k).andThen l = f.andThen fun s => (k s).andThen l := by cases f <;> rfl

/-- A flow that goes on from a state was two that did. -/
theorem Flow.andThen_eq_go {f : Flow} {k : State → Flow} {t : State} (h : f.andThen k = .go t) :
    ∃ u, f = .go u ∧ k u = .go t := by
  cases f with
  | go u => exact ⟨u, rfl, h⟩
  | raise c => cases h
  | stop u => cases h
  | broken x => cases h

/-- Every state a flow goes on from, or is stopped in, stands in a relation. -/
def Flow.All (f : Flow) (P : State → Prop) : Prop :=
  match f with
  | .go s => P s
  | .stop s => P s
  | .raise _ => True
  | .broken _ => True

@[simp] theorem Flow.all_go (s : State) (P : State → Prop) : (Flow.go s).All P ↔ P s := Iff.rfl
@[simp] theorem Flow.all_stop (s : State) (P : State → Prop) : (Flow.stop s).All P ↔ P s := Iff.rfl
@[simp] theorem Flow.all_raise (c : Cause) (P : State → Prop) : (Flow.raise c).All P ↔ True := Iff.rfl
@[simp] theorem Flow.all_broken (x : Fault) (P : State → Prop) : (Flow.broken x).All P ↔ True := Iff.rfl

theorem Flow.All.mono {f : Flow} {P Q : State → Prop} (h : f.All P) (hPQ : ∀ t, P t → Q t) : f.All Q := by
  cases f with
  | go s => exact hPQ s h
  | stop s => exact hPQ s h
  | raise c => trivial
  | broken x => trivial

/-- A property that holds where the first flow ends holds where the whole ends, if the rest keeps it. -/
theorem Flow.All.andThen {f : Flow} {k : State → Flow} {P : State → Prop} (hf : f.All P)
    (hk : ∀ t, P t → (k t).All P) : (f.andThen k).All P := by
  cases f with
  | go s => exact hk s hf
  | stop s => exact hf
  | raise c => trivial
  | broken x => trivial

/-- A flow raises no cause outside a list. -/
def Flow.RaisesIn (f : Flow) (cs : List Cause) : Prop := ∀ c, f = .raise c → c ∈ cs

@[simp] theorem Flow.raisesIn_go (s : State) (cs : List Cause) : (Flow.go s).RaisesIn cs := by
  intro c h
  cases h
@[simp] theorem Flow.raisesIn_stop (s : State) (cs : List Cause) : (Flow.stop s).RaisesIn cs := by
  intro c h
  cases h
@[simp] theorem Flow.raisesIn_broken (x : Fault) (cs : List Cause) : (Flow.broken x).RaisesIn cs := by
  intro c h
  cases h
@[simp] theorem Flow.raisesIn_raise (c : Cause) (cs : List Cause) : (Flow.raise c).RaisesIn cs ↔ c ∈ cs := by
  constructor
  · exact fun h => h c rfl
  · intro h d hd
    cases hd
    exact h

theorem Flow.RaisesIn.mono {f : Flow} {cs ds : List Cause} (h : f.RaisesIn cs) (hsub : cs ⊆ ds) : f.RaisesIn ds :=
  fun c hc => hsub (h c hc)

theorem Flow.RaisesIn.andThen {f : Flow} {k : State → Flow} {cs : List Cause} (hf : f.RaisesIn cs)
    (hk : ∀ t, f = .go t → (k t).RaisesIn cs) : (f.andThen k).RaisesIn cs := by
  cases f with
  | go s => exact hk s rfl
  | stop s => exact Flow.raisesIn_stop s cs
  | raise c => exact hf
  | broken x => exact Flow.raisesIn_broken x cs

/-! ### Append points -/

/-- An append point raises nothing. -/
theorem appendPoint_raisesIn (s t : State) (cs : List Cause) : (appendPoint s t).RaisesIn cs := by
  unfold appendPoint
  split
  · simp
  · split <;> simp

theorem appendPoint_quiet {s : State} (h : s.sink = none) (t : State) : appendPoint s t = .go t := by
  unfold appendPoint
  rw [h]
  split <;> rfl

theorem emitOut_quiet {s : State} (h : s.sink = none) (b : Byte) : emitOut b s = .go (s.addOut [b]) :=
  appendPoint_quiet h _

theorem addOut_addOut (s : State) (bs cs : List Byte) : (s.addOut bs).addOut cs = s.addOut (bs ++ cs) := by
  simp [State.addOut]

@[simp] theorem addOut_nil (s : State) : s.addOut [] = s := by simp [State.addOut]

/-- With no sink-error event, emitting bytes appends them all. -/
theorem emitOuts_quiet (bs : List Byte) {s : State} (h : s.sink = none) : emitOuts bs s = .go (s.addOut bs) := by
  induction bs generalizing s with
  | nil => simp [emitOuts]
  | cons b bs ih => simp [emitOuts, emitOut_quiet h, ih (s := s.addOut [b]) h, addOut_addOut]

theorem emitPix_quiet {s : State} (h : s.sink = none) (w : Word) : emitPix w s = .go (s.addPix w) :=
  appendPoint_quiet h _

theorem emitRsp_quiet {s : State} (h : s.sink = none) (w : Word) : emitRsp w s = .go (s.addRsp w) :=
  appendPoint_quiet h _

/-- Where an append point ends: with the element appended, or stopped as it stood. -/
theorem appendPoint_all {s t : State} {P : State → Prop} (hs : P s) (ht : ∀ k, P (t.setSink k)) :
    (appendPoint s t).All P := by
  unfold appendPoint
  split
  · exact ht t.sink
  · split
    · exact ht t.sink
    · exact hs
    · exact ht _

/-! ### How a command ends -/

@[simp] theorem conclude_go (s₀ : State) (w : Word) (s : State) : conclude s₀ w (.go s) = .next s := rfl
@[simp] theorem conclude_raise (s₀ : State) (w : Word) (c : Cause) :
    conclude s₀ w (.raise c) = .next (takeFault c w s₀) := rfl
@[simp] theorem conclude_stop (s₀ : State) (w : Word) (s : State) :
    conclude s₀ w (.stop s) = .next (takeSinkError w s) := rfl
@[simp] theorem conclude_broken (s₀ : State) (w : Word) (x : Fault) : conclude s₀ w (.broken x) = .fault x := rfl

theorem command_of_not_fault {s : State} (h : s.fault = false) (i : Instr) (body : State → Flow) :
    command i s body = conclude s (encode i) (body s) := by simp [command, h]

theorem command_of_fault {s : State} (h : s.fault = true) (i : Instr) (body : State → Flow) :
    command i s body = .next s := by simp [command, h]

/-- Everything a command can answer with a next state. -/
theorem command_cases {i : Instr} {s t : State} {body : State → Flow} (h : command i s body = .next t) :
    (s.fault = true ∧ t = s) ∨
      (s.fault = false ∧ (body s = .go t ∨ (∃ c, body s = .raise c ∧ t = takeFault c (encode i) s) ∨
        ∃ u, body s = .stop u ∧ t = takeSinkError (encode i) u)) := by
  cases hf : s.fault with
  | true =>
    rw [command_of_fault hf] at h
    cases h
    exact .inl ⟨rfl, rfl⟩
  | false =>
    rw [command_of_not_fault hf] at h
    refine .inr ⟨rfl, ?_⟩
    cases hb : body s with
    | go u =>
      rw [hb] at h
      cases h
      exact .inl rfl
    | raise c =>
      rw [hb] at h
      cases h
      exact .inr (.inl ⟨c, rfl, rfl⟩)
    | stop u =>
      rw [hb] at h
      cases h
      exact .inr (.inr ⟨u, rfl, rfl⟩)
    | broken x =>
      rw [hb] at h
      cases h

/-! ### The word of a command -/

/-- The operation of a command's word (R80). -/
theorem opField_encode (i : Instr) : opField (encode i) = opcodeOf i := by
  simp only [opField, encode]
  exact BitVec.extractLsb'_append_eq_left

/-- Only `REG_READ` answers a fault on RSP (R214, R220). -/
theorem takeFault_encode_of_ne {i : Instr} (h : opcodeOf i ≠ 0xB#4) (c : Cause) (s : State) :
    takeFault c (encode i) s = s.setFault c (encode i) := by
  simp [takeFault, opField_encode, h]

theorem takeFault_encode_regRead (reg : BitVec 4) (c : Cause) (s : State) :
    takeFault c (encode (.regRead reg)) s = (s.setFault c (encode (.regRead reg))).addRsp 0#32 := by
  simp [takeFault, opField_encode, opcodeOf]

end Sys2Proof.Machine
end

