-- ==== Sys2Proof/Laws/Packer.lean ====
section
/-! SUPPORT. What the packer's operations do: the bits they append, what they leave alone, and that they end. -/

namespace Sys2Proof.Machine

/-! ### Bits -/

/-- Which bit `put_bit` sets (R100). -/
theorem getLsbD_putBit (acc : Byte) (b : Bool) (i j : Nat) (hi : i < 8) (h : acc.toNat < 2 ^ i) (hj : j ≤ i) :
    (acc ||| ((BitVec.ofBool b).setWidth 8 <<< i)).getLsbD j = if j = i then b else acc.getLsbD j := by
  have hacc : acc.getLsbD i = false := by
    rw [BitVec.getLsbD, Nat.testBit_lt_two_pow h]
  by_cases hji : j = i
  · subst hji
    rw [BitVec.getLsbD_or, hacc]
    cases b <;> simp [hi]
  · have : j < i := by omega
    simp [hji, this]

theorem toNat_putBit (acc : Byte) (b : Bool) (i : Nat) (h : acc.toNat < 2 ^ i) :
    (acc ||| ((BitVec.ofBool b).setWidth 8 <<< i)).toNat < 2 ^ (i + 1) := by
  have h1 : acc.toNat < 2 ^ (i + 1) := Nat.lt_of_lt_of_le h (Nat.pow_le_pow_right (by omega) (by omega))
  have hb : ((BitVec.ofBool b).setWidth 8 <<< i).toNat < 2 ^ (i + 1) := by
    rw [BitVec.toNat_shiftLeft]
    refine Nat.lt_of_le_of_lt (Nat.mod_le _ _) ?_
    rw [Nat.shiftLeft_eq, Nat.pow_succ]
    have : ((BitVec.ofBool b).setWidth 8).toNat ≤ 1 := by cases b <;> simp
    have hp : 0 < 2 ^ i := Nat.two_pow_pos i
    nlinarith
  rw [BitVec.toNat_or]
  exact Nat.or_lt_two_pow h1 hb

@[simp] theorem length_byteBits (b : Byte) : (byteBits b).length = 8 := by simp [byteBits]

/-- The first bits of a byte, one by one. -/
theorem take_byteBits (b : Byte) {n : Nat} (h : n ≤ 8) : (byteBits b).take n = (List.range n).map b.getLsbD := by
  apply List.ext_getElem
  · simp [h]
  · intro i h1 h2
    simp [byteBits]

theorem take_byteBits_putBit (acc : Byte) (b : Bool) (i : Nat) (hi : i < 8) (h : acc.toNat < 2 ^ i) :
    (byteBits (acc ||| ((BitVec.ofBool b).setWidth 8 <<< i))).take (i + 1) = (byteBits acc).take i ++ [b] := by
  rw [take_byteBits _ (by omega), take_byteBits _ (by omega), List.range_succ, List.map_append]
  congr 1
  · apply List.map_congr_left
    intro j hj
    have := List.mem_range.1 hj
    rw [getLsbD_putBit acc b i j hi h (by omega), if_neg (by omega)]
  · simp only [List.map_cons, List.map_nil]
    rw [getLsbD_putBit acc b i i hi h (by omega), if_pos rfl]

/-! ### Appending -/

theorem onOut_append (a b : List (List Byte)) : onOut (a ++ b) = onOut a ++ onOut b := by simp [onOut]

@[simp] theorem onOut_nil : onOut [] = [] := rfl

theorem Appends.refl {s : State} (h : s.pk.ok) : Appends s s [] :=
  ⟨[], by simp, by simp, by simp, h⟩

theorem Appends.trans {s t u : State} {a b : List Bool} (h1 : Appends s t a) (h2 : Appends t u b) :
    Appends s u (a ++ b) := by
  obtain ⟨x, hx, hox, hbx, -⟩ := h1
  obtain ⟨y, hy, hoy, hby, hok⟩ := h2
  refine ⟨x ++ y, ?_, ?_, ?_, hok⟩
  · intro d hd
    rcases List.mem_append.1 hd with h | h
    · exact hx d h
    · exact hy d h
  · rw [hoy, hox, onOut_append, List.append_assoc]
  · rw [List.flatten_append, List.flatMap_append, List.append_assoc, hby, ← List.append_assoc, hbx, List.append_assoc]

/-- What bit operations may change: the packer, OUT, and how far the sink-error event has come. -/
def PackerStep (s t : State) : Prop := t = { s with pk := t.pk, out := t.out, sink := t.sink }

theorem PackerStep.refl (s : State) : PackerStep s s := rfl

theorem PackerStep.trans {s t u : State} (h1 : PackerStep s t) (h2 : PackerStep t u) : PackerStep s u := by
  unfold PackerStep at *
  rw [h2, h1]

theorem packerStep_setPk (s : State) (pk : Packer) : PackerStep s (s.setPk pk) := rfl

theorem emitOuts_all (bs : List Byte) (s : State) : (emitOuts bs s).All (PackerStep s) := by
  induction bs generalizing s with
  | nil => exact PackerStep.refl s
  | cons b bs ih =>
    refine Flow.All.andThen ?_ fun t ht => (ih t).mono fun u hu => ht.trans hu
    exact appendPoint_all (PackerStep.refl s) fun k => rfl

theorem completeByte_all (b : Byte) (s : State) : (completeByte b s).All (PackerStep s) := by
  unfold completeByte
  simp only
  split
  · trivial
  · split
    · refine Flow.All.andThen ((emitOuts_all _ _).mono fun t ht => (packerStep_setPk s _).trans ht) fun t ht => ?_
      exact ht.trans (packerStep_setPk t _)
    · exact packerStep_setPk s _

theorem putBit_all (b : Bool) (s : State) : (putBit b s).All (PackerStep s) := by
  unfold putBit
  simp only
  split
  · exact completeByte_all _ s
  · exact packerStep_setPk s _

theorem putBits_all (bs : List Bool) (s : State) : (putBits bs s).All (PackerStep s) := by
  induction bs generalizing s with
  | nil => exact PackerStep.refl s
  | cons b bs ih => exact Flow.All.andThen (putBit_all b s) fun t ht => (ih t).mono fun u hu => ht.trans hu

theorem writeCode_all (v : BitVec 16) (n : Nat) (s : State) : (writeCode v n s).All (PackerStep s) := putBits_all _ s

theorem padLoop_all (fuel : Nat) (s : State) : (padLoop fuel s).All (PackerStep s) := by
  induction fuel generalizing s with
  | zero => exact PackerStep.refl s
  | succ fuel ih =>
    unfold padLoop
    split
    · exact PackerStep.refl s
    · exact Flow.All.andThen (putBit_all _ s) fun t ht => (ih t).mono fun u hu => ht.trans hu

theorem pad_all (s : State) : (pad s).All (PackerStep s) := padLoop_all 8 s

theorem flush_all (s : State) : (flush s).All (PackerStep s) := by
  unfold flush
  split
  · trivial
  · split
    · exact PackerStep.refl s
    · exact Flow.All.andThen (emitOuts_all _ s) fun t ht => ht.trans (packerStep_setPk t _)

/-! ### What they raise -/

theorem emitOuts_raisesIn (bs : List Byte) (s : State) (cs : List Cause) : (emitOuts bs s).RaisesIn cs := by
  induction bs generalizing s with
  | nil => exact Flow.raisesIn_go s cs
  | cons b bs ih => exact Flow.RaisesIn.andThen (appendPoint_raisesIn _ _ cs) fun t _ => ih t

theorem putBit_raisesIn (b : Bool) (s : State) : (putBit b s).RaisesIn [.subblockOverrun] := by
  unfold putBit completeByte
  simp only
  split
  · split
    · simp
    · split
      · exact Flow.RaisesIn.andThen (emitOuts_raisesIn _ _ _) fun t _ => by simp
      · simp
  · simp

theorem putBits_raisesIn (bs : List Bool) (s : State) : (putBits bs s).RaisesIn [.subblockOverrun] := by
  induction bs generalizing s with
  | nil => exact Flow.raisesIn_go s _
  | cons b bs ih => exact Flow.RaisesIn.andThen (putBit_raisesIn b s) fun t _ => ih t

theorem writeCode_raisesIn (v : BitVec 16) (n : Nat) (s : State) : (writeCode v n s).RaisesIn [.subblockOverrun] :=
  putBits_raisesIn _ s

theorem padLoop_raisesIn (fuel : Nat) (s : State) : (padLoop fuel s).RaisesIn [.subblockOverrun] := by
  induction fuel generalizing s with
  | zero => exact Flow.raisesIn_go s _
  | succ fuel ih =>
    unfold padLoop
    split
    · simp
    · exact Flow.RaisesIn.andThen (putBit_raisesIn _ s) fun t _ => ih t

theorem pad_raisesIn (s : State) : (pad s).RaisesIn [.subblockOverrun] := padLoop_raisesIn 8 s

theorem flush_raisesIn (s : State) : (flush s).RaisesIn [.pkFlushPartial] := by
  unfold flush
  split
  · simp
  · split
    · simp
    · exact Flow.RaisesIn.andThen (emitOuts_raisesIn _ _ _) fun t _ => by simp

/-- At a byte boundary `flush()` raises nothing. -/
theorem flush_raisesIn_nil {s : State} (h : s.pk.bitIdx = 0#3) : (flush s).RaisesIn [] := by
  unfold flush
  rw [if_neg (by simp [h])]
  split
  · simp
  · exact Flow.RaisesIn.andThen (emitOuts_raisesIn _ _ _) fun t _ => by simp

/-! ### Where they go on to -/

theorem emitOuts_pk {bs : List Byte} {s t : State} (h : emitOuts bs s = .go t) : t.pk = s.pk := by
  induction bs generalizing s with
  | nil =>
    cases h
    rfl
  | cons b bs ih =>
    obtain ⟨u, hu, ht⟩ := Flow.andThen_eq_go h
    rw [ih ht]
    unfold emitOut appendPoint at hu
    split at hu
    · cases hu
      rfl
    · split at hu
      · cases hu
        rfl
      · cases hu
      · cases hu
        rfl

/-- How far `put_bit` moves the bit position, whatever else it does. -/
theorem putBit_bitIdx {b : Bool} {s t : State} (h : putBit b s = .go t) :
    t.pk.bitIdx = s.pk.bitIdx + 1#3 ∧ (s.pk.bitIdx = 7#3 → t.pk.accByte = 0#8) := by
  unfold putBit completeByte at h
  simp only at h
  split at h
  · rename_i h7
    rw [h7]
    split at h
    · cases h
    · split at h
      · obtain ⟨u, hu, ht⟩ := Flow.andThen_eq_go h
        cases ht
        simp [emitOuts_pk hu]
      · cases h
        simp
  · rename_i h7
    cases h
    exact ⟨rfl, fun h => absurd h h7⟩

/-- The loop of `pad()` ends at a byte boundary (R102). -/
theorem padLoop_bitIdx {fuel : Nat} {s t : State} (h : padLoop fuel s = .go t)
    (hfuel : s.pk.bitIdx = 0#3 ∨ 8 - s.pk.bitIdx.toNat < fuel) : t.pk.bitIdx = 0#3 := by
  induction fuel generalizing s with
  | zero =>
    cases h
    rcases hfuel with h | h
    · exact h
    · omega
  | succ fuel ih =>
    unfold padLoop at h
    split at h
    · cases h
      assumption
    · rename_i h0
      have hfuel := hfuel.resolve_left h0
      obtain ⟨u, hu, ht⟩ := Flow.andThen_eq_go h
      have hlt : s.pk.bitIdx.toNat < 8 := s.pk.bitIdx.isLt
      have hne : s.pk.bitIdx.toNat ≠ 0 := fun h' => h0 (BitVec.eq_of_toNat_eq (by simpa using h'))
      refine ih ht ?_
      rw [(putBit_bitIdx hu).1]
      by_cases h7 : s.pk.bitIdx = 7#3
      · exact .inl (by rw [h7]; rfl)
      · have h7' : s.pk.bitIdx.toNat ≠ 7 := fun h' => h7 (BitVec.eq_of_toNat_eq (by simpa using h'))
        right
        rw [BitVec.toNat_add]
        simp
        omega

/-- `pad()` ends at a byte boundary (R102). -/
theorem pad_bitIdx {s t : State} (h : pad s = .go t) : t.pk.bitIdx = 0#3 := by
  refine padLoop_bitIdx h ?_
  have hlt : s.pk.bitIdx.toNat < 8 := s.pk.bitIdx.isLt
  by_cases h0 : s.pk.bitIdx = 0#3
  · exact .inl h0
  · have hne : s.pk.bitIdx.toNat ≠ 0 := fun h' => h0 (BitVec.eq_of_toNat_eq (by simpa using h'))
    exact .inr (by omega)

/-! ### With no sink-error event -/

/-- A quiet run of bit operations: it goes on, appending bits, and changes the packer and OUT alone. -/
def Writes (s : State) (f : Flow) (bits : List Bool) : Prop :=
  ∃ t, f = .go t ∧ Appends s t bits ∧ t = { s with pk := t.pk, out := t.out }

theorem Appends.ok {s t : State} {a : List Bool} (h : Appends s t a) : t.pk.ok := by
  obtain ⟨-, -, -, -, h⟩ := h
  exact h

theorem Writes.andThen {s : State} {f : Flow} {k : State → Flow} {a b : List Bool} (hf : Writes s f a)
    (hk : ∀ t, f = .go t → t.pk.ok → t = { s with pk := t.pk, out := t.out } → Writes t (k t) b) :
    Writes s (f.andThen k) (a ++ b) := by
  obtain ⟨t, hgo, hap, hfr⟩ := hf
  obtain ⟨u, hgo', hap', hfr'⟩ := hk t hgo hap.ok hfr
  refine ⟨u, by rw [hgo, Flow.go_andThen, hgo'], hap.trans hap', ?_⟩
  rw [hfr', hfr]

/-- `put_bit` (R100). -/
theorem putBit_writes (b : Bool) {s : State} (hs : s.sink = none) (hok : s.pk.ok) : Writes s (putBit b s) [b] := by
  obtain ⟨hclean, hlen⟩ := hok
  have hidx : s.pk.bitIdx.toNat < 8 := s.pk.bitIdx.isLt
  have hbits := take_byteBits_putBit s.pk.accByte b s.pk.bitIdx.toNat hidx hclean
  have hlt := toNat_putBit s.pk.accByte b s.pk.bitIdx.toNat hclean
  unfold putBit
  generalize hacc : s.pk.accByte ||| ((BitVec.ofBool b).setWidth 8 <<< s.pk.bitIdx.toNat) = acc at hbits hlt
  simp only
  split
  · rename_i h7
    have h7' : s.pk.bitIdx.toNat = 7 := by simp [h7]
    rw [h7'] at hbits
    have hfull : byteBits acc = (byteBits s.pk.accByte).take 7 ++ [b] := by
      rw [← hbits, List.take_of_length_le (by simp)]
    unfold completeByte
    simp only [List.length_append, List.length_cons, List.length_nil]
    rw [if_neg (by omega)]
    split
    · rename_i h255
      rw [emitOuts_quiet _ (by exact hs)]
      refine ⟨_, rfl, ⟨[s.pk.buf ++ [acc]], ?_, ?_, ?_, ?_⟩, rfl⟩
      · simpa using h255
      · simp [onOut, show s.pk.buf.length = 254 by omega]
      · simp [Packer.bits, hfull, h7']
      · simp [Packer.ok, Packer.clean]
    · refine ⟨_, rfl, ⟨[], by simp, by simp, ?_, ?_⟩, rfl⟩
      · simp [Packer.bits, hfull, h7']
      · simp [Packer.ok, Packer.clean]
        omega
  · rename_i h7
    have h7' : s.pk.bitIdx.toNat ≠ 7 := fun h => h7 (BitVec.eq_of_toNat_eq (by simpa using h))
    have hsucc : (s.pk.bitIdx + 1#3).toNat = s.pk.bitIdx.toNat + 1 := by
      rw [BitVec.toNat_add]
      simp
      omega
    refine ⟨_, rfl, ⟨[], by simp, by simp, ?_, ?_⟩, rfl⟩
    · simp [Packer.bits, hsucc, hbits]
    · simp [Packer.ok, Packer.clean, hsucc, hlt, hlen]

theorem putBits_writes (bs : List Bool) {s : State} (hs : s.sink = none) (hok : s.pk.ok) :
    Writes s (putBits bs s) bs := by
  induction bs generalizing s with
  | nil => exact ⟨s, rfl, Appends.refl hok, rfl⟩
  | cons b bs ih =>
    refine Writes.andThen (a := [b]) (putBit_writes b hs hok) fun t _ htok ht => ih ?_ htok
    rw [ht]
    exact hs

/-- `write_code` (R101). -/
theorem writeCode_writes (v : BitVec 16) (n : Nat) {s : State} (hs : s.sink = none) (hok : s.pk.ok) :
    Writes s (writeCode v n s) (lowBits v n) := putBits_writes _ hs hok

/-- The loop of `pad()` (R102): it reaches the next byte boundary with 0 bits. -/
theorem padLoop_writes (n fuel : Nat) {s : State} (hs : s.sink = none) (hok : s.pk.ok)
    (hn : (s.pk.bitIdx.toNat + n) % 8 = 0) (hn8 : n < 8) (hfuel : n < fuel) :
    ∃ t, padLoop fuel s = .go t ∧ Appends s t (List.replicate n false) ∧ t.pk.bitIdx = 0#3 ∧ t.pk.accByte = 0#8 ∧
      t = { s with pk := t.pk, out := t.out } := by
  have hidx : s.pk.bitIdx.toNat < 8 := s.pk.bitIdx.isLt
  induction n generalizing s fuel with
  | zero =>
    obtain ⟨fuel, rfl⟩ : ∃ f, fuel = f + 1 := ⟨fuel - 1, by omega⟩
    have h0 : s.pk.bitIdx = 0#3 := BitVec.eq_of_toNat_eq (by simp; omega)
    have hacc : s.pk.accByte = 0#8 := by
      have := hok.1
      unfold Packer.clean at this
      rw [h0] at this
      exact BitVec.eq_of_toNat_eq (by simp at this ⊢; omega)
    refine ⟨s, ?_, Appends.refl hok, h0, hacc, rfl⟩
    unfold padLoop
    rw [if_pos h0]
  | succ n ih =>
    obtain ⟨fuel, rfl⟩ : ∃ f, fuel = f + 1 := ⟨fuel - 1, by omega⟩
    have h0 : s.pk.bitIdx ≠ 0#3 := by
      intro h
      rw [h] at hn
      simp at hn
      omega
    obtain ⟨t, hgo, hap, hfr⟩ := putBit_writes false hs hok
    have hnext := (putBit_bitIdx hgo).1
    obtain ⟨u, hgo', hap', h0', ha', hfr'⟩ := ih fuel (s := t) (by rw [hfr]; exact hs) hap.ok
      (by rw [hnext, BitVec.toNat_add]; simp; omega) (by omega) (by omega) t.pk.bitIdx.isLt
    refine ⟨u, ?_, hap.trans hap', h0', ha', by rw [hfr', hfr]⟩
    unfold padLoop
    rw [if_neg h0, hgo, Flow.go_andThen, hgo']

/-- `pad()` (R102). -/
theorem pad_writes {s : State} (hs : s.sink = none) (hok : s.pk.ok) :
    ∃ t, pad s = .go t ∧
      Appends s t (List.replicate (if s.pk.bitIdx = 0#3 then 0 else 8 - s.pk.bitIdx.toNat) false) ∧
      t.pk.bitIdx = 0#3 ∧ t.pk.accByte = 0#8 ∧ t = { s with pk := t.pk, out := t.out } := by
  have hidx : s.pk.bitIdx.toNat < 8 := s.pk.bitIdx.isLt
  split
  · rename_i h
    exact padLoop_writes 0 8 hs hok (by simp [h]) (by omega) (by omega)
  · rename_i h
    have h0 : s.pk.bitIdx.toNat ≠ 0 := fun h' => h (BitVec.eq_of_toNat_eq (by simpa using h'))
    exact padLoop_writes _ 8 hs hok (by omega) (by omega) (by omega)

/-- `flush()` at a byte boundary (R103). -/
theorem flush_quiet {s : State} (hs : s.sink = none) (h0 : s.pk.bitIdx = 0#3) :
    flush s = .go { s with
      pk := { s.pk with buf := [] }
      out := s.out ++ (if s.pk.buf = [] then [] else BitVec.ofNat 8 s.pk.buf.length :: s.pk.buf) } := by
  unfold flush
  rw [if_neg (by simp [h0])]
  split
  · rename_i hb
    have : s.pk = { s.pk with buf := [] } := by rw [← hb]
    simp [← this]
  · rw [emitOuts_quiet _ hs]
    rfl

end Sys2Proof.Machine
end

