-- ==== Sys2Proof/Laws/Lzw.lean ====
section
/-! SUPPORT. What the LZW encoder's operations do: what they leave alone, and the bits they write. -/

namespace Sys2Proof.Machine

/-- What the encoder's operations may change: the encoder, the packer, OUT, and how far the sink-error event has come. -/
def CodeStep (s t : State) : Prop := t = { s with lz := t.lz, pk := t.pk, out := t.out, sink := t.sink }

theorem CodeStep.refl (s : State) : CodeStep s s := rfl

theorem CodeStep.trans {s t u : State} (h1 : CodeStep s t) (h2 : CodeStep t u) : CodeStep s u := by
  unfold CodeStep at *
  rw [h2, h1]

theorem PackerStep.codeStep {s t : State} (h : PackerStep s t) : CodeStep s t := by
  unfold PackerStep at h
  unfold CodeStep
  rw [h]

theorem codeStep_setLz (s : State) (lz : Lzw) : CodeStep s (s.setLz lz) := rfl

/-- Code steps that leave `LZ.ACTIVE` as it is. -/
def SymStep (s t : State) : Prop := CodeStep s t ∧ t.lz.active = s.lz.active

theorem SymStep.refl (s : State) : SymStep s s := ⟨CodeStep.refl s, rfl⟩

theorem SymStep.trans {s t u : State} (h1 : SymStep s t) (h2 : SymStep t u) : SymStep s u :=
  ⟨h1.1.trans h2.1, h2.2.trans h1.2⟩

theorem PackerStep.symStep {s t : State} (h : PackerStep s t) : SymStep s t := by
  refine ⟨h.codeStep, ?_⟩
  unfold PackerStep at h
  rw [h]

theorem symStep_setLz (s : State) {lz : Lzw} (h : lz.active = s.lz.active) : SymStep s (s.setLz lz) :=
  ⟨codeStep_setLz s lz, h⟩

theorem writeCode_symStep (v : BitVec 16) (n : Nat) (s : State) : (writeCode v n s).All (SymStep s) :=
  (writeCode_all v n s).mono fun _ h => h.symStep

theorem forcedReset_all (s : State) : (forcedReset s).All (SymStep s) := by
  unfold forcedReset
  split
  · trivial
  · exact Flow.All.andThen (writeCode_symStep _ _ s) fun t ht => ht.trans (symStep_setLz t rfl)

theorem setCur_all (c : BitVec 12) (s : State) : (setCur c s).All (SymStep s) := symStep_setLz s rfl

theorem lzMiss_all (p : BitVec 12) (sym : Byte) (s : State) : (lzMiss p sym s).All (SymStep s) := by
  unfold lzMiss
  refine Flow.All.andThen (writeCode_symStep _ _ s) fun t ht => ?_
  have hb : SymStep s (t.setLz (lzBind t.lz p sym)) := ht.trans (symStep_setLz t rfl)
  refine Flow.All.andThen (P := SymStep s) ?_ fun u hu => (setCur_all _ u).mono fun v hv => hu.trans hv
  split
  · exact (forcedReset_all _).mono fun v hv => hb.trans hv
  · exact hb

/-- `lz_sym` (R124) changes nothing but the encoder, the packer and OUT, and opens or closes no stream. -/
theorem lzSym_all (sym : Byte) (s : State) : (lzSym sym s).All (SymStep s) := by
  unfold lzSym
  split
  · exact setCur_all _ s
  · split
    · exact setCur_all _ s
    · exact lzMiss_all _ _ s

theorem lzFinish_all (p : BitVec 12) (s : State) : (lzFinish p s).All (CodeStep s) := by
  unfold lzFinish
  refine Flow.All.andThen ((writeCode_all _ _ s).mono fun _ h => h.codeStep) fun t ht => ?_
  refine Flow.All.andThen ((writeCode_all _ _ t).mono fun _ h => ht.trans h.codeStep) fun t ht => ?_
  refine Flow.All.andThen ((writeCode_all _ _ t).mono fun _ h => ht.trans h.codeStep) fun t ht => ?_
  refine Flow.All.andThen ((pad_all t).mono fun _ h => ht.trans h.codeStep) fun t ht => ?_
  refine Flow.All.andThen ((flush_all t).mono fun _ h => ht.trans h.codeStep) fun t ht => ?_
  exact ht.trans (codeStep_setLz t _)

/-! ### What they raise -/

theorem lzSym_raisesIn (sym : Byte) (s : State) : (lzSym sym s).RaisesIn [.lzResetWidth, .subblockOverrun] := by
  unfold lzSym setCur
  split
  · simp
  · split
    · simp
    · refine Flow.RaisesIn.andThen ((writeCode_raisesIn _ _ s).mono (by simp)) fun t _ => ?_
      refine Flow.RaisesIn.andThen ?_ fun u _ => by simp [setCur]
      split
      · unfold forcedReset
        split
        · simp
        · exact Flow.RaisesIn.andThen ((writeCode_raisesIn _ _ _).mono (by simp)) fun u _ => by simp
      · simp

theorem lzFinish_raisesIn (p : BitVec 12) (s : State) : (lzFinish p s).RaisesIn [.subblockOverrun] := by
  unfold lzFinish
  refine Flow.RaisesIn.andThen (writeCode_raisesIn _ _ s) fun t _ => ?_
  refine Flow.RaisesIn.andThen (writeCode_raisesIn _ _ t) fun t _ => ?_
  refine Flow.RaisesIn.andThen (writeCode_raisesIn _ _ t) fun t _ => ?_
  refine Flow.RaisesIn.andThen (pad_raisesIn t) fun u hu => ?_
  refine Flow.RaisesIn.andThen ((flush_raisesIn_nil (pad_bitIdx hu)).mono (by simp)) fun v _ => by simp

/-! ### With no sink-error event -/

/-- A quiet run of encoder operations: it goes on, appending bits, with the encoder then in a given state. -/
def Encodes (s : State) (f : Flow) (bits : List Bool) (lz : Lzw) : Prop :=
  ∃ t, f = .go t ∧ Appends s t bits ∧ t = { s with lz := lz, pk := t.pk, out := t.out }

theorem lowBits_setWidth (p : BitVec 12) (n : Nat) (h : n ≤ 16) :
    lowBits (p.setWidth 16) n = (List.range n).map p.getLsbD := by
  unfold lowBits
  apply List.map_congr_left
  intro j hj
  have := List.mem_range.1 hj
  rw [BitVec.getLsbD_setWidth]
  simp
  omega

/-- Writing a code and going on with the encoder's state. -/
theorem writeCode_andThen_encodes {v : BitVec 16} {n : Nat} {s : State} {k : State → Flow} {bits : List Bool} {lz : Lzw}
    (hs : s.sink = none) (hok : s.pk.ok)
    (hk : ∀ t, t.pk.ok → t = { s with pk := t.pk, out := t.out } → Encodes t (k t) bits lz) :
    Encodes s ((writeCode v n s).andThen k) (lowBits v n ++ bits) lz := by
  obtain ⟨t, hgo, hap, hfr⟩ := writeCode_writes v n hs hok
  obtain ⟨u, hgo', hap', hfr'⟩ := hk t hap.ok hfr
  refine ⟨u, by rw [hgo, Flow.go_andThen, hgo'], hap.trans hap', ?_⟩
  rw [hfr', hfr]

/-- A miss that leaves code space (R123, R124). -/
theorem lzMiss_encodes {p : BitVec 12} {sym : Byte} {s : State} (hs : s.sink = none) (hok : s.pk.ok)
    (hnext : s.lz.next + 1#13 ≠ 4096#13) :
    Encodes s (lzMiss p sym s) (lowBits (p.setWidth 16) s.lz.width.toNat)
      { lzBind s.lz p sym with cur := some (sym.setWidth 12) } := by
  have := writeCode_andThen_encodes (v := p.setWidth 16) (n := s.lz.width.toNat) (s := s) (bits := [])
    (lz := { lzBind s.lz p sym with cur := some (sym.setWidth 12) })
    (k := fun s₁ =>
      let s₂ := s₁.setLz (lzBind s₁.lz p sym)
      (if s₂.lz.next = 4096#13 then forcedReset s₂ else .go s₂).andThen (setCur (sym.setWidth 12))) hs hok ?_
  · simpa [lzMiss] using this
  · intro t htok ht
    have hlz : t.lz = s.lz := by rw [ht]
    simp only [State.setLz_lz, hlz]
    rw [if_neg (by simpa [lzBind] using hnext)]
    refine ⟨_, rfl, ⟨[], by simp, by simp, by simp, htok⟩, ?_⟩
    rw [ht]
    rfl

/-- The miss that uses the code space up (R125), at width 12. -/
theorem lzMiss_reset_encodes {p : BitVec 12} {sym : Byte} {s : State} (hs : s.sink = none) (hok : s.pk.ok)
    (hnext : s.lz.next = 4095#13) (hwidth : s.lz.width = 12#4) :
    Encodes s (lzMiss p sym s) (lowBits (p.setWidth 16) 12 ++ lowBits clearCode 12)
      { lzInit s.lz with cur := some (sym.setWidth 12) } := by
  have := writeCode_andThen_encodes (v := p.setWidth 16) (n := s.lz.width.toNat) (s := s)
    (bits := lowBits clearCode 12) (lz := { lzInit s.lz with cur := some (sym.setWidth 12) })
    (k := fun s₁ =>
      let s₂ := s₁.setLz (lzBind s₁.lz p sym)
      (if s₂.lz.next = 4096#13 then forcedReset s₂ else .go s₂).andThen (setCur (sym.setWidth 12))) hs hok ?_
  · simpa [lzMiss, hwidth] using this
  · intro t htok ht
    have hlz : t.lz = s.lz := by rw [ht]
    have hw : (lzBind s.lz p sym).width = 12#4 := by simp [lzBind, hnext, hwidth]
    have hn : (lzBind s.lz p sym).next = 4096#13 := by simp [lzBind, hnext]
    simp only [State.setLz_lz, hlz]
    rw [if_pos hn]
    have hfr : forcedReset (t.setLz (lzBind s.lz p sym)) =
        (writeCode clearCode 12 (t.setLz (lzBind s.lz p sym))).andThen fun s₁ => .go (s₁.setLz (lzInit s₁.lz)) := by
      unfold forcedReset
      simp [hw]
    rw [hfr, Flow.andThen_assoc]
    obtain ⟨u, hgo, hap, hu⟩ := writeCode_writes clearCode 12 (s := t.setLz (lzBind s.lz p sym))
      (by rw [ht]; exact hs) htok
    have hulz : u.lz = lzBind s.lz p sym := by rw [hu]; rfl
    refine ⟨(u.setLz (lzInit u.lz)).setLz { lzInit u.lz with cur := some (sym.setWidth 12) }, ?_, ?_, ?_⟩
    · rw [hgo]
      rfl
    · exact hap
    · rw [hu, ht]
      rfl

end Sys2Proof.Machine
end

