-- ==== Sys2Proof/Laws/Ditherer.lean ====
section
/-! SUPPORT. What the Ditherer's operations do: what a pixel changes, the fixed-point values, the search, and the error
lines. -/

namespace Sys2Proof.Machine

/-! ### What a pixel may change -/

/-- What `DT_PIXEL` may change from `s` to `t`: the Ditherer with its flags `CHAIN`, `UREF` and `WREF` kept, entry
`y * W + x` of REF where `WREF` is set, PIX, how far the sink-error event has come and, in a chained frame alone, the
encoder, the packer and OUT. -/
structure PixelStep (s t : State) : Prop where
  frame : t = { s with dt := t.dt, ref := t.ref, pix := t.pix, lz := t.lz, pk := t.pk, out := t.out, sink := t.sink }
  flags : t.dt.chain = s.dt.chain ∧ t.dt.uref = s.dt.uref ∧ t.dt.wref = s.dt.wref
  active : t.dt.active = s.dt.active ∨ (s.dt.x + 1#16 = s.dt.w ∧ s.dt.y + 1#16 = s.dt.h)
  ref : ∀ a, s.dt.wref = false ∨ a ≠ pixelEntry s.dt → t.ref.get? a = s.ref.get? a
  lzActive : t.lz.active = s.lz.active
  unchained : s.dt.chain = false → t.lz = s.lz ∧ t.pk = s.pk ∧ t.out = s.out

theorem PixelStep.refl (s : State) : PixelStep s s :=
  ⟨rfl, ⟨rfl, rfl, rfl⟩, .inl rfl, fun _ _ => rfl, rfl, fun _ => ⟨rfl, rfl, rfl⟩⟩

@[simp] theorem advance_chain (dt : Ditherer) : (advance dt).chain = dt.chain := by
  unfold advance
  split
  · split <;> rfl
  · rfl

@[simp] theorem advance_uref (dt : Ditherer) : (advance dt).uref = dt.uref := by
  unfold advance
  split
  · split <;> rfl
  · rfl

@[simp] theorem advance_wref (dt : Ditherer) : (advance dt).wref = dt.wref := by
  unfold advance
  split
  · split <;> rfl
  · rfl

/-- Only the last pixel ends the frame (R182). -/
theorem advance_active (dt : Ditherer) :
    (advance dt).active = dt.active ∨ (dt.x + 1#16 = dt.w ∧ dt.y + 1#16 = dt.h) := by
  unfold advance
  split
  · split
    · exact .inr ⟨by assumption, by assumption⟩
    · exact .inl rfl
  · exact .inl rfl

/-- The encoder's step of a chained pixel, or nothing (R183). -/
theorem chainSym_all (idx : Byte) (s : State) :
    (if s.dt.chain then lzSym idx s else .go s).All fun t => SymStep s t ∧ (s.dt.chain = false → t = s) := by
  split
  · exact (lzSym_all idx s).mono fun t ht => ⟨ht, fun h => by simp_all⟩
  · exact ⟨SymStep.refl s, fun _ => rfl⟩

theorem storePixel_dt (p : Pixel) (s : State) : (storePixel p s).dt = { s.dt with e0 := p.e0, e1 := p.e1 } := by
  unfold storePixel
  simp only
  split <;> rfl

theorem storePixel_frame (p : Pixel) (s : State) :
    storePixel p s = { s with dt := { s.dt with e0 := p.e0, e1 := p.e1 }, ref := (storePixel p s).ref } := by
  unfold storePixel
  simp only
  split <;> rfl

/-- What REF holds once a pixel is stored (R180). -/
theorem storePixel_ref (p : Pixel) (s : State) (a : Nat) : (storePixel p s).ref.get? a =
    if s.dt.wref = true ∧ a = pixelEntry s.dt then some p.colour else s.ref.get? a := by
  unfold storePixel
  simp only
  split
  · rename_i h
    simp only [State.setRef_ref, Memory.get?_set, h, true_and]
  · rename_i h
    rw [if_neg fun h' => h h'.1]
    rfl

theorem commitPixel_all (p : Pixel) (s : State) : (commitPixel p s).All (PixelStep s) := by
  unfold commitPixel
  have hs := chainSym_all p.idx s
  have hstep : ∀ t, SymStep s t ∧ (s.dt.chain = false → t = s) → PixelStep s t := by
    rintro t ⟨⟨hc, ha⟩, hn⟩
    unfold CodeStep at hc
    refine ⟨by rw [hc], by rw [hc]; exact ⟨rfl, rfl, rfl⟩, .inl (by rw [hc]), by rw [hc]; exact fun _ _ => rfl, ha, ?_⟩
    intro h
    rw [hn h]
    exact ⟨rfl, rfl, rfl⟩
  cases hf : (if s.dt.chain then lzSym p.idx s else .go s) with
  | raise c => trivial
  | broken x => trivial
  | stop t =>
    rw [hf] at hs
    exact hstep t hs
  | go t =>
    rw [hf] at hs
    obtain ⟨hframe, -, -, -, hlz, hun⟩ := hstep t hs
    have hc := hs.1.1
    unfold CodeStep at hc
    have hdt : t.dt = s.dt := by rw [hc]
    have href : t.ref = s.ref := by rw [hc]
    have hst := storePixel_frame p t
    have hrefs : ∀ a, s.dt.wref = false ∨ a ≠ pixelEntry s.dt → (storePixel p t).ref.get? a = s.ref.get? a := by
      intro a ha
      rw [storePixel_ref, hdt, href, if_neg]
      rintro ⟨h1, h2⟩
      rcases ha with ha | ha
      · simp [ha] at h1
      · exact ha h2
    have key : ∀ (dt : Ditherer) (pix : List Word) (sink : Option Nat),
        (dt.chain = s.dt.chain ∧ dt.uref = s.dt.uref ∧ dt.wref = s.dt.wref) →
        (dt.active = s.dt.active ∨ (s.dt.x + 1#16 = s.dt.w ∧ s.dt.y + 1#16 = s.dt.h)) →
          PixelStep s { t with dt := dt, ref := (storePixel p t).ref, pix := pix, sink := sink } := by
      intro dt pix sink hflags hactive
      refine ⟨?_, hflags, hactive, hrefs, hlz, hun⟩
      rw [hc]
    simp only [Flow.go_andThen]
    have hlines : ∀ (pix : List Word) (sink : Option Nat),
        PixelStep s { storePixel p t with pix := pix, sink := sink } := by
      intro pix sink
      rw [hst]
      exact key _ pix sink (by rw [hdt]; exact ⟨rfl, rfl, rfl⟩) (.inl (by rw [hdt]))
    have hadv : ∀ (pix : List Word) (sink : Option Nat),
        PixelStep s { storePixel p t with pix := pix, sink := sink, dt := advance (storePixel p t).dt } := by
      intro pix sink
      rw [hst]
      refine key _ pix sink (by simp [hdt]) ?_
      have := advance_active { t.dt with e0 := p.e0, e1 := p.e1 }
      simpa [hdt] using this
    unfold emitPix appendPoint
    split
    · exact hadv _ (storePixel p t).sink
    · split
      · exact hadv _ (storePixel p t).sink
      · exact hlines (storePixel p t).pix (storePixel p t).sink
      · exact hadv _ _

/-- `DT_PIXEL` past its sequence checks (R160). -/
theorem ditherPixel_all (v : Rgb) (s : State) : (ditherPixel v s).All (PixelStep s) := by
  unfold ditherPixel
  split
  · trivial
  · split
    · trivial
    · split
      · trivial
      · split
        · trivial
        · unfold finishPixel
          split
          · exact commitPixel_all _ s
          · split
            · split
              · trivial
              · exact commitPixel_all _ s
            · trivial

/-! ### Checked values (R178) -/

theorem chk_eq_some {lim v w : Int} : chk lim v = some w ↔ w = v ∧ -lim ≤ v ∧ v ≤ lim - 1 := by
  unfold chk
  split
  · rename_i h
    simp [h.1, h.2, eq_comm]
  · rename_i h
    constructor
    · intro h'
      cases h'
    · exact fun h' => absurd h'.2 h

theorem share_eq_some {lim e k q : Int} :
    share lim e k = some q ↔ q = (e * k).tdiv 16 ∧ -lim ≤ e * k ∧ e * k ≤ lim - 1 := by
  simp only [share, Option.bind_eq_bind, Option.bind_eq_some_iff, chk_eq_some, Option.some.injEq]
  constructor
  · rintro ⟨p, ⟨rfl, h⟩, rfl⟩
    exact ⟨rfl, h⟩
  · rintro ⟨rfl, h⟩
    exact ⟨_, ⟨rfl, h⟩, rfl⟩

/-- Of the two checks of an absolute difference only the upper bound is left. -/
theorem chkAbs_eq_some {lim v d : Int} : chkAbs lim v = some d ↔ d = (v.natAbs : Int) ∧ (v.natAbs : Int) ≤ lim - 1 := by
  simp only [chkAbs, Option.bind_eq_bind, Option.bind_eq_some_iff, chk_eq_some]
  constructor
  · rintro ⟨p, ⟨rfl, h⟩, rfl, h'⟩
    exact ⟨rfl, h'.2⟩
  · rintro ⟨rfl, h⟩
    exact ⟨_, ⟨rfl, by omega⟩, rfl, by omega⟩

theorem errorOf_eq_some {lim : Int} {acc e : Fixed} {c : Rgb} (h : errorOf lim acc c = some e) :
    e = { r := acc.r - fix c.r, g := acc.g - fix c.g, b := acc.b - fix c.b } := by
  simp only [errorOf, Option.bind_eq_bind, Option.bind_eq_some_iff, chk_eq_some, Option.some.injEq] at h
  obtain ⟨r, ⟨rfl, -⟩, g, ⟨rfl, -⟩, b, ⟨rfl, -⟩, rfl⟩ := h
  rfl

/-- What adding a share to an error line does (R174, R176): the one entry gains the share, in range. -/
theorem addShare_eq_some {lim : Int} {line line' : Memory Fixed} {x : Nat} {err : Fixed} {k : Int}
    (h : addShare lim line x err k = some line') :
    ∃ e : Fixed, line' = lineSet line x e ∧ e.inRange lim ∧
      e = { r := (lineGet line x).r + (err.r * k).tdiv 16, g := (lineGet line x).g + (err.g * k).tdiv 16
            b := (lineGet line x).b + (err.b * k).tdiv 16 } := by
  simp only [addShare, Option.bind_eq_bind, Option.bind_eq_some_iff, chk_eq_some, share_eq_some, Option.some.injEq] at h
  obtain ⟨r, ⟨q, ⟨rfl, -⟩, rfl, hr⟩, g, ⟨q, ⟨rfl, -⟩, rfl, hg⟩, b, ⟨q, ⟨rfl, -⟩, rfl, hb⟩, rfl⟩ := h
  exact ⟨_, rfl, ⟨hr, hg, hb⟩, rfl⟩

/-! ### The search (R171, R172) -/

theorem mem_laterSlots {i : Nat} : i ∈ laterSlots ↔ 1 ≤ i ∧ i ≤ 255 := by
  unfold laterSlots
  rw [List.mem_range'_1]
  omega

theorem laterSlots_sorted : laterSlots.Pairwise (· < ·) := by
  unfold laterSlots
  exact List.pairwise_lt_range'

/-- What a run of the search answers: the best so far where no slot is nearer, or the first of the nearest. -/
theorem searchFrom_eq_some {lim : Int} {acc : Fixed} {slot : Nat → Rgb} {is : List Nat} {best r : Nat × Int}
    (h : searchFrom lim acc slot is best = some r) :
    (r = best ∧ ∀ j ∈ is, ∃ d, distance lim acc (slot j) = some d ∧ best.2 ≤ d) ∨
      ∃ pre post, is = pre ++ r.1 :: post ∧ distance lim acc (slot r.1) = some r.2 ∧ r.2 < best.2 ∧
        (∀ j ∈ pre, ∃ d, distance lim acc (slot j) = some d ∧ r.2 < d) ∧
        ∀ j ∈ post, ∃ d, distance lim acc (slot j) = some d ∧ r.2 ≤ d := by
  induction is generalizing best with
  | nil =>
    cases h
    exact .inl ⟨rfl, by simp⟩
  | cons i is ih =>
    simp only [searchFrom, Option.bind_eq_bind, Option.bind_eq_some_iff] at h
    obtain ⟨d, hd, h⟩ := h
    by_cases hlt : d < best.2
    · rw [if_pos hlt] at h
      right
      rcases ih h with ⟨rfl, h2⟩ | ⟨pre, post, rfl, h3, h4, h5, h6⟩
      · exact ⟨[], is, rfl, hd, hlt, by simp, h2⟩
      · refine ⟨i :: pre, post, rfl, h3, by simp at h4; omega, ?_, h6⟩
        intro j hj
        rcases List.mem_cons.1 hj with rfl | hj
        · exact ⟨d, hd, h4⟩
        · exact h5 j hj
    · rw [if_neg hlt] at h
      rcases ih h with ⟨rfl, h2⟩ | ⟨pre, post, rfl, h3, h4, h5, h6⟩
      · refine .inl ⟨rfl, fun j hj => ?_⟩
        rcases List.mem_cons.1 hj with rfl | hj
        · exact ⟨d, hd, by omega⟩
        · exact h2 j hj
      · refine .inr ⟨i :: pre, post, rfl, h3, h4, ?_, h6⟩
        intro j hj
        rcases List.mem_cons.1 hj with rfl | hj
        · exact ⟨d, hd, by omega⟩
        · exact h5 j hj

/-- A run of the search answers none exactly where some slot's distance leaves the range. -/
theorem searchFrom_eq_none {lim : Int} {acc : Fixed} {slot : Nat → Rgb} {is : List Nat} {best : Nat × Int} :
    searchFrom lim acc slot is best = none ↔ ∃ j ∈ is, distance lim acc (slot j) = none := by
  induction is generalizing best with
  | nil => simp [searchFrom]
  | cons i is ih =>
    simp only [searchFrom, Option.bind_eq_bind]
    cases h : distance lim acc (slot i) with
    | none => simp [h]
    | some d => simp [h, ih]

/-! ### What it raises -/

theorem commitPixel_raisesIn (p : Pixel) (s : State) : (commitPixel p s).RaisesIn [.lzResetWidth, .subblockOverrun] := by
  unfold commitPixel
  refine Flow.RaisesIn.andThen ?_ fun t _ =>
    Flow.RaisesIn.andThen (appendPoint_raisesIn _ _ _) fun u _ => by simp
  split
  · exact lzSym_raisesIn _ s
  · simp

theorem ditherPixel_raisesIn (v : Rgb) (s : State) :
    (ditherPixel v s).RaisesIn [.dtRefUninit, .dtRange, .lzResetWidth, .subblockOverrun] := by
  unfold ditherPixel
  split
  · simp
  · split
    · simp
    · split
      · simp
      · split
        · simp
        · unfold finishPixel
          split
          · exact (commitPixel_raisesIn _ s).mono (by simp)
          · split
            · split
              · simp
              · exact (commitPixel_raisesIn _ s).mono (by simp)
            · simp

end Sys2Proof.Machine
end

