-- ==== Sys2Proof/Laws/Commands.lean ====
section
/-! SUPPORT. Each command as one run of its pseudocode, the causes it can raise, and that it takes no fault but at its
end. -/

namespace Sys2Proof.Machine

/-- The pseudocode of each command, as its meaning runs it. -/
def bodyOf : Instr → State → Flow
  | .pkWrite n v => fun s =>
    if 16 < n.toNat then .raise .pkWidth
    else if s.lz.active then .raise .pkBusy
    else writeCode v n.toNat s
  | .pkPad => fun s => if s.lz.active then .raise .pkBusy else pad s
  | .pkFlush => fun s => if s.lz.active then .raise .pkBusy else flush s
  | .lzStart => fun s =>
    if s.lz.active then .raise .lzSeq
    else writeCode clearCode 9 (s.setLz { lzInit s.lz with active := true })
  | .lzSym sym => fun s => if s.lz.active then lzSym sym s else .raise .lzSeq
  | .lzEnd => fun s =>
    if s.lz.active then
      match s.lz.cur with
      | none => .raise .lzEmpty
      | some p => lzFinish p s
    else .raise .lzSeq
  | .dtBegin chain wref uref => fun s =>
    if s.dt.active then .raise .dtSeq
    else if badGeometry wref uref s then .raise .dtGeometry
    else if palReady s.pal then
      .go (s.setDt
        { active := true, w := s.dtWidth, h := s.dtHeight, x := 0#16, y := 0#16
          uref := uref, wref := wref, chain := chain, e0 := [], e1 := [] })
    else .raise .dtPalUninit
  | .dtPixel r g b => fun s =>
    if s.dt.active then
      if s.dt.chain && !s.lz.active then .raise .dtChainNoLz else ditherPixel ⟨r, g, b⟩ s
    else .raise .dtSeq
  | .palWrite r g b => fun s =>
    if s.dt.active then .raise .dtBusyConfig
    else .go (s.setPal (palWrite s.pal s.palPtr.toNat ⟨r, g, b⟩) (s.palPtr + 1#8))
  | .regWrite reg val => fun s =>
    match writableWidth reg with
    | none => .raise .badReg
    | some width =>
      if 2 ^ width ≤ val.toNat then .raise .regValue
      else if s.dt.active then .raise .dtBusyConfig
      else .go (setRegister reg val s)
  | .regRead reg => fun s =>
    match regValue reg s with
    | none => .raise .badReg
    | some v => emitRsp v s
  | .refWrite r g b => fun s =>
    if s.dt.active then .raise .dtBusyConfig
    else if s.cfg.refDepth ≤ s.refPtr.toNat then .raise .refRange
    else .go ((s.setRef (s.ref.set s.refPtr.toNat ⟨r, g, b⟩)).setRefPtr (s.refPtr + 1#24))
  | .nop => fun s => .go s
  | .reset _ => fun s => .go (resetBlock s)

/-- What a command does where no fault has been taken: it runs its pseudocode to its end. -/
theorem exec_eq_conclude (i : Instr) {s : State} (h : s.fault = false) :
    exec i s = conclude s (encode i) (bodyOf i s) := by
  cases i <;> simp only [exec, execPkWrite, execPkPad, execPkFlush, execLzStart, execLzSym, execLzEnd, execDtBegin,
    execDtPixel, execPalWrite, execRegWrite, execRegRead, execRefWrite, execNop, execReset, command, h, bodyOf] <;> rfl

/-- What it does while faulted (R216): nothing, but that `REG_READ` answers; `RESET` aside. -/
theorem exec_faulted {i : Instr} {s t : State} (hf : s.fault = true) (hr : ∀ p, i ≠ .reset p)
    (he : exec i s = .next t) : t = { s with rsp := t.rsp } ∧ ((∀ r, i ≠ .regRead r) → t = s) := by
  cases i <;> simp [exec, execPkWrite, execPkPad, execPkFlush, execLzStart, execLzSym, execLzEnd, execDtBegin,
    execDtPixel, execPalWrite, execRegWrite, execRegRead, execRefWrite, execNop, execReset, command, hf, serveRead]
    at he hr <;> simp [← he]
  rfl


/-- The causes a command's own checks can raise, in R213's order, those R213 calls unreachable included. -/
def raisable : Instr → List Cause
  | .pkWrite _ _ => [.pkWidth, .pkBusy, .subblockOverrun]
  | .pkPad => [.pkBusy, .subblockOverrun]
  | .pkFlush => [.pkBusy, .pkFlushPartial]
  | .lzStart => [.lzSeq, .subblockOverrun]
  | .lzSym _ => [.lzSeq, .lzResetWidth, .subblockOverrun]
  | .lzEnd => [.lzSeq, .lzEmpty, .subblockOverrun]
  | .dtBegin _ _ _ => [.dtSeq, .dtGeometry, .dtPalUninit]
  | .dtPixel _ _ _ => [.dtSeq, .dtChainNoLz, .dtRefUninit, .dtRange, .lzResetWidth, .subblockOverrun]
  | .palWrite _ _ _ => [.dtBusyConfig]
  | .regWrite _ _ => [.badReg, .regValue, .dtBusyConfig]
  | .regRead _ => [.badReg]
  | .refWrite _ _ _ => [.dtBusyConfig, .refRange]
  | .nop => []
  | .reset _ => []

theorem bodyOf_raisesIn (i : Instr) (s : State) : (bodyOf i s).RaisesIn (raisable i) := by
  cases i <;> simp only [bodyOf, raisable]
  case pkWrite =>
    split
    · simp
    split
    · simp
    exact (writeCode_raisesIn _ _ _).mono (by simp)
  case pkPad =>
    split
    · simp
    exact (pad_raisesIn _).mono (by simp)
  case pkFlush =>
    split
    · simp
    exact (flush_raisesIn _).mono (by simp)
  case lzStart =>
    split
    · simp
    exact (writeCode_raisesIn _ _ _).mono (by simp)
  case lzSym =>
    split
    · exact (lzSym_raisesIn _ _).mono (by simp)
    · simp
  case lzEnd =>
    split
    · split
      · simp
      exact (lzFinish_raisesIn _ _).mono (by simp)
    · simp
  case dtBegin =>
    split
    · simp
    split
    · simp
    split <;> simp
  case dtPixel =>
    split
    · split
      · simp
      exact (ditherPixel_raisesIn _ _).mono (by simp)
    · simp
  case palWrite => split <;> simp
  case regWrite =>
    split
    · simp
    split
    · simp
    split <;> simp
  case regRead =>
    split
    · simp
    · exact appendPoint_raisesIn _ _ _
  case refWrite =>
    split
    · simp
    split <;> simp
  case nop => simp
  case reset => simp

/-- A command's pseudocode takes no fault itself. -/
theorem bodyOf_not_fault (i : Instr) (s : State) (h : s.fault = false) : (bodyOf i s).All fun t => t.fault = false := by
  have cd : ∀ f : Flow, f.All (CodeStep s) → f.All fun t => t.fault = false := by
    intro f hf
    refine hf.mono fun t ht => ?_
    rw [ht]
    exact h
  have pk : ∀ f : Flow, f.All (PackerStep s) → f.All fun t => t.fault = false := fun f hf =>
    cd f (hf.mono fun t ht => ht.codeStep)
  cases i <;> simp only [bodyOf]
  case pkWrite =>
    split
    · simp
    split
    · simp
    exact pk _ (writeCode_all _ _ _)
  case pkPad =>
    split
    · simp
    exact pk _ (pad_all _)
  case pkFlush =>
    split
    · simp
    exact pk _ (flush_all _)
  case lzStart =>
    split
    · simp
    · refine (writeCode_all _ _ _).mono fun t ht => ?_
      rw [ht]
      exact h
  case lzSym =>
    split
    · exact cd _ ((lzSym_all _ _).mono fun _ h => h.1)
    · simp
  case lzEnd =>
    split
    · split
      · simp
      exact cd _ (lzFinish_all _ _)
    · simp
  case dtBegin =>
    split
    · simp
    split
    · simp
    split <;> simp [h]
  case dtPixel =>
    split
    · split
      · simp
      refine (ditherPixel_all _ _).mono fun t ht => ?_
      rw [ht.frame]
      exact h
    · simp
  case palWrite => split <;> simp [h]
  case regWrite =>
    split
    · simp
    split
    · simp
    split
    · simp
    · simp only [Flow.all_go]
      unfold setRegister
      split <;> exact h
  case regRead =>
    split
    · simp
    · exact appendPoint_all h fun k => h
  case refWrite =>
    split
    · simp
    split <;> simp [h]
  case nop => simpa using h
  case reset => simp [resetBlock, State.resetWith]

/-- How a command ends where no fault has been taken: with its whole effect, with a fault of its own in the state it
began in, or stopped by the sink-error event. -/
theorem exec_cases {i : Instr} {s t : State} (hf : s.fault = false) (he : exec i s = .next t) :
    (bodyOf i s = .go t ∧ t.fault = false) ∨
      (∃ c, bodyOf i s = .raise c ∧ c ∈ raisable i ∧ t = takeFault c (encode i) s) ∨
      ∃ u, bodyOf i s = .stop u ∧ u.fault = false ∧ t = takeSinkError (encode i) u := by
  rw [exec_eq_conclude i hf] at he
  have hr := bodyOf_raisesIn i s
  have hn := bodyOf_not_fault i s hf
  cases hb : bodyOf i s with
  | go u =>
    rw [hb] at he hn
    cases he
    exact .inl ⟨rfl, hn⟩
  | raise c =>
    rw [hb] at he
    cases he
    exact .inr (.inl ⟨c, rfl, hr c hb, rfl⟩)
  | stop u =>
    rw [hb] at he hn
    cases he
    exact .inr (.inr ⟨u, rfl, hn, rfl⟩)
  | broken x =>
    rw [hb] at he
    cases he

end Sys2Proof.Machine
end

