-- ==== Sys2Proof/Laws/Encoding.lean ====
section
/-! SUPPORT. Bit fields of command words: putting adjacent fields together, and reserved-bit masks as fields. -/

namespace Sys2Proof

/-- Two adjacent fields of a word are one field. -/
theorem extractLsb'_append_adjacent {w : Word} {s m n : Nat} :
    w.extractLsb' (s + m) n ++ w.extractLsb' s m = w.extractLsb' s (n + m) := by
  apply BitVec.eq_of_getLsbD_eq
  intro j hj
  simp only [BitVec.getLsbD_append, BitVec.getLsbD_extractLsb']
  by_cases h : j < m
  · simp [h, hj]
  · have h1 : s + m + (j - m) = s + j := by omega
    have h2 : j - m < n := by omega
    simp [h, hj, h1, h2]

theorem extractLsb'_all (w : Word) : w.extractLsb' 0 32 = w := by
  apply BitVec.eq_of_getLsbD_eq
  intro j hj
  simp [hj]

/-- No bit of a word under a mask is 1 exactly where the field the mask covers is 0. -/
theorem and_mask_eq_zero_iff (w : Word) (s n : Nat) (mask : Word) (hle : s + n ≤ 32)
    (hm : ∀ j, j < 32 → mask.getLsbD j = (decide (s ≤ j) && decide (j < s + n))) :
    w &&& mask = 0#32 ↔ w.extractLsb' s n = 0#n := by
  constructor
  · intro h
    apply BitVec.eq_of_getLsbD_eq
    intro j hj
    have := congrArg (fun x => x.getLsbD (s + j)) h
    simp only [BitVec.getLsbD_and, hm _ (show s + j < 32 by omega)] at this
    simp [hj] at this
    simp [hj, this]
  · intro h
    apply BitVec.eq_of_getLsbD_eq
    intro j hj
    rw [BitVec.getLsbD_and, hm j hj]
    by_cases hc : s ≤ j ∧ j < s + n
    · have := congrArg (fun x => x.getLsbD (j - s)) h
      simp [show j - s < n by omega, show s + (j - s) = j by omega] at this
      simp [this]
    · simp only [BitVec.getLsbD_zero, Bool.and_eq_false_imp, decide_eq_true_eq, decide_eq_false_iff_not]
      omega

/-- A field of one bit. -/
theorem ofBool_getLsbD (w : Word) (k : Nat) : BitVec.ofBool (w.getLsbD k) = w.extractLsb' k 1 := by
  apply BitVec.eq_of_getLsbD_eq
  intro j hj
  obtain rfl : j = 0 := by omega
  simp

/-- Two concatenations are equal only where their parts are. -/
theorem append_eq_append {m n : Nat} {a c : BitVec m} {b d : BitVec n} (h : a ++ b = c ++ d) : a = c ∧ b = d := by
  constructor
  · have := congrArg (fun x => x.extractLsb' n m) h
    simpa [BitVec.extractLsb'_append_eq_left] using this
  · have := congrArg (fun x => x.extractLsb' 0 n) h
    simpa [BitVec.extractLsb'_append_eq_right] using this

/-- A word is the word of the command whose operation and operand bits it has. -/
theorem encode_eq_of_fields {w : Word} {i : Instr} (hop : opField w = opcodeOf i)
    (hbits : w.extractLsb' 0 28 = operandBits i) : encode i = w := by
  unfold encode
  rw [← hop, ← hbits]
  unfold opField
  rw [extractLsb'_append_adjacent (s := 0) (m := 28) (n := 4)]
  exact extractLsb'_all w

/-- Commands with the same word have the same operation and operand bits. -/
theorem fields_eq_of_encode_eq {i j : Instr} (h : encode i = encode j) :
    opcodeOf i = opcodeOf j ∧ operandBits i = operandBits j := append_eq_append h

/-- A word decodes to a command only where its operation is legal and its reserved bits are 0. -/
theorem commandOf_of_decodeWord {w : Word} {i : Instr} (h : decodeWord w = .instr i) :
    commandOf w = .instr i ∧ w &&& reservedMask (opField w) = 0#32 := by
  unfold decodeWord at h
  split at h
  · cases h
  · split at h
    · cases h
    · simp_all

end Sys2Proof
end

