-- ==== Sys2Proof/Laws/Invariant.lean ====
section
/-! SUPPORT. How each unit's operations keep its part of the invariant, a sink-error event arriving or not, and that they
raise no cause R213 calls unreachable. -/

namespace Sys2Proof.Machine

/-- Where a flow goes on, where it is stopped, what it raises: each as given, and it forms no entry that does not
exist. -/
def Flow.Ends (f : Flow) (go stop : State → Prop) (raises : Cause → Prop) : Prop :=
  match f with
  | .go s => go s
  | .stop s => stop s
  | .raise c => raises c
  | .broken _ => False

@[simp] theorem Flow.ends_go (s : State) (G S : State → Prop) (R : Cause → Prop) : (Flow.go s).Ends G S R ↔ G s := Iff.rfl
@[simp] theorem Flow.ends_stop (s : State) (G S : State → Prop) (R : Cause → Prop) : (Flow.stop s).Ends G S R ↔ S s :=
  Iff.rfl
@[simp] theorem Flow.ends_raise (c : Cause) (G S : State → Prop) (R : Cause → Prop) : (Flow.raise c).Ends G S R ↔ R c :=
  Iff.rfl

theorem Flow.Ends.mono {f : Flow} {G G' S S' : State → Prop} {R R' : Cause → Prop} (h : f.Ends G S R)
    (hG : ∀ t, G t → G' t) (hS : ∀ t, S t → S' t) (hR : ∀ c, R c → R' c) : f.Ends G' S' R' := by
  cases f with
  | go s => exact hG s h
  | stop s => exact hS s h
  | raise c => exact hR c h
  | broken x => exact h

theorem Flow.Ends.andThen {f : Flow} {k : State → Flow} {G G' S : State → Prop} {R : Cause → Prop} (hf : f.Ends G' S R)
    (hk : ∀ t, G' t → (k t).Ends G S R) : (f.andThen k).Ends G S R := by
  cases f with
  | go s => exact hk s hf
  | stop s => exact hf
  | raise c => exact hf
  | broken x => exact hf

theorem appendPoint_ends {s t : State} {G S : State → Prop} {R : Cause → Prop} (hG : ∀ k, G (t.setSink k)) (hS : S s) :
    (appendPoint s t).Ends G S R := by
  unfold appendPoint
  split
  · exact hG t.sink
  · split
    · exact hG t.sink
    · exact hS
    · exact hG _

/-! ### The packer -/

/-- Going on from `s` to `t` by bit operations, the packer in order (R23, R24). -/
abbrev PackerGoes (s t : State) : Prop := PackerStep s t ∧ t.pk.ok

/-- Stopped in `t`, from `s`, by bit operations: the packer may stand with a full sub-block (R24, R219). -/
abbrev PackerStops (s t : State) : Prop := PackerStep s t ∧ t.pk.clean ∧ t.pk.buf.length ≤ 255

theorem emitOuts_ends (bs : List Byte) (s : State) {S : State → Prop} {R : Cause → Prop}
    (hS : ∀ t, PackerStep s t → t.pk = s.pk → S t) :
    (emitOuts bs s).Ends (fun t => PackerStep s t ∧ t.pk = s.pk) S R := by
  induction bs generalizing s with
  | nil => exact ⟨PackerStep.refl s, rfl⟩
  | cons b bs ih =>
    refine Flow.Ends.andThen (G' := fun t => PackerStep s t ∧ t.pk = s.pk) ?_ ?_
    · exact appendPoint_ends (fun k => ⟨rfl, rfl⟩) (hS s (PackerStep.refl s) rfl)
    · rintro t ⟨ht, hpk⟩
      exact (ih t fun u hu hpk' => hS u (ht.trans hu) (by rw [hpk', hpk])).mono
        (fun u hu => ⟨ht.trans hu.1, by rw [hu.2, hpk]⟩) (fun _ h => h) (fun _ h => h)

theorem putBit_ends (b : Bool) {s : State} (h : s.pk.ok) (R : Cause → Prop) :
    (putBit b s).Ends (PackerGoes s) (PackerStops s) R := by
  obtain ⟨hclean, hlen⟩ := h
  have hidx : s.pk.bitIdx.toNat < 8 := s.pk.bitIdx.isLt
  have hlt := toNat_putBit s.pk.accByte b s.pk.bitIdx.toNat hclean
  unfold putBit
  generalize hacc : s.pk.accByte ||| ((BitVec.ofBool b).setWidth 8 <<< s.pk.bitIdx.toNat) = acc at hlt
  simp only
  split
  · unfold completeByte
    simp only [List.length_append, List.length_cons, List.length_nil]
    rw [if_neg (by omega)]
    split
    · refine Flow.Ends.andThen (emitOuts_ends _ _ ?_) ?_
      · intro t ht hpk
        refine ⟨(packerStep_setPk s _).trans ht, ?_⟩
        rw [hpk]
        simp [Packer.clean]
        omega
      · rintro t ⟨ht, hpk⟩
        refine ⟨((packerStep_setPk s _).trans ht).trans (packerStep_setPk t _), ?_⟩
        simp [Packer.ok, Packer.clean, hpk]
    · refine ⟨packerStep_setPk s _, ?_⟩
      simp [Packer.ok, Packer.clean]
      omega
  · rename_i h7
    have h7' : s.pk.bitIdx.toNat ≠ 7 := fun h => h7 (BitVec.eq_of_toNat_eq (by simpa using h))
    have hsucc : (s.pk.bitIdx + 1#3).toNat = s.pk.bitIdx.toNat + 1 := by
      rw [BitVec.toNat_add]
      simp
      omega
    refine ⟨packerStep_setPk s _, ?_⟩
    simp [Packer.ok, Packer.clean, hsucc, hlt, hlen]

theorem PackerGoes.refl {s : State} (h : s.pk.ok) : PackerGoes s s := ⟨PackerStep.refl s, h⟩

theorem PackerGoes.stops {s t : State} (h : PackerGoes s t) : PackerStops s t := ⟨h.1, h.2.1, by have := h.2.2; omega⟩

/-- Two bit operations, one after the other. -/
theorem packer_ends_andThen {s : State} {f : Flow} {k : State → Flow} {R : Cause → Prop}
    (hf : f.Ends (PackerGoes s) (PackerStops s) R)
    (hk : ∀ t, t.pk.ok → (k t).Ends (PackerGoes t) (PackerStops t) R) :
    (f.andThen k).Ends (PackerGoes s) (PackerStops s) R := by
  refine Flow.Ends.andThen hf fun t ht => ?_
  exact (hk t ht.2).mono (fun u hu => ⟨ht.1.trans hu.1, hu.2⟩) (fun u hu => ⟨ht.1.trans hu.1, hu.2⟩) (fun _ h => h)

theorem putBits_ends (bs : List Bool) {s : State} (h : s.pk.ok) (R : Cause → Prop) :
    (putBits bs s).Ends (PackerGoes s) (PackerStops s) R := by
  induction bs generalizing s with
  | nil => exact PackerGoes.refl h
  | cons b bs ih => exact packer_ends_andThen (putBit_ends b h R) fun t ht => ih ht

theorem writeCode_ends (v : BitVec 16) (n : Nat) {s : State} (h : s.pk.ok) (R : Cause → Prop) :
    (writeCode v n s).Ends (PackerGoes s) (PackerStops s) R := putBits_ends _ h R

theorem padLoop_ends (fuel : Nat) {s : State} (h : s.pk.ok) (R : Cause → Prop) :
    (padLoop fuel s).Ends (PackerGoes s) (PackerStops s) R := by
  induction fuel generalizing s with
  | zero => exact PackerGoes.refl h
  | succ fuel ih =>
    unfold padLoop
    split
    · exact PackerGoes.refl h
    · exact packer_ends_andThen (putBit_ends false h R) fun t ht => ih ht

theorem pad_ends {s : State} (h : s.pk.ok) (R : Cause → Prop) :
    (pad s).Ends (fun t => PackerGoes s t ∧ t.pk.bitIdx = 0#3) (PackerStops s) R := by
  have := padLoop_ends 8 h R
  cases hp : pad s with
  | go t =>
    unfold pad at hp
    rw [hp] at this
    exact ⟨this, pad_bitIdx hp⟩
  | stop t =>
    unfold pad at hp
    rw [hp] at this
    exact this
  | raise c =>
    unfold pad at hp
    rw [hp] at this
    exact this
  | broken x =>
    unfold pad at hp
    rw [hp] at this
    exact this

theorem flush_ends {s : State} (h : s.pk.ok) {R : Cause → Prop} (hR : s.pk.bitIdx ≠ 0#3 → R .pkFlushPartial) :
    (flush s).Ends (PackerGoes s) (PackerStops s) R := by
  unfold flush
  split
  · exact hR (by assumption)
  · split
    · exact PackerGoes.refl h
    · refine Flow.Ends.andThen (emitOuts_ends _ s ?_) ?_
      · intro t ht hpk
        exact ⟨ht, by rw [hpk]; exact h.1, by rw [hpk]; have := h.2; omega⟩
      · rintro t ⟨ht, hpk⟩
        refine ⟨ht.trans (packerStep_setPk t _), ?_⟩
        simp only [Packer.ok, Packer.clean, State.setPk_pk, hpk]
        exact ⟨h.1, by simp⟩

/-! ### The encoder -/

theorem widthFor_bounds (n : Nat) : 9 ≤ widthFor n ∧ widthFor n ≤ 12 := by
  unfold widthFor
  split
  · omega
  · split
    · omega
    · split <;> omega

/-- The code space of a width (R123, R26): every code below `next` fits it. -/
theorem le_two_pow_widthFor {n : Nat} (h : n ≤ 4096) : n ≤ 2 ^ widthFor n := by
  unfold widthFor
  split
  · omega
  · split
    · omega
    · split <;> omega

/-- The width grows exactly where the next code needs one more bit (R123). -/
theorem widthFor_succ {n : Nat} (h : 258 ≤ n) (h' : n ≤ 4095) :
    widthFor (n + 1) = if 2 ^ widthFor n ≤ n then widthFor n + 1 else widthFor n := by
  have h12 : n ≤ 512 → widthFor n = 9 := fun h => by simp [widthFor, h]
  by_cases h1 : n ≤ 512
  · rw [h12 h1]
    unfold widthFor
    split <;> split <;> (try split) <;> omega
  · by_cases h2 : n ≤ 1024
    · have : widthFor n = 10 := by simp [widthFor, h1, h2]
      rw [this]
      unfold widthFor
      repeat' split
      all_goals omega
    · by_cases h3 : n ≤ 2048
      · have : widthFor n = 11 := by simp [widthFor, h1, h2, h3]
        rw [this]
        unfold widthFor
        repeat' split
        all_goals omega
      · have : widthFor n = 12 := by simp [widthFor, h1, h2, h3]
        rw [this]
        unfold widthFor
        repeat' split
        all_goals omega

theorem lzInit_ok (lz : Lzw) : (lzInit lz).ok := by
  refine ⟨Nat.le_refl _, rfl, ⟨rfl, List.nodup_nil, by simp [lzInit]⟩, by simp [lzInit], fun _ => rfl, fun _ => rfl⟩

/-- Binding a pair keeps the dictionary's order (R26). -/
theorem lzBind_ok {lz : Lzw} {p : BitVec 12} {sym : Byte} (h : lz.ok) (hwf : lz.dict.wf) (hcur : lz.cur = some p)
    (hnext : lz.next.toNat ≤ 4095) (hmiss : lz.dict.get? (dictKey p sym) = none) :
    (lzBind lz p sym).ok ∧ (lzBind lz p sym).dict.wf ∧ (lzBind lz p sym).next.toNat = lz.next.toNat + 1 := by
  obtain ⟨hlow, hwidth, ⟨hlen, hnodup, hent⟩, hnode, hroot, hidle⟩ := h
  have hsucc : (lz.next + 1#13).toNat = lz.next.toNat + 1 := by
    rw [BitVec.toNat_add]
    simp
    omega
  have hcode : (lz.next.setWidth 12).toNat = lz.next.toNat := by
    simp
    omega
  have hperm := Memory.set_perm hmiss (lz.next.setWidth 12)
  have hsym : sym.toNat < 256 := sym.isLt
  refine ⟨⟨?_, ?_, ⟨?_, ?_, ?_⟩, ?_, ?_, ?_⟩, Memory.set_wf hwf _ _, hsucc⟩
  · simp only [lzBind, hsucc]
    omega
  · simp only [lzBind, hsucc]
    rw [widthFor_succ hlow hnext, ← hwidth]
    have := (widthFor_bounds lz.next.toNat)
    split
    · rw [BitVec.toNat_add]
      simp
      omega
    · rfl
  · simp only [lzBind, hsucc]
    rw [hperm.length_eq]
    simp only [List.length_cons]
    omega
  · simp only [lzBind]
    rw [(hperm.map _).nodup_iff]
    simp only [List.map_cons, List.nodup_cons]
    refine ⟨?_, hnodup⟩
    intro hmem
    obtain ⟨e, he, heq⟩ := List.mem_map.1 hmem
    have := (hent e he).2.1
    rw [heq, hcode] at this
    omega
  · intro e he
    simp only [lzBind] at he
    rcases Memory.mem_set he with rfl | he
    · simp only [lzBind, hsucc, hcode, dictKey]
      refine ⟨hlow, by omega, ?_⟩
      rw [show (256 * p.toNat + sym.toNat) / 256 = p.toNat by omega]
      exact hnode p hcur
    · have := hent e he
      simp only [lzBind, hsucc]
      exact ⟨this.1, by omega, this.2.2⟩
  · intro c hc
    have hc' : c = p := by
      simp only [lzBind, hcur] at hc
      exact (Option.some.inj hc).symm
    have := hnode p hcur
    simp only [lzBind, hsucc, hc']
    rcases this with h | h
    · exact .inl h
    · exact .inr ⟨h.1, by omega⟩
  · intro hc
    simp [lzBind, hcur] at hc
  · intro ha
    have := hidle ha
    simp [hcur] at this

/-- The encoder between commands, no fault taken (R26). -/
abbrev Lzw.rests (lz : Lzw) : Prop := lz.ok ∧ lz.dict.wf ∧ lz.next.toNat ≤ 4095

/-- The encoder where a sink error may have stopped a forced reset's clear code. -/
abbrev Lzw.stopped (lz : Lzw) : Prop := lz.ok ∧ lz.dict.wf ∧ lz.next.toNat ≤ 4096

/-- Going on from `s` to `t` by the encoder's operations, encoder and packer in order. -/
abbrev CodeGoes (s t : State) : Prop := CodeStep s t ∧ t.pk.ok ∧ t.lz.rests

/-- Stopped in `t`, from `s`, by them. -/
abbrev CodeStops (s t : State) : Prop := CodeStep s t ∧ t.pk.clean ∧ t.pk.buf.length ≤ 255 ∧ t.lz.stopped

theorem PackerStep.lz_eq {s t : State} (h : PackerStep s t) : t.lz = s.lz := by
  unfold PackerStep at h
  rw [h]

theorem lzInit_rests (lz : Lzw) : (lzInit lz).rests := ⟨lzInit_ok lz, List.Pairwise.nil, by simp [lzInit]⟩

/-- `LZ.CUR` moves to a node (R122). -/
theorem setCur_ok {lz : Lzw} (h : lz.ok) (ha : lz.active = true) {c : BitVec 12} (hc : isNode lz.next.toNat c.toNat) :
    Lzw.ok { lz with cur := some c } := by
  obtain ⟨hlow, hwidth, hdict, -, -, -⟩ := h
  refine ⟨hlow, hwidth, hdict, ?_, by simp, by simp [ha]⟩
  intro d hd
  simp only [Option.mem_def, Option.some.injEq] at hd
  rw [← hd]
  exact hc

/-- A symbol is a node (R120). -/
theorem isNode_sym (n : Nat) (sym : Byte) : isNode n (sym.setWidth 12).toNat := by
  have : sym.toNat < 256 := sym.isLt
  left
  simp
  omega

theorem writeCode_codeEnds (v : BitVec 16) (n : Nat) {s : State} (hpk : s.pk.ok) (hlz : s.lz.stopped)
    (R : Cause → Prop) :
    (writeCode v n s).Ends (fun t => CodeStep s t ∧ t.pk.ok ∧ t.lz = s.lz) (CodeStops s) R :=
  (writeCode_ends v n hpk R).mono (fun t ht => ⟨ht.1.codeStep, ht.2, ht.1.lz_eq⟩)
    (fun t ht => ⟨ht.1.codeStep, ht.2.1, ht.2.2, by rw [ht.1.lz_eq]; exact hlz⟩) (fun _ h => h)

theorem lzMiss_ends {p : BitVec 12} {sym : Byte} {s : State} (hpk : s.pk.ok) (hlz : s.lz.rests)
    (hactive : s.lz.active = true) (hcur : s.lz.cur = some p) (hmiss : s.lz.dict.get? (dictKey p sym) = none)
    (R : Cause → Prop) : (lzMiss p sym s).Ends (CodeGoes s) (CodeStops s) R := by
  obtain ⟨hok, hwf, hnext⟩ := hlz
  unfold lzMiss
  refine Flow.Ends.andThen (writeCode_codeEnds _ _ hpk ⟨hok, hwf, by omega⟩ R) ?_
  rintro t ⟨ht, htpk, htlz⟩
  obtain ⟨hbok, hbwf, hbnext⟩ := lzBind_ok (sym := sym) hok hwf hcur hnext hmiss
  have hbact : (lzBind s.lz p sym).active = true := by simp [lzBind, hactive]
  simp only [htlz, State.setLz_lz]
  refine Flow.Ends.andThen (G' := fun u => CodeGoes s u ∧ u.lz.active = true) ?_ ?_
  · split
    · rename_i h4096
      have h4096' : s.lz.next.toNat + 1 = 4096 := by rw [← hbnext, h4096]; rfl
      have hw : (lzBind s.lz p sym).width = 12#4 := by
        have := hbok.2.1
        rw [h4096] at this
        exact BitVec.eq_of_toNat_eq (by rw [this]; decide)
      unfold forcedReset
      rw [if_neg (by simpa using hw)]
      refine Flow.Ends.andThen ((writeCode_codeEnds clearCode (lzBind s.lz p sym).width.toNat
        (s := t.setLz (lzBind s.lz p sym)) htpk ⟨hbok, hbwf, by simp [hbnext]; omega⟩ R).mono (fun _ h => h)
        (fun u hu => ⟨(ht.trans (codeStep_setLz t _)).trans hu.1, hu.2⟩) (fun _ h => h)) ?_
      rintro u ⟨hu, hupk, hulz⟩
      refine ⟨⟨((ht.trans (codeStep_setLz t _)).trans hu).trans (codeStep_setLz u _), hupk, lzInit_rests _⟩, ?_⟩
      simp [lzInit, hulz, hbact]
    · rename_i h4096
      refine ⟨⟨ht.trans (codeStep_setLz t _), htpk, hbok, hbwf, ?_⟩, hbact⟩
      have : (lzBind s.lz p sym).next.toNat ≠ 4096 := fun h => h4096 (BitVec.eq_of_toNat_eq (by simpa using h))
      simp only [State.setLz_lz]
      omega
  · rintro u ⟨⟨hu, hupk, huok, huwf, hunext⟩, hua⟩
    exact ⟨hu.trans (codeStep_setLz u _), hupk, setCur_ok huok hua (isNode_sym _ sym), huwf, hunext⟩

/-- `lz_sym` (R124), a stream being open. -/
theorem lzSym_ends (sym : Byte) {s : State} (hpk : s.pk.ok) (hlz : s.lz.rests) (hactive : s.lz.active = true)
    (R : Cause → Prop) : (lzSym sym s).Ends (CodeGoes s) (CodeStops s) R := by
  unfold lzSym
  split
  · exact ⟨codeStep_setLz s _, hpk, setCur_ok hlz.1 hactive (isNode_sym _ sym), hlz.2⟩
  · rename_i p hcur
    split
    · rename_i c hc
      have hent := hlz.1.2.2.1.2.2 _ (Memory.mem_of_get? hc)
      exact ⟨codeStep_setLz s _, hpk, setCur_ok hlz.1 hactive (.inr ⟨hent.1, hent.2.1⟩), hlz.2⟩
    · rename_i hmiss
      exact lzMiss_ends hpk hlz hactive hcur hmiss R

theorem lzFinish_ends (p : BitVec 12) {s : State} (hpk : s.pk.ok) (hlz : s.lz.rests) (R : Cause → Prop) :
    (lzFinish p s).Ends (CodeGoes s) (CodeStops s) R := by
  have hst : s.lz.stopped := ⟨hlz.1, hlz.2.1, by have := hlz.2.2; omega⟩
  have step : ∀ {f : State → Flow} {k : State → Flow} {t : State} (_ : CodeStep s t ∧ t.pk.ok ∧ t.lz = s.lz)
      (_ : (f t).Ends (PackerGoes t) (PackerStops t) R)
      (_ : ∀ u, CodeStep s u ∧ u.pk.ok ∧ u.lz = s.lz → f t = .go u → (k u).Ends (CodeGoes s) (CodeStops s) R),
      ((f t).andThen k).Ends (CodeGoes s) (CodeStops s) R := by
    rintro f k t ⟨ht, htpk, htlz⟩ hf hk
    cases hft : f t with
    | go u =>
      rw [hft] at hf
      exact hk u ⟨ht.trans hf.1.codeStep, hf.2, by rw [hf.1.lz_eq, htlz]⟩ hft
    | stop u =>
      rw [hft] at hf
      exact ⟨ht.trans hf.1.codeStep, hf.2.1, hf.2.2, by rw [hf.1.lz_eq, htlz]; exact hst⟩
    | raise c =>
      rw [hft] at hf
      exact hf
    | broken x =>
      rw [hft] at hf
      exact hf
  unfold lzFinish
  refine step ⟨CodeStep.refl s, hpk, rfl⟩ (writeCode_ends _ _ hpk R) fun t ht _ => ?_
  refine step ht (writeCode_ends _ _ ht.2.1 R) fun t ht _ => ?_
  refine step ht (writeCode_ends _ _ ht.2.1 R) fun t ht _ => ?_
  refine step ht ((pad_ends ht.2.1 R).mono (fun _ h => h.1) (fun _ h => h) (fun _ h => h)) fun t ht hpad => ?_
  refine step ht (flush_ends ht.2.1 (fun h => absurd (pad_bitIdx hpad) h)) fun t ht _ => ?_
  exact ⟨ht.1.trans (codeStep_setLz t _), ht.2.1, by
    obtain ⟨⟨h1, h2, h3, h4, h5, -⟩, h6, h7⟩ := lzInit_rests t.lz
    exact ⟨⟨h1, h2, h3, h4, h5, fun _ => rfl⟩, h6, h7⟩⟩

/-! ### The Ditherer -/

/-- The error lines of an instance in order (R27). -/
abbrev linesOk (p : Params) (e0 e1 : Memory Fixed) : Prop := lineWf e0 ∧ lineWf e1 ∧ lineOk p e0 ∧ lineOk p e1

theorem addShareIf_ok {p : Params} {line line' : Memory Fixed} {c : Bool} {x : Nat} {err : Fixed} {k : Int}
    (hwf : lineWf line) (hok : lineOk p line) (hx : c = true → x < p.maxWidth)
    (h : addShareIf c (accLimit p) line x err k = some line') : lineWf line' ∧ lineOk p line' := by
  unfold addShareIf at h
  split at h
  · rename_i hc
    obtain ⟨e, rfl, hin, -⟩ := addShare_eq_some h
    refine ⟨lineSet_wf hwf x e, fun y hy => ?_⟩
    rcases mem_lineSet hy with rfl | hy
    · exact ⟨hx hc, hin⟩
    · exact hok y hy
  · cases h
    exact ⟨hwf, hok⟩

/-- Diffusion (R174, R175) keeps the error lines in order. -/
theorem diffuse_ok {p : Params} {dt : Ditherer} {err : Fixed} {lines : Memory Fixed × Memory Fixed}
    (hl : linesOk p dt.e0 dt.e1) (hx : dt.x.toNat < dt.w.toNat) (hw : dt.w.toNat ≤ p.maxWidth)
    (h : diffuse (accLimit p) err dt = some lines) : linesOk p lines.1 lines.2 := by
  simp only [diffuse, Option.bind_eq_bind, Option.bind_eq_some_iff] at h
  obtain ⟨a, ha, b, hb, c, hc, d, hd, h⟩ := h
  cases h
  obtain ⟨w0, w1, o0, o1⟩ := hl
  have h0 := addShareIf_ok w0 o0 (by simp; omega) ha
  have h1 := addShareIf_ok w1 o1 (by simp; omega) hb
  have h2 := addShareIf_ok h1.1 h1.2 (by simp; omega) hc
  have h3 := addShareIf_ok h2.1 h2.2 (by simp; omega) hd
  exact ⟨h0.1, h3.1, h0.2, h3.2⟩

theorem searchedPixel_ok {acc : Fixed} {s : State} {p : Pixel} (hl : linesOk s.cfg s.dt.e0 s.dt.e1)
    (hx : s.dt.x.toNat < s.dt.w.toNat) (hw : s.dt.w.toNat ≤ s.cfg.maxWidth) (h : searchedPixel acc s = some p) :
    linesOk s.cfg p.e0 p.e1 := by
  simp only [searchedPixel, Option.bind_eq_bind, Option.bind_eq_some_iff] at h
  obtain ⟨best, -, err, -, lines, hlines, h⟩ := h
  cases h
  exact diffuse_ok hl hx hw hlines

/-- The entry of a pixel lies in the frame's part of REF (R29). -/
theorem pixelEntry_lt {dt : Ditherer} (hx : dt.x.toNat < dt.w.toNat) (hy : dt.y.toNat < dt.h.toNat) :
    pixelEntry dt < dt.w.toNat * dt.h.toNat := by
  unfold pixelEntry
  have : dt.y.toNat * dt.w.toNat + dt.w.toNat ≤ dt.h.toNat * dt.w.toNat := by
    rw [← Nat.succ_mul]
    exact Nat.mul_le_mul_right _ hy
  rw [Nat.mul_comm dt.w.toNat]
  omega

/-- The Ditherer, the palette and the reference frame in order. -/
abbrev DitherOk (s : State) : Prop :=
  s.pal.wf ∧ s.ref.wf ∧ lineWf s.dt.e0 ∧ lineWf s.dt.e1 ∧ s.storageOk ∧ s.dithererOk

theorem CodeStep.dt_eq {s t : State} (h : CodeStep s t) :
    t.dt = s.dt ∧ t.cfg = s.cfg ∧ t.pal = s.pal ∧ t.ref = s.ref := by
  unfold CodeStep at h
  rw [h]
  exact ⟨rfl, rfl, rfl, rfl⟩

theorem DitherOk.of_eq {s t : State} (h : DitherOk s) (ht : t.dt = s.dt ∧ t.cfg = s.cfg ∧ t.pal = s.pal ∧ t.ref = s.ref) :
    DitherOk t := by
  obtain ⟨hdt, hcfg, hpal, href⟩ := ht
  unfold DitherOk State.storageOk State.dithererOk State.frameOk at *
  rw [hdt, hcfg, hpal, href]
  exact h

/-- Moving on keeps the Ditherer in order (R181, R182). -/
theorem advance_ok {s : State} (h : DitherOk s) (ha : s.dt.active = true) :
    DitherOk (s.setDt (advance s.dt)) := by
  obtain ⟨hpal, href, hw0, hw1, hst, ho0, ho1, hframe, hidle⟩ := h
  obtain ⟨hx, hy, hw, hrefs, hready⟩ := hframe ha
  have hwlt : s.dt.w.toNat < 65536 := s.dt.w.isLt
  have hhlt : s.dt.h.toNat < 65536 := s.dt.h.isLt
  have sx : (s.dt.x + 1#16).toNat = s.dt.x.toNat + 1 := by
    rw [BitVec.toNat_add]
    simp
    omega
  have sy : (s.dt.y + 1#16).toNat = s.dt.y.toNat + 1 := by
    rw [BitVec.toNat_add]
    simp
    omega
  have nilOk : lineWf ([] : Memory Fixed) ∧ lineOk s.cfg [] := ⟨⟨List.Pairwise.nil, by simp⟩, by simp⟩
  unfold advance
  split
  · split
    · exact ⟨hpal, href, hw1, nilOk.1, hst, ho1, nilOk.2, by simp, by simp⟩
    · rename_i h1
      have h1' : s.dt.y.toNat + 1 ≠ s.dt.h.toNat := fun h => h1 (BitVec.eq_of_toNat_eq (by rw [sy, h]))
      refine ⟨hpal, href, hw1, nilOk.1, hst, ho1, nilOk.2, fun _ => ⟨?_, ?_, hw, hrefs, hready⟩, ?_⟩
      · simp
        omega
      · simp only [State.setDt_dt, sy]
        omega
      · simp [ha]
  · rename_i h1
    have h1' : s.dt.x.toNat + 1 ≠ s.dt.w.toNat := fun h => h1 (BitVec.eq_of_toNat_eq (by rw [sx, h]))
    refine ⟨hpal, href, hw0, hw1, hst, ho0, ho1, fun _ => ⟨?_, hy, hw, hrefs, hready⟩, ?_⟩
    · simp only [State.setDt_dt, sx]
      omega
    · simp [ha]

/-- Storing a pixel keeps the Ditherer, the palette and the reference frame in order. -/
theorem storePixel_ok {p : Pixel} {s : State} (h : DitherOk s) (ha : s.dt.active = true)
    (hl : linesOk s.cfg p.e0 p.e1) : DitherOk (storePixel p s) := by
  obtain ⟨hpal, href, hw0, hw1, ⟨hst, hst'⟩, ho0, ho1, hframe, hidle⟩ := h
  obtain ⟨hx, hy, hw, hrefs, hready⟩ := hframe ha
  obtain ⟨l0, l1, l2, l3⟩ := hl
  unfold storePixel
  simp only
  split
  · rename_i hwref
    refine ⟨hpal, Memory.set_wf href _ _, l0, l1, ⟨hst, fun e he => ?_⟩, l2, l3, fun _ => ⟨hx, hy, hw, hrefs, hready⟩,
      fun h => by simp [ha] at h⟩
    rcases Memory.mem_set he with rfl | he
    · have := hrefs (.inr hwref)
      have := pixelEntry_lt hx hy
      simp only [State.setRef_cfg, State.setDt_cfg]
      omega
    · exact hst' e he
  · exact ⟨hpal, href, l0, l1, ⟨hst, hst'⟩, l2, l3, fun _ => ⟨hx, hy, hw, hrefs, hready⟩,
      fun h => by simp [ha] at h⟩

/-- All units in order. -/
abbrev UnitsRest (t : State) : Prop := t.pk.ok ∧ t.lz.rests ∧ DitherOk t

/-- All units as a sink error may have stopped them. -/
abbrev UnitsStopped (t : State) : Prop := (t.pk.clean ∧ t.pk.buf.length ≤ 255) ∧ t.lz.stopped ∧ DitherOk t

theorem UnitsRest.stopped {t : State} (h : UnitsRest t) : UnitsStopped t :=
  ⟨⟨h.1.1, by have := h.1.2; omega⟩, ⟨h.2.1.1, h.2.1.2.1, by have := h.2.1.2.2; omega⟩, h.2.2⟩

theorem commitPixel_ends {p : Pixel} {s : State} (h : UnitsRest s) (ha : s.dt.active = true)
    (hchain : s.dt.chain = true → s.lz.active = true) (hl : linesOk s.cfg p.e0 p.e1) (R : Cause → Prop) :
    (commitPixel p s).Ends UnitsRest UnitsStopped R := by
  obtain ⟨hpk, hlz, hd⟩ := h
  unfold commitPixel
  refine Flow.Ends.andThen (G' := CodeGoes s) ?_ ?_
  · split
    · rename_i hc
      refine (lzSym_ends p.idx hpk hlz (hchain hc) R).mono (fun _ h => h) (fun t ht => ?_) (fun _ h => h)
      exact ⟨⟨ht.2.1, ht.2.2.1⟩, ht.2.2.2, hd.of_eq ht.1.dt_eq⟩
    · exact ⟨CodeStep.refl s, hpk, hlz⟩
  · rintro t ⟨ht, htpk, htlz⟩
    have hdt := ht.dt_eq
    have hta : t.dt.active = true := by rw [hdt.1]; exact ha
    have hst : DitherOk (storePixel p t) := storePixel_ok (hd.of_eq hdt) hta (by rw [hdt.2.1]; exact hl)
    have hpk' : (storePixel p t).pk = t.pk := by rw [storePixel_frame]
    have hlz' : (storePixel p t).lz = t.lz := by rw [storePixel_frame]
    have hact : (storePixel p t).dt.active = true := by rw [storePixel_dt]; exact hta
    have hrest : UnitsRest (storePixel p t) := ⟨by rw [hpk']; exact htpk, by rw [hlz']; exact htlz, hst⟩
    refine Flow.Ends.andThen (G' := fun u => UnitsRest u ∧ u.dt.active = true) ?_ ?_
    · exact appendPoint_ends (fun k => ⟨hrest, hact⟩) hrest.stopped
    · rintro u ⟨⟨hupk, hulz, hud⟩, hua⟩
      exact ⟨hupk, hulz, advance_ok hud hua⟩

/-- `DT_PIXEL` past its sequence checks (R160): it forms no entry that does not exist, and raises nothing but
`DT_REF_UNINIT` and `DT_RANGE`. -/
theorem ditherPixel_ends {v : Rgb} {s : State} (h : UnitsRest s) (ha : s.dt.active = true)
    (hchain : s.dt.chain = true → s.lz.active = true) :
    (ditherPixel v s).Ends UnitsRest UnitsStopped (fun c => c = .dtRefUninit ∨ c = .dtRange) := by
  obtain ⟨-, -, -, -, hw0, hw1, -, ho0, ho1, hframe, -⟩ := id h
  obtain ⟨hx, hy, hw, hrefs, hready⟩ := hframe ha
  have hl : linesOk s.cfg s.dt.e0 s.dt.e1 := ⟨hw0, hw1, ho0, ho1⟩
  have hentry := pixelEntry_lt hx hy
  unfold ditherPixel
  rw [if_neg (by omega), if_neg]
  · split
    · exact .inl rfl
    · split
      · exact .inr rfl
      · unfold finishPixel
        split
        · exact commitPixel_ends h ha hchain hl _
        · split
          · exact .inr rfl
          · rename_i p hp
            exact commitPixel_ends h ha hchain (searchedPixel_ok hl hx hw hp) _
  · intro hc
    simp only [Bool.and_eq_true, Bool.or_eq_true, decide_eq_true_eq] at hc
    have := hrefs hc.1
    omega

/-! ### A pixel with no sink-error event -/

/-- With no sink-error event, `lz_sym` goes on (R124). -/
theorem lzSym_goes (sym : Byte) {s : State} (hs : s.sink = none) (hpk : s.pk.ok) (hlz : s.lz.rests) :
    ∃ t, lzSym sym s = .go t ∧ CodeStep s t ∧ t.sink = none := by
  have ofEncodes : ∀ {f : Flow} {bits : List Bool} {lz : Lzw}, Encodes s f bits lz →
      ∃ t, f = .go t ∧ CodeStep s t ∧ t.sink = none := by
    rintro f bits lz ⟨t, hgo, -, ht⟩
    refine ⟨t, hgo, ?_, by rw [ht]; exact hs⟩
    unfold CodeStep
    rw [ht]
  unfold lzSym
  split
  · exact ⟨_, rfl, codeStep_setLz s _, hs⟩
  · rename_i p _
    split
    · exact ⟨_, rfl, codeStep_setLz s _, hs⟩
    · by_cases hnext : s.lz.next = 4095#13
      · have hw : s.lz.width = 12#4 := by
          have := hlz.1.2.1
          rw [hnext] at this
          exact BitVec.eq_of_toNat_eq (by rw [this]; decide)
        exact ofEncodes (lzMiss_reset_encodes hs hpk hnext hw)
      · refine ofEncodes (lzMiss_encodes hs hpk fun h => hnext ?_)
        have hle := hlz.2.2
        have := congrArg BitVec.toNat h
        rw [BitVec.toNat_add] at this
        simp at this
        exact BitVec.eq_of_toNat_eq (by simp; omega)

/-- With no sink-error event a pixel is committed in full (R160, R183). -/
theorem commitPixel_goes {p : Pixel} {s : State} (hs : s.sink = none) (h : UnitsRest s) :
    ∃ t, (if s.dt.chain then lzSym p.idx s else .go s) = .go t ∧ CodeStep s t ∧ t.sink = none ∧
      (s.dt.chain = false → t = s) ∧
      commitPixel p s = .go (((storePixel p t).addPix (pixWord p.colour p.idx)).setDt
        (advance { s.dt with e0 := p.e0, e1 := p.e1 })) := by
  have hsym : ∃ t, (if s.dt.chain then lzSym p.idx s else .go s) = .go t ∧ CodeStep s t ∧ t.sink = none ∧
      (s.dt.chain = false → t = s) := by
    cases hc : s.dt.chain with
    | false => exact ⟨s, by simp, CodeStep.refl s, hs, fun _ => rfl⟩
    | true =>
      obtain ⟨t, h1, h2, h3⟩ := lzSym_goes p.idx hs h.1 h.2.1
      exact ⟨t, by simpa using h1, h2, h3, by simp⟩
  obtain ⟨t, hgo, ht, hts, hn⟩ := hsym
  refine ⟨t, hgo, ht, hts, hn, ?_⟩
  unfold commitPixel
  rw [hgo, Flow.go_andThen, emitPix_quiet (by rw [storePixel_frame]; exact hts), Flow.go_andThen]
  simp only [State.addPix_dt, storePixel_dt, ht.dt_eq.1]

end Sys2Proof.Machine
end

