-- ==== Sys2Proof/Laws/PerInstr.lean ====
section
/-! SUPPORT. Per-command facts of the encoding, one lemma for each constructor. -/

namespace Sys2Proof.Laws.ReservedBits

/-- The word of a command carries its operation (R81), and its reserved bits are 0 (R82 to R88, R90). -/
def Statement (i : Instr) : Prop :=
  opField (encode i) = opcodeOf i ∧ encode i &&& reservedMask (opcodeOf i) = 0#32

/-- The reserved bits are 0 where the field they form in the operand bits is. -/
theorem of_field {i : Instr} (op : BitVec 4) (s n : Nat) (hop : opcodeOf i = op) (hle : s + n ≤ 28)
    (hmask : ∀ j, j < 32 → (reservedMask op).getLsbD j = (decide (s ≤ j) && decide (j < s + n)))
    (hbits : (operandBits i).extractLsb' s n = 0#n) : Statement i := by
  refine ⟨Machine.opField_encode i, ?_⟩
  rw [hop]
  refine (and_mask_eq_zero_iff _ s n _ (by omega) hmask).2 ?_
  rw [← hbits]
  apply BitVec.eq_of_getLsbD_eq
  intro j hj
  simp only [encode, BitVec.getLsbD_extractLsb', BitVec.getLsbD_append, show s + j < 28 by omega, if_true]

theorem pkWrite (n : BitVec 5) (v : BitVec 16) : Statement (.pkWrite n v) := by
  refine of_field 0x1#4 21 7 rfl (by omega) (by decide) ?_
  simp only [operandBits, BitVec.append_assoc, BitVec.cast_eq]
  exact BitVec.extractLsb'_append_eq_left

theorem pkPad : Statement .pkPad := of_field 0x2#4 0 28 rfl (by omega) (by decide) rfl
theorem pkFlush : Statement .pkFlush := of_field 0x3#4 0 28 rfl (by omega) (by decide) rfl
theorem lzStart : Statement .lzStart := of_field 0x4#4 0 28 rfl (by omega) (by decide) rfl

theorem lzSym (s : Byte) : Statement (.lzSym s) :=
  of_field 0x5#4 8 20 rfl (by omega) (by decide) BitVec.extractLsb'_append_eq_left

theorem lzEnd : Statement .lzEnd := of_field 0x6#4 0 28 rfl (by omega) (by decide) rfl

theorem dtBegin (chain wref uref : Bool) : Statement (.dtBegin chain wref uref) := by
  refine of_field 0x7#4 3 25 rfl (by omega) (by decide) ?_
  cases chain <;> cases wref <;> cases uref <;> rfl

theorem dtPixel (r g b : Byte) : Statement (.dtPixel r g b) := by
  refine of_field 0x8#4 24 4 rfl (by omega) (by decide) ?_
  simp only [operandBits, BitVec.append_assoc, BitVec.cast_eq]
  exact BitVec.extractLsb'_append_eq_left

theorem palWrite (r g b : Byte) : Statement (.palWrite r g b) := by
  refine of_field 0x9#4 24 4 rfl (by omega) (by decide) ?_
  simp only [operandBits, BitVec.append_assoc, BitVec.cast_eq]
  exact BitVec.extractLsb'_append_eq_left

theorem regWrite (reg : BitVec 4) (val : BitVec 24) : Statement (.regWrite reg val) :=
  ⟨Machine.opField_encode _, BitVec.and_zero⟩

theorem regRead (reg : BitVec 4) : Statement (.regRead reg) :=
  of_field 0xB#4 0 24 rfl (by omega) (by decide) BitVec.extractLsb'_append_eq_right

theorem refWrite (r g b : Byte) : Statement (.refWrite r g b) := by
  refine of_field 0xC#4 24 4 rfl (by omega) (by decide) ?_
  simp only [operandBits, BitVec.append_assoc, BitVec.cast_eq]
  exact BitVec.extractLsb'_append_eq_left

theorem nop : Statement .nop := of_field 0xE#4 0 28 rfl (by omega) (by decide) rfl

theorem reset (payload : BitVec 28) : Statement (.reset payload) := ⟨Machine.opField_encode _, BitVec.and_zero⟩

end Sys2Proof.Laws.ReservedBits
end

