-- ==== Sys2Proof/Laws/SinkError.lean ====
section
/-! SUPPORT. Where the sink-error event stops the pseudocode (R219): a run it reaches against the same run without it, and
what a stopped operation leaves behind. -/

namespace Sys2Proof.Machine

/-! ### A run the event reaches, against the run without it -/

/-- What the event does to an operation begun in `s`. Let the operation go on to `u` where no event comes. With the event
after `k` append points it goes on to the same state where it appends no more than `k` elements; otherwise it is stopped
once it has appended the first `k`. -/
def Sunk (f : State → Flow) (s : State) : Prop :=
  ∀ u, f (s.setSink none) = .go u →
    u.sink = none ∧ u.fault = false ∧ s.out <+: u.out ∧ s.pix <+: u.pix ∧ s.rsp <+: u.rsp ∧
    ∀ k,
      (streamed u ≤ streamed s + k →
        f (s.setSink (some k)) = .go (u.setSink (some (streamed s + k - streamed u)))) ∧
      (streamed s + k < streamed u →
        ∃ t, f (s.setSink (some k)) = .stop t ∧ streamed t = streamed s + k ∧ t.out <+: u.out ∧ t.pix <+: u.pix ∧
          t.rsp <+: u.rsp)

theorem setSink_of_sink {s : State} (h : s.sink = none) : s.setSink none = s := by
  unfold State.setSink
  rw [← h]

theorem streamed_setSink (s : State) (k : Option Nat) : streamed (s.setSink k) = streamed s := rfl

theorem streamed_mono {s t : State} (h1 : s.out <+: t.out) (h2 : s.pix <+: t.pix) (h3 : s.rsp <+: t.rsp) :
    streamed s ≤ streamed t := by
  have := h1.length_le
  have := h2.length_le
  have := h3.length_le
  unfold streamed
  omega

/-- One operation after another. -/
theorem Sunk.andThen {f g : State → Flow} {s : State} (hf : Sunk f s)
    (hg : ∀ u, f (s.setSink none) = .go u → Sunk g u) : Sunk (fun s => (f s).andThen g) s := by
  intro v hv
  obtain ⟨u, hu, hgv⟩ := Flow.andThen_eq_go hv
  obtain ⟨us, uf, o1, p1, r1, hk⟩ := hf u hu
  obtain ⟨vs, vf, o2, p2, r2, hk'⟩ := hg u hu v (by rw [setSink_of_sink us]; exact hgv)
  have m1 := streamed_mono o1 p1 r1
  have m2 := streamed_mono o2 p2 r2
  refine ⟨vs, vf, o1.trans o2, p1.trans p2, r1.trans r2, fun k => ⟨fun hle => ?_, fun hlt => ?_⟩⟩
  · have h2 := (hk' (streamed s + k - streamed u)).1 (by omega)
    simp only [(hk k).1 (Nat.le_trans m2 hle), Flow.go_andThen, h2]
    congr 3
    omega
  · by_cases hsu : streamed u ≤ streamed s + k
    · obtain ⟨t, ht, h1, h2⟩ := (hk' (streamed s + k - streamed u)).2 (by omega)
      exact ⟨t, by simp only [(hk k).1 hsu, Flow.go_andThen, ht], by omega, h2⟩
    · obtain ⟨t, ht, h1, h2, h3, h4⟩ := (hk k).2 (by omega)
      exact ⟨t, by simp only [ht, Flow.stop_andThen], h1, h2.trans o2, h3.trans p2, h4.trans r2⟩

/-- An operation that appends nothing. -/
theorem Sunk.pure {h : State → State} {s : State} (hf : s.fault = false)
    (hsink : ∀ k, h (s.setSink k) = (h s).setSink k) (hfault : (h s).fault = s.fault) (ho : (h s).out = s.out)
    (hp : (h s).pix = s.pix) (hr : (h s).rsp = s.rsp) : Sunk (fun s => .go (h s)) s := by
  intro u hu
  simp only [hsink, Flow.go.injEq] at hu
  subst hu
  refine ⟨rfl, by rw [State.setSink_fault, hfault, hf], by simp [ho], by simp [hp], by simp [hr], fun k => ?_⟩
  have : streamed ((h s).setSink none) = streamed s := by
    unfold streamed
    simp [ho, hp, hr]
  simp only [this, hsink]
  refine ⟨fun _ => ?_, fun h => absurd h (by omega)⟩
  rw [Nat.add_sub_cancel_left]
  rfl

/-- One append point. -/
theorem Sunk.append {h : State → State} {s : State} (hf : s.fault = false)
    (hsink : ∀ k, h (s.setSink k) = (h s).setSink k) (hfault : (h s).fault = s.fault) (ho : s.out <+: (h s).out)
    (hp : s.pix <+: (h s).pix) (hr : s.rsp <+: (h s).rsp) (hone : streamed (h s) = streamed s + 1) :
    Sunk (fun s => appendPoint s (h s)) s := by
  intro u hu
  simp only [appendPoint_quiet (State.setSink_sink s none), hsink, Flow.go.injEq] at hu
  subst hu
  refine ⟨rfl, by rw [State.setSink_fault, hfault, hf], ho, hp, hr, fun k => ?_⟩
  rw [streamed_setSink, hone]
  simp only [appendPoint, State.setSink_fault, hf, State.setSink_sink, hsink]
  cases k with
  | zero =>
    refine ⟨fun h => absurd h (by omega), fun _ => ⟨_, rfl, rfl, ho, hp, hr⟩⟩
  | succ k =>
    refine ⟨fun _ => ?_, fun h => absurd h (by omega)⟩
    rw [show streamed s + (k + 1) - (streamed s + 1) = k by omega]
    rfl

/-- A choice that the event has no part in. -/
theorem Sunk.ite {c : State → Prop} [DecidablePred c] {f g : State → Flow} {s : State}
    (hc : ∀ k, c (s.setSink k) ↔ c s) (hf : c s → Sunk f s) (hg : ¬c s → Sunk g s) :
    Sunk (fun s => if c s then f s else g s) s := by
  intro u hu
  by_cases h : c s
  · simp only [hc, if_pos h] at hu ⊢
    exact hf h u hu
  · simp only [hc, if_neg h] at hu ⊢
    exact hg h u hu

theorem Sunk.raise (c : State → Cause) (s : State) : Sunk (fun s => .raise (c s)) s := by
  intro u hu
  cases hu

theorem Sunk.broken (x : State → Fault) (s : State) : Sunk (fun s => .broken (x s)) s := by
  intro u hu
  cases hu

theorem Sunk.congr {f g : State → Flow} {s : State} (h : ∀ k, f (s.setSink k) = g (s.setSink k)) (hg : Sunk g s) :
    Sunk f s := by
  intro u hu
  simp only [h] at hu ⊢
  exact hg u hu

/-- The fault flag after an operation that goes on. -/
theorem Sunk.fault {f : State → Flow} {s u : State} (h : Sunk f s) (hu : f (s.setSink none) = .go u) :
    u.fault = false := (h u hu).2.1

theorem emitOut_sunk (b : Byte) {s : State} (hf : s.fault = false) : Sunk (emitOut b) s :=
  Sunk.append (h := fun s => s.addOut [b]) hf (fun _ => rfl) rfl (List.prefix_append _ _) (List.prefix_refl _)
    (List.prefix_refl _) (by unfold streamed; simp; omega)

theorem emitPix_sunk (w : Word) {s : State} (hf : s.fault = false) : Sunk (emitPix w) s :=
  Sunk.append (h := fun s => s.addPix w) hf (fun _ => rfl) rfl (List.prefix_refl _) (List.prefix_append _ _)
    (List.prefix_refl _) (by unfold streamed; simp; omega)

theorem emitRsp_sunk (w : Word) {s : State} (hf : s.fault = false) : Sunk (emitRsp w) s :=
  Sunk.append (h := fun s => s.addRsp w) hf (fun _ => rfl) rfl (List.prefix_refl _) (List.prefix_refl _)
    (List.prefix_append _ _) (by unfold streamed; simp; omega)

theorem emitOuts_sunk (bs : List Byte) {s : State} (hf : s.fault = false) : Sunk (emitOuts bs) s := by
  induction bs generalizing s with
  | nil => exact Sunk.pure (h := id) hf (fun _ => rfl) rfl rfl rfl rfl
  | cons b bs ih => exact Sunk.andThen (emitOut_sunk b hf) fun u hu => ih ((emitOut_sunk b hf).fault hu)

/-- A write of the packer's state. -/
theorem setPk_sunk (pk : State → Packer) {s : State} (hpk : ∀ k, pk (s.setSink k) = pk s) (hf : s.fault = false) :
    Sunk (fun s => .go (s.setPk (pk s))) s :=
  Sunk.pure (h := fun s => s.setPk (pk s)) hf (fun k => by simp only [hpk]; rfl) rfl rfl rfl rfl

/-- A write of the encoder's state. -/
theorem setLz_sunk (lz : State → Lzw) {s : State} (hlz : ∀ k, lz (s.setSink k) = lz s) (hf : s.fault = false) :
    Sunk (fun s => .go (s.setLz (lz s))) s :=
  Sunk.pure (h := fun s => s.setLz (lz s)) hf (fun k => by simp only [hlz]; rfl) rfl rfl rfl rfl

/-- Going on from a state written first. -/
theorem Sunk.after {f : State → Flow} {h : State → State} {s : State} (hf : Sunk f (h s))
    (hsink : ∀ k, h (s.setSink k) = (h s).setSink k) (ho : (h s).out = s.out) (hp : (h s).pix = s.pix)
    (hr : (h s).rsp = s.rsp) : Sunk (fun s => f (h s)) s := by
  intro u hu
  have hstr : streamed (h s) = streamed s := by
    unfold streamed
    rw [ho, hp, hr]
  have := hf u (by rw [← hsink]; exact hu)
  simp only [hsink]
  rwa [ho, hp, hr, hstr] at this

theorem completeByte_sunk (b : Byte) {s : State} (hf : s.fault = false) : Sunk (completeByte b) s := by
  refine Sunk.ite (c := fun s => 255 < (s.pk.buf ++ [b]).length) (fun _ => Iff.rfl) (fun _ => Sunk.raise _ s) fun _ => ?_
  refine Sunk.ite (c := fun s => (s.pk.buf ++ [b]).length = 255) (fun _ => Iff.rfl) (fun _ => ?_) fun _ => ?_
  · have he := Sunk.after (s := s) (h := fun s => s.setPk { accByte := 0#8, bitIdx := 0#3, buf := s.pk.buf ++ [b] })
      (f := emitOuts (255#8 :: (s.pk.buf ++ [b]))) (emitOuts_sunk _ hf) (fun _ => rfl) rfl rfl rfl
    exact Sunk.congr (fun _ => rfl) (Sunk.andThen he fun u hu =>
      setPk_sunk (fun s => { s.pk with buf := [] }) (fun _ => rfl) (he.fault hu))
  · exact setPk_sunk (fun s => { accByte := 0#8, bitIdx := 0#3, buf := s.pk.buf ++ [b] }) (fun _ => rfl) hf

theorem putBit_sunk (b : Bool) {s : State} (hf : s.fault = false) : Sunk (putBit b) s := by
  refine Sunk.ite (c := fun s => s.pk.bitIdx = 7#3) (fun _ => Iff.rfl) (fun _ => ?_) fun _ => ?_
  · exact Sunk.congr (fun _ => rfl)
      (completeByte_sunk (s.pk.accByte ||| ((BitVec.ofBool b).setWidth 8 <<< s.pk.bitIdx.toNat)) hf)
  · exact setPk_sunk (fun s => { s.pk with
      accByte := s.pk.accByte ||| ((BitVec.ofBool b).setWidth 8 <<< s.pk.bitIdx.toNat), bitIdx := s.pk.bitIdx + 1#3 })
      (fun _ => rfl) hf

theorem putBits_sunk (bs : List Bool) {s : State} (hf : s.fault = false) : Sunk (putBits bs) s := by
  induction bs generalizing s with
  | nil => exact Sunk.pure (h := id) hf (fun _ => rfl) rfl rfl rfl rfl
  | cons b bs ih => exact Sunk.andThen (putBit_sunk b hf) fun u hu => ih ((putBit_sunk b hf).fault hu)

theorem writeCode_sunk (v : BitVec 16) (n : Nat) {s : State} (hf : s.fault = false) : Sunk (writeCode v n) s :=
  putBits_sunk _ hf

theorem padLoop_sunk (fuel : Nat) {s : State} (hf : s.fault = false) : Sunk (padLoop fuel) s := by
  induction fuel generalizing s with
  | zero => exact Sunk.pure (h := id) hf (fun _ => rfl) rfl rfl rfl rfl
  | succ fuel ih =>
    refine Sunk.ite (c := fun s => s.pk.bitIdx = 0#3) (fun _ => Iff.rfl) (fun _ => ?_) fun _ => ?_
    · exact Sunk.pure (h := id) hf (fun _ => rfl) rfl rfl rfl rfl
    · exact Sunk.andThen (putBit_sunk false hf) fun u hu => ih ((putBit_sunk false hf).fault hu)

theorem pad_sunk {s : State} (hf : s.fault = false) : Sunk pad s := padLoop_sunk 8 hf

theorem flush_sunk {s : State} (hf : s.fault = false) : Sunk flush s := by
  refine Sunk.ite (c := fun s => s.pk.bitIdx ≠ 0#3) (fun _ => Iff.rfl) (fun _ => Sunk.raise _ s) fun _ => ?_
  refine Sunk.ite (c := fun s => s.pk.buf = []) (fun _ => Iff.rfl) (fun _ => ?_) fun _ => ?_
  · exact Sunk.pure (h := id) hf (fun _ => rfl) rfl rfl rfl rfl
  · have he := emitOuts_sunk (s.pk.bufCnt :: s.pk.buf) hf
    exact Sunk.congr (fun _ => rfl) (Sunk.andThen he fun u hu =>
      setPk_sunk (fun s => { s.pk with buf := [] }) (fun _ => rfl) (he.fault hu))

theorem setCur_sunk (c : BitVec 12) {s : State} (hf : s.fault = false) : Sunk (setCur c) s :=
  setLz_sunk (fun s => { s.lz with cur := some c }) (fun _ => rfl) hf

theorem forcedReset_sunk {s : State} (hf : s.fault = false) : Sunk forcedReset s := by
  refine Sunk.ite (c := fun s => s.lz.width ≠ 12#4) (fun _ => Iff.rfl) (fun _ => Sunk.raise _ s) fun _ => ?_
  have hw := writeCode_sunk clearCode s.lz.width.toNat hf
  exact Sunk.congr (fun _ => rfl) (Sunk.andThen hw fun u hu => setLz_sunk (fun s => lzInit s.lz) (fun _ => rfl) (hw.fault hu))

theorem lzMiss_sunk (p : BitVec 12) (sym : Byte) {s : State} (hf : s.fault = false) : Sunk (lzMiss p sym) s := by
  have hw := writeCode_sunk (p.setWidth 16) s.lz.width.toNat hf
  refine Sunk.congr (fun _ => rfl) (Sunk.andThen hw fun u hu => ?_)
  have huf := hw.fault hu
  have hreset : Sunk (fun s₁ : State =>
      if (s₁.setLz (lzBind s₁.lz p sym)).lz.next = 4096#13 then forcedReset (s₁.setLz (lzBind s₁.lz p sym))
      else .go (s₁.setLz (lzBind s₁.lz p sym))) u := by
    refine Sunk.ite (c := fun s₁ : State => (s₁.setLz (lzBind s₁.lz p sym)).lz.next = 4096#13) (fun _ => Iff.rfl)
      (fun _ => ?_) fun _ => ?_
    · exact Sunk.after (h := fun s₁ => s₁.setLz (lzBind s₁.lz p sym)) (forcedReset_sunk huf) (fun _ => rfl) rfl rfl rfl
    · exact setLz_sunk (fun s => lzBind s.lz p sym) (fun _ => rfl) huf
  exact Sunk.andThen hreset fun v hv => setCur_sunk _ (hreset.fault hv)

theorem lzSym_sunk (sym : Byte) {s : State} (hf : s.fault = false) : Sunk (lzSym sym) s := by
  unfold lzSym
  cases hc : s.lz.cur with
  | none => exact Sunk.congr (fun k => by simp only [State.setSink_lz, hc]) (setCur_sunk (sym.setWidth 12) hf)
  | some p =>
    cases hd : s.lz.dict.get? (dictKey p sym) with
    | some c => exact Sunk.congr (fun k => by simp only [State.setSink_lz, hc, hd]) (setCur_sunk c hf)
    | none => exact Sunk.congr (fun k => by simp only [State.setSink_lz, hc, hd]) (lzMiss_sunk p sym hf)

theorem lzFinish_sunk (p : BitVec 12) {s : State} (hf : s.fault = false) : Sunk (lzFinish p) s := by
  have h1 := writeCode_sunk (p.setWidth 16) s.lz.width.toNat hf
  refine Sunk.congr (fun _ => rfl) (Sunk.andThen h1 fun s₁ hs₁ => ?_)
  have h2 := writeCode_sunk clearCode s₁.lz.width.toNat (h1.fault hs₁)
  refine Sunk.congr (fun _ => rfl) (Sunk.andThen h2 fun s₂ hs₂ => ?_)
  have h3 := writeCode_sunk eoiCode 9 (h2.fault hs₂)
  refine Sunk.andThen h3 fun s₃ hs₃ => ?_
  have h4 := pad_sunk (h3.fault hs₃)
  refine Sunk.andThen h4 fun s₄ hs₄ => ?_
  have h5 := flush_sunk (h4.fault hs₄)
  refine Sunk.andThen h5 fun s₅ hs₅ => ?_
  exact setLz_sunk (fun s => { lzInit s.lz with active := false }) (fun _ => rfl) (h5.fault hs₅)

/-- The encoder's step of a chained pixel. -/
theorem chainSym_sunk (idx : Byte) {s : State} (hf : s.fault = false) :
    Sunk (fun s => if s.dt.chain then lzSym idx s else .go s) s :=
  Sunk.ite (c := fun s => s.dt.chain = true) (fun _ => Iff.rfl) (fun _ => lzSym_sunk idx hf) fun _ =>
    Sunk.pure (h := id) hf (fun _ => rfl) rfl rfl rfl rfl

theorem storePixel_setSink (p : Pixel) (s : State) (k : Option Nat) :
    storePixel p (s.setSink k) = (storePixel p s).setSink k := by
  unfold storePixel
  cases h : s.dt.wref <;> simp only [State.setSink_dt, h] <;> rfl

theorem commitPixel_sunk (p : Pixel) {s : State} (hf : s.fault = false) : Sunk (commitPixel p) s := by
  have h1 := chainSym_sunk p.idx hf
  refine Sunk.andThen h1 fun u hu => ?_
  have huf := h1.fault hu
  have hframe := storePixel_frame p u
  have h2 : Sunk (fun s => emitPix (pixWord p.colour p.idx) (storePixel p s)) u :=
    Sunk.after (h := storePixel p) (emitPix_sunk _ (by rw [hframe]; exact huf)) (storePixel_setSink p u)
      (by rw [hframe]) (by rw [hframe]) (by rw [hframe])
  refine Sunk.andThen h2 fun v hv => ?_
  exact Sunk.pure (h := fun s => s.setDt (advance s.dt)) (h2.fault hv) (fun _ => rfl) rfl rfl rfl rfl

theorem searchedPixel_setSink (acc : Fixed) (s : State) (k : Option Nat) :
    searchedPixel acc (s.setSink k) = searchedPixel acc s := rfl

theorem finishPixel_sunk (acc : Fixed) {s : State} (hf : s.fault = false) : Sunk (finishPixel acc) s := by
  refine Sunk.ite (c := fun s => skipTaken acc s = true) (fun _ => Iff.rfl) (fun _ => ?_) fun _ => ?_
  · exact Sunk.congr (fun _ => rfl) (commitPixel_sunk { idx := 1#8, colour := acc.toRgb, e0 := s.dt.e0, e1 := s.dt.e1 } hf)
  · refine Sunk.ite (c := fun s => palReady s.pal = true) (fun _ => Iff.rfl) (fun _ => ?_) fun _ => Sunk.broken _ s
    cases h : searchedPixel acc s with
    | none => exact Sunk.congr (fun k => by simp only [searchedPixel_setSink, h]) (Sunk.raise (fun _ => .dtRange) s)
    | some p => exact Sunk.congr (fun k => by simp only [searchedPixel_setSink, h]) (commitPixel_sunk p hf)

theorem ditherPixel_sunk (v : Rgb) {s : State} (hf : s.fault = false) : Sunk (ditherPixel v) s := by
  refine Sunk.ite (c := fun s => s.dt.w.toNat ≤ s.dt.x.toNat ∨ s.cfg.maxWidth < s.dt.w.toNat) (fun _ => Iff.rfl)
    (fun _ => Sunk.broken _ s) fun _ => ?_
  refine Sunk.ite (c := fun s => ((s.dt.uref || s.dt.wref) && s.cfg.refDepth ≤ pixelEntry s.dt) = true)
    (fun _ => Iff.rfl) (fun _ => Sunk.broken _ s) fun _ => ?_
  refine Sunk.ite (c := fun s => (s.dt.uref && (s.ref.get? (pixelEntry s.dt)).isNone) = true) (fun _ => Iff.rfl)
    (fun _ => Sunk.raise _ s) fun _ => ?_
  cases h : accumulate (accLimit s.cfg) v (lineGet s.dt.e0 s.dt.x.toNat) with
  | none =>
    exact Sunk.congr (fun k => by simp only [State.setSink_cfg, State.setSink_dt, h]) (Sunk.raise (fun _ => .dtRange) s)
  | some acc => exact Sunk.congr (fun k => by simp only [State.setSink_cfg, State.setSink_dt, h]) (finishPixel_sunk acc hf)

/-- Every command but `RESET`. -/
theorem bodyOf_sunk (i : Instr) {s : State} (hf : s.fault = false) (hi : ∀ payload, i ≠ .reset payload) :
    Sunk (bodyOf i) s := by
  have idle : Sunk (fun s => .go s) s := Sunk.pure (h := id) hf (fun _ => rfl) rfl rfl rfl rfl
  cases i with
  | pkWrite n v =>
    exact Sunk.ite (c := fun _ => 16 < n.toNat) (fun _ => Iff.rfl) (fun _ => Sunk.raise _ s) fun _ =>
      Sunk.ite (c := fun s => s.lz.active = true) (fun _ => Iff.rfl) (fun _ => Sunk.raise _ s) fun _ => writeCode_sunk v _ hf
  | pkPad =>
    exact Sunk.ite (c := fun s => s.lz.active = true) (fun _ => Iff.rfl) (fun _ => Sunk.raise _ s) fun _ => pad_sunk hf
  | pkFlush =>
    exact Sunk.ite (c := fun s => s.lz.active = true) (fun _ => Iff.rfl) (fun _ => Sunk.raise _ s) fun _ => flush_sunk hf
  | lzStart =>
    exact Sunk.ite (c := fun s => s.lz.active = true) (fun _ => Iff.rfl) (fun _ => Sunk.raise _ s) fun _ =>
      Sunk.after (h := fun s => s.setLz { lzInit s.lz with active := true }) (writeCode_sunk clearCode 9 hf)
        (fun _ => rfl) rfl rfl rfl
  | lzSym sym =>
    exact Sunk.ite (c := fun s => s.lz.active = true) (fun _ => Iff.rfl) (fun _ => lzSym_sunk sym hf) fun _ =>
      Sunk.raise _ s
  | lzEnd =>
    refine Sunk.ite (c := fun s => s.lz.active = true) (fun _ => Iff.rfl) (fun _ => ?_) fun _ => Sunk.raise _ s
    cases h : s.lz.cur with
    | none => exact Sunk.congr (fun k => by simp only [State.setSink_lz, h]) (Sunk.raise (fun _ => .lzEmpty) s)
    | some p => exact Sunk.congr (fun k => by simp only [State.setSink_lz, h]) (lzFinish_sunk p hf)
  | dtBegin chain wref uref =>
    refine Sunk.ite (c := fun s => s.dt.active = true) (fun _ => Iff.rfl) (fun _ => Sunk.raise _ s) fun _ => ?_
    refine Sunk.ite (c := fun s => badGeometry wref uref s = true) (fun _ => Iff.rfl) (fun _ => Sunk.raise _ s) fun _ => ?_
    refine Sunk.ite (c := fun s => palReady s.pal = true) (fun _ => Iff.rfl) (fun _ => ?_) fun _ => Sunk.raise _ s
    exact Sunk.pure (h := fun s => s.setDt _) hf (fun _ => rfl) rfl rfl rfl rfl
  | dtPixel r g b =>
    exact Sunk.ite (c := fun s => s.dt.active = true) (fun _ => Iff.rfl)
      (fun _ => Sunk.ite (c := fun s => (s.dt.chain && !s.lz.active) = true) (fun _ => Iff.rfl) (fun _ => Sunk.raise _ s)
        fun _ => ditherPixel_sunk _ hf) fun _ => Sunk.raise _ s
  | palWrite r g b =>
    exact Sunk.ite (c := fun s => s.dt.active = true) (fun _ => Iff.rfl) (fun _ => Sunk.raise _ s) fun _ =>
      Sunk.pure (h := fun s => s.setPal _ _) hf (fun _ => rfl) rfl rfl rfl rfl
  | regWrite reg val =>
    simp only [bodyOf]
    cases writableWidth reg with
    | none => exact Sunk.raise _ s
    | some width =>
      refine Sunk.ite (c := fun _ => 2 ^ width ≤ val.toNat) (fun _ => Iff.rfl) (fun _ => Sunk.raise _ s) fun _ => ?_
      refine Sunk.ite (c := fun s => s.dt.active = true) (fun _ => Iff.rfl) (fun _ => Sunk.raise _ s) fun _ => ?_
      refine Sunk.pure (h := setRegister reg val) hf (fun k => ?_) ?_ ?_ ?_ ?_ <;>
        (unfold setRegister; split <;> rfl)
  | regRead reg =>
    simp only [bodyOf]
    have hk : ∀ k, regValue reg (s.setSink k) = regValue reg s := fun _ => rfl
    cases h : regValue reg s with
    | none => exact Sunk.congr (fun k => by simp only [hk, h]) (Sunk.raise (fun _ => .badReg) s)
    | some v => exact Sunk.congr (fun k => by simp only [hk, h]) (emitRsp_sunk v hf)
  | refWrite r g b =>
    exact Sunk.ite (c := fun s => s.dt.active = true) (fun _ => Iff.rfl) (fun _ => Sunk.raise _ s) fun _ =>
      Sunk.ite (c := fun s => s.cfg.refDepth ≤ s.refPtr.toNat) (fun _ => Iff.rfl) (fun _ => Sunk.raise _ s) fun _ =>
        Sunk.pure (h := fun s => (s.setRef _).setRefPtr _) hf (fun _ => rfl) rfl rfl rfl rfl
  | nop => exact idle
  | reset payload => exact absurd rfl (hi payload)

/-! ### What a stopped operation leaves behind -/

theorem length_bits (pk : Packer) : pk.bits.length = 8 * pk.buf.length + pk.bitIdx.toNat := by
  have : pk.bitIdx.toNat < 8 := pk.bitIdx.isLt
  unfold Packer.bits
  rw [List.length_append, List.length_flatMap, List.length_take, length_byteBits]
  simp
  omega

/-- The bits pending between commands are fewer than a full sub-block's 2040 (R24). -/
theorem Packer.ok.length_bits_lt {pk : Packer} (h : pk.ok) : pk.bits.length < 2040 := by
  have : pk.bitIdx.toNat < 8 := pk.bitIdx.isLt
  have := h.2
  rw [length_bits]
  omega

theorem length_flatMap_byteBits (bs : List Byte) : (bs.flatMap byteBits).length = 8 * bs.length := by
  rw [List.length_flatMap]
  simp
  omega

theorem StoppedEmitting.mono {s t : State} {a : List Bool} (h : StoppedEmitting s t a) (b : List Bool) :
    StoppedEmitting s t (a ++ b) := by
  obtain ⟨pre, d, j, h1, h2, h3, h4, h5, h6⟩ := h
  refine ⟨pre, d, j, h1, h2, h3, h4, h5, h6.trans ?_⟩
  rw [← List.append_assoc]
  exact List.prefix_append _ _

theorem Appends.stoppedEmitting {s t u : State} {a b : List Bool} (h : Appends s t a) (h' : StoppedEmitting t u b) :
    StoppedEmitting s u (a ++ b) := by
  obtain ⟨x, hx, hox, hbx, -⟩ := h
  obtain ⟨pre, d, j, h1, h2, h3, h4, h5, h6⟩ := h'
  refine ⟨x ++ pre, d, j, ?_, h2, h3, ?_, h5, ?_⟩
  · intro e he
    rcases List.mem_append.1 he with he | he
    · exact hx e he
    · exact h1 e he
  · rw [h4, hox, onOut_append]
    simp only [List.append_assoc]
  · rw [List.flatten_append, List.append_assoc, List.flatMap_append, ← List.append_assoc, ← hbx, List.append_assoc]
    exact (List.prefix_append_right_inj _).2 h6

theorem Appends.stoppedFlushing {s t u : State} {a b : List Bool} (h : Appends s t a) (h' : StoppedFlushing t u b) :
    StoppedFlushing s u (a ++ b) := by
  obtain ⟨x, hx, hox, hbx, -⟩ := h
  obtain ⟨pre, d, j, h1, h2, h3, h4, h5, h6⟩ := h'
  refine ⟨x ++ pre, d, j, ?_, h2, h3, ?_, h5, ?_⟩
  · intro e he
    rcases List.mem_append.1 he with he | he
    · exact hx e he
    · exact h1 e he
  · rw [h4, hox, onOut_append]
    simp only [List.append_assoc]
  · rw [List.flatten_append, List.append_assoc, List.flatMap_append, h6, ← List.append_assoc, hbx, List.append_assoc]

/-- Emitting bytes, the event arriving or not. -/
theorem emitOuts_kept (bs : List Byte) (s : State) (R : Cause → Prop) :
    (emitOuts bs s).Ends (fun t => PackerStep s t ∧ t.pk = s.pk ∧ t.out = s.out ++ bs)
      (fun t => PackerStep s t ∧ t.pk = s.pk ∧ ∃ j, j < bs.length ∧ t.out = s.out ++ bs.take j) R := by
  induction bs generalizing s with
  | nil => exact ⟨PackerStep.refl s, rfl, by simp⟩
  | cons b bs ih =>
    refine Flow.Ends.andThen (G' := fun t => PackerStep s t ∧ t.pk = s.pk ∧ t.out = s.out ++ [b]) ?_ ?_
    · exact appendPoint_ends (fun k => ⟨rfl, rfl, rfl⟩) ⟨PackerStep.refl s, rfl, 0, by simp, by simp⟩
    · rintro t ⟨ht, hpk, ho⟩
      refine (ih t).mono (fun u hu => ⟨ht.trans hu.1, by rw [hu.2.1, hpk], by rw [hu.2.2, ho]; simp⟩) ?_ (fun _ h => h)
      rintro u ⟨hu, hpk', j, hj, ho'⟩
      exact ⟨ht.trans hu, by rw [hpk', hpk], j + 1, by simpa using hj, by rw [ho', ho]; simp⟩

/-- Going on from `s`, or stopped, by writing bits. -/
abbrev WritesOrStops (s : State) (f : Flow) (bits : List Bool) : Prop :=
  ∀ R, f.Ends (fun t => PackerStep s t ∧ Appends s t bits) (fun t => PackerStep s t ∧ StoppedEmitting s t bits) R

theorem putBit_kept (b : Bool) {s : State} (hok : s.pk.ok) : WritesOrStops s (putBit b s) [b] := by
  intro R
  obtain ⟨hclean, hlen⟩ := hok
  have hidx : s.pk.bitIdx.toNat < 8 := s.pk.bitIdx.isLt
  have hbits := take_byteBits_putBit s.pk.accByte b s.pk.bitIdx.toNat hidx hclean
  have hlt := toNat_putBit s.pk.accByte b s.pk.bitIdx.toNat hclean
  unfold putBit
  generalize hacc : s.pk.accByte ||| ((BitVec.ofBool b).setWidth 8 <<< s.pk.bitIdx.toNat) = acc at hbits hlt
  simp only
  split
  · rename_i h7
    have h7' : s.pk.bitIdx.toNat = 7 := by simp [h7]
    rw [h7'] at hbits
    have hfull : byteBits acc = (byteBits s.pk.accByte).take 7 ++ [b] := by
      rw [← hbits, List.take_of_length_le (by simp)]
    have hdata : (s.pk.buf ++ [acc]).flatMap byteBits = s.pk.bits ++ [b] := by
      simp [Packer.bits, hfull, h7']
    unfold completeByte
    simp only [List.length_append, List.length_cons, List.length_nil]
    rw [if_neg (by omega)]
    split
    · rename_i h255
      have hd : (s.pk.buf ++ [acc]).length = 255 := by simpa using h255
      refine Flow.Ends.andThen ((emitOuts_kept _ _ R).mono (fun _ h => h) ?_ (fun _ h => h)) ?_
      · rintro t ⟨ht, hpk, j, hj, ho⟩
        refine ⟨(packerStep_setPk s _).trans ht, [], s.pk.buf ++ [acc], j, by simp, hd, ?_, ?_, hpk, ?_⟩
        · simp only [List.length_cons, hd] at hj
          omega
        · rw [ho, hd]
          simp
        · simp only [List.flatten_nil, List.nil_append, hdata]
          exact List.prefix_refl _
      · rintro t ⟨ht, hpk, ho⟩
        refine ⟨((packerStep_setPk s _).trans ht).trans (packerStep_setPk t _), [s.pk.buf ++ [acc]], ?_, ?_, ?_, ?_⟩
        · simpa using h255
        · simp [onOut, ho, show s.pk.buf.length = 254 by omega]
        · simp [Packer.bits, hfull, h7', hpk]
        · simp [Packer.ok, Packer.clean, hpk]
    · refine ⟨packerStep_setPk s _, [], by simp, by simp, ?_, ?_⟩
      · simp [Packer.bits, hfull, h7']
      · simp [Packer.ok, Packer.clean]
        omega
  · rename_i h7
    have h7' : s.pk.bitIdx.toNat ≠ 7 := fun h => h7 (BitVec.eq_of_toNat_eq (by simpa using h))
    have hsucc : (s.pk.bitIdx + 1#3).toNat = s.pk.bitIdx.toNat + 1 := by
      rw [BitVec.toNat_add]
      simp
      omega
    refine ⟨packerStep_setPk s _, [], by simp, by simp, ?_, ?_⟩
    · simp [Packer.bits, hsucc, hbits]
    · simp [Packer.ok, Packer.clean, hsucc, hlt, hlen]

/-- Writing some bits and then others. -/
theorem WritesOrStops.andThen {s : State} {f : Flow} {k : State → Flow} {a b : List Bool} (hf : WritesOrStops s f a)
    (hk : ∀ t, f = .go t → PackerStep s t → Appends s t a → WritesOrStops t (k t) b) :
    WritesOrStops s (f.andThen k) (a ++ b) := by
  intro R
  have hf := hf R
  cases h : f with
  | go t =>
    rw [h] at hf
    exact (hk t h hf.1 hf.2 R).mono (fun u hu => ⟨hf.1.trans hu.1, hf.2.trans hu.2⟩)
      (fun u hu => ⟨hf.1.trans hu.1, hf.2.stoppedEmitting hu.2⟩) (fun _ h => h)
  | stop t =>
    rw [h] at hf
    exact ⟨hf.1, hf.2.mono b⟩
  | raise c =>
    rw [h] at hf
    exact hf
  | broken x =>
    rw [h] at hf
    exact hf

theorem putBits_kept (bs : List Bool) {s : State} (hok : s.pk.ok) : WritesOrStops s (putBits bs s) bs := by
  induction bs generalizing s with
  | nil => exact fun R => ⟨PackerStep.refl s, Appends.refl hok⟩
  | cons b bs ih => exact WritesOrStops.andThen (a := [b]) (putBit_kept b hok) fun t _ _ ht => ih ht.ok

theorem writeCode_kept (v : BitVec 16) (n : Nat) {s : State} (hok : s.pk.ok) :
    WritesOrStops s (writeCode v n s) (lowBits v n) := putBits_kept _ hok

theorem padLoop_kept (n fuel : Nat) {s : State} (hok : s.pk.ok) (hn : (s.pk.bitIdx.toNat + n) % 8 = 0) (hn8 : n < 8)
    (hfuel : n < fuel) : WritesOrStops s (padLoop fuel s) (List.replicate n false) := by
  have hidx : s.pk.bitIdx.toNat < 8 := s.pk.bitIdx.isLt
  induction n generalizing s fuel with
  | zero =>
    obtain ⟨fuel, rfl⟩ : ∃ f, fuel = f + 1 := ⟨fuel - 1, by omega⟩
    have h0 : s.pk.bitIdx = 0#3 := BitVec.eq_of_toNat_eq (by simp; omega)
    unfold padLoop
    rw [if_pos h0]
    exact fun R => ⟨PackerStep.refl s, Appends.refl hok⟩
  | succ n ih =>
    obtain ⟨fuel, rfl⟩ : ∃ f, fuel = f + 1 := ⟨fuel - 1, by omega⟩
    have h0 : s.pk.bitIdx ≠ 0#3 := by
      intro h
      rw [h] at hn
      simp at hn
      omega
    unfold padLoop
    rw [if_neg h0]
    refine WritesOrStops.andThen (a := [false]) (putBit_kept false hok) fun t ht _ hap => ?_
    refine ih fuel hap.ok ?_ (by omega) (by omega) t.pk.bitIdx.isLt
    rw [(putBit_bitIdx ht).1, BitVec.toNat_add]
    simp
    omega

/-- `pad()` (R102) off a byte boundary, and at one. -/
theorem pad_kept {s : State} (hok : s.pk.ok) :
    WritesOrStops s (pad s) (List.replicate (if s.pk.bitIdx = 0#3 then 0 else 8 - s.pk.bitIdx.toNat) false) := by
  have hidx : s.pk.bitIdx.toNat < 8 := s.pk.bitIdx.isLt
  split
  · rename_i h
    exact padLoop_kept 0 8 hok (by simp [h]) (by omega) (by omega)
  · rename_i h
    have h0 : s.pk.bitIdx.toNat ≠ 0 := fun h' => h (BitVec.eq_of_toNat_eq (by simpa using h'))
    exact padLoop_kept _ 8 hok (by omega) (by omega) (by omega)

/-- `flush()` at a byte boundary (R103): stopped, the packer is as it was. -/
theorem flush_kept {s : State} (h0 : s.pk.bitIdx = 0#3) (R : Cause → Prop) :
    (flush s).Ends (PackerStep s) (fun t => PackerStep s t ∧ t.pk = s.pk ∧
      ∃ j, j ≤ s.pk.buf.length ∧ t.out = s.out ++ (BitVec.ofNat 8 s.pk.buf.length :: s.pk.buf).take j) R := by
  unfold flush
  rw [if_neg (by simp [h0])]
  split
  · exact PackerStep.refl s
  · refine Flow.Ends.andThen ((emitOuts_kept _ s R).mono (fun _ h => h) ?_ (fun _ h => h)) ?_
    · rintro t ⟨ht, hpk, j, hj, ho⟩
      exact ⟨ht, hpk, j, by simp at hj; omega, ho⟩
    · rintro t ⟨ht, -, -⟩
      exact ht.trans (packerStep_setPk t _)

end Sys2Proof.Machine
end

