-- ==== Sys2Proof/Tests/Slice0.lean ====
section
/-! SUPPORT. The model's own tests. Expected results come from the spec's encoding tables (spec/30_encoding.md), the
examples of its command rules, and its vectors (spec/95_test_vectors.md). The last part shows, for every statement with
hypotheses, a state and operands that meet them. -/

namespace Sys2Proof.Tests

-- The tests are checked one after another: side by side they would each hold a thread that waits for the kernel.
set_option Elab.async false

open Sys2Proof.Machine Sys2Proof.Claims

/-- The state an outcome goes on from. -/
def after (o : Host.Outcome State Fault Refusal) : Option State :=
  match o with
  | .next s => some s
  | .fault _ => none
  | .refused _ => none

/-- One step on a command word. -/
def run1 (w : Nat) (s : State) : Option State := after (step (s.withFetchWord 32 w))

/-! ### States -/

def start : State := State.reset

/-- The packer one byte short of a sub-block and one bit short of that byte. -/
def almostFull : State := { start with pk := { accByte := 0x55#8, bitIdx := 7#3, buf := List.replicate 254 0xAA#8 } }

/-- After `LZ_START`, `LZ_SYM 1`, `LZ_SYM 2`, `LZ_SYM 1` (vector L4). -/
def stream : State :=
  { start with
    lz := { active := true, dict := [(258, 258#12), (513, 259#12)], cur := some 1#12, width := 9#4, next := 260#13 }
    pk := { accByte := 0x00#8, bitIdx := 3#3, buf := [0x00#8, 0x03#8, 0x08#8] } }

/-- A code stream with `LZ.NEXT` and `LZ.WIDTH` moved on. -/
def streamAt (next : BitVec 13) (width : BitVec 4) : State :=
  { stream with lz := { stream.lz with next := next, width := width } }

/-- A stream just opened: nothing matched yet. -/
def opened : State :=
  { start with
    lz := { active := true, dict := [], cur := none, width := 9#4, next := 258#13 }
    pk := { accByte := 0x01#8, bitIdx := 1#3, buf := [0x00#8] } }

/-- Slots 2 to 254 all (128, 128, 128): the vectors' "Gray128 palette". -/
def grays : Memory Rgb := (List.range' 2 253).map fun i => (i, ⟨128#8, 128#8, 128#8⟩)

/-- The grays loaded and a 2 by 2 frame configured. -/
def loaded : State := { start with pal := grays, dtWidth := 2#16, dtHeight := 2#16 }

/-- A 2 by 2 frame in progress, at its first pixel. -/
def frame : State := { loaded with dt := { Ditherer.reset with active := true, w := 2#16, h := 2#16 } }

/-- That frame at its last pixel. -/
def lastPixel : State := { frame with dt := { frame.dt with x := 1#16, y := 1#16 } }

/-- That frame, chained into an open code stream. -/
def chained : State :=
  { frame with dt := { frame.dt with chain := true }, lz := stream.lz, pk := stream.pk }

/-- That frame, comparing against a reference frame that holds its first pixel. -/
def compared : State := { frame with dt := { frame.dt with uref := true }, ref := [(0, ⟨9#8, 8#8, 7#8⟩)] }

/-- A frame on a 20-bit datapath, with a large error waiting at its first pixel. -/
def narrow : State :=
  { frame with
    cfg := { Params.sample with accBits := 20 }
    dt := { frame.dt with e0 := [(0, { r := 524000, g := 0, b := 0 })] } }

/-- A faulted block. -/
def faulted : State := start.setFault .pkFlushPartial 0x30000000#32

theorem mem_grays {e : Nat × Rgb} : e ∈ grays ↔ (2 ≤ e.1 ∧ e.1 ≤ 254) ∧ e.2 = ⟨128#8, 128#8, 128#8⟩ := by
  obtain ⟨i, c⟩ := e
  simp only [grays, List.mem_map, List.mem_range'_1, Prod.mk.injEq]
  constructor
  · rintro ⟨j, hj, rfl, rfl⟩
    exact ⟨by omega, rfl⟩
  · rintro ⟨hi, rfl⟩
    exact ⟨i, by omega, rfl, rfl⟩

theorem grays_wf : grays.wf := by
  unfold grays Memory.wf
  rw [List.pairwise_map]
  exact List.pairwise_lt_range'

theorem grays_slots : ∀ e ∈ grays, 2 ≤ e.1 ∧ e.1 ≤ 254 := fun _ he => (mem_grays.1 he).1

theorem grays_ready : palReady grays = true := by
  rw [palReady_iff]
  intro i h2 h254
  have : grays.get? i = some ⟨128#8, 128#8, 128#8⟩ :=
    (Memory.get?_eq_some_iff grays_wf).2 (mem_grays.2 ⟨⟨h2, h254⟩, rfl⟩)
  simp [palValid, this]

/-! ### Well-formedness (R93) -/

theorem test_wellFormed_refuses_pkWrite_count_17 : (Instr.pkWrite 17#5 0#16).wellFormed = false := by decide
theorem test_wellFormed_takes_pkWrite_count_16 : (Instr.pkWrite 16#5 0#16).wellFormed = true := by decide
theorem test_wellFormed_refuses_reset_payload : (Instr.reset 1#28).wellFormed = false := by decide
theorem test_wellFormed_takes_reset : (Instr.reset 0#28).wellFormed = true := by decide

/-! ### Decoding: words written out from R82 to R88 -/

theorem test_decode_pkWrite :
    decodeWord 0b0001_0000000_10000_1010101111001101#32 = .instr (.pkWrite 16#5 0xABCD#16) := by decide
theorem test_decode_pkWrite_count_31 :
    decodeWord 0b0001_0000000_11111_0000000000000001#32 = .instr (.pkWrite 31#5 1#16) := by decide
theorem test_decode_pkPad : decodeWord 0b0010_0000000000000000000000000000#32 = .instr .pkPad := by decide
theorem test_decode_pkFlush : decodeWord 0b0011_0000000000000000000000000000#32 = .instr .pkFlush := by decide
theorem test_decode_lzStart : decodeWord 0b0100_0000000000000000000000000000#32 = .instr .lzStart := by decide
theorem test_decode_lzSym : decodeWord 0b0101_00000000000000000000_10000001#32 = .instr (.lzSym 129#8) := by decide
theorem test_decode_lzEnd : decodeWord 0b0110_0000000000000000000000000000#32 = .instr .lzEnd := by decide
theorem test_decode_dtBegin_chain :
    decodeWord 0b0111_0000000000000000000000000_1_0_0#32 = .instr (.dtBegin true false false) := by decide
theorem test_decode_dtBegin_wref :
    decodeWord 0b0111_0000000000000000000000000_0_1_0#32 = .instr (.dtBegin false true false) := by decide
theorem test_decode_dtBegin_uref :
    decodeWord 0b0111_0000000000000000000000000_0_0_1#32 = .instr (.dtBegin false false true) := by decide
theorem test_decode_dtPixel :
    decodeWord 0b1000_0000_00000001_00000010_00000011#32 = .instr (.dtPixel 1#8 2#8 3#8) := by decide
theorem test_decode_palWrite :
    decodeWord 0b1001_0000_00000001_00000010_00000011#32 = .instr (.palWrite 1#8 2#8 3#8) := by decide
theorem test_decode_regWrite :
    decodeWord 0b1010_0110_100000000000000000000001#32 = .instr (.regWrite 6#4 0x800001#24) := by decide
theorem test_decode_regRead : decodeWord 0b1011_1000_000000000000000000000000#32 = .instr (.regRead 8#4) := by decide
theorem test_decode_refWrite :
    decodeWord 0b1100_0000_00000001_00000010_00000011#32 = .instr (.refWrite 1#8 2#8 3#8) := by decide
theorem test_decode_nop : decodeWord 0b1110_0000000000000000000000000000#32 = .instr .nop := by decide
theorem test_decode_reset :
    decodeWord 0b1111_0000101010111100110111101111#32 = .instr (.reset 0x0ABCDEF#28) := by decide

theorem test_decode_op_0_illegal : decodeWord 0#32 = .illegalOpcode := by decide
theorem test_decode_op_D_illegal : decodeWord 0xDFFFFFFF#32 = .illegalOpcode := by decide
theorem test_decode_pkWrite_bit_21_reserved : decodeWord 0x10200000#32 = .reservedBits := by decide
theorem test_decode_pkWrite_bit_27_reserved : decodeWord 0x18000000#32 = .reservedBits := by decide
theorem test_decode_lzSym_bit_8_reserved : decodeWord 0x50000100#32 = .reservedBits := by decide
theorem test_decode_dtBegin_bit_3_reserved : decodeWord 0x70000008#32 = .reservedBits := by decide
theorem test_decode_dtPixel_bit_24_reserved : decodeWord 0x81000000#32 = .reservedBits := by decide
theorem test_decode_regRead_bit_23_reserved : decodeWord 0xB0800000#32 = .reservedBits := by decide
theorem test_decode_nop_bit_0_reserved : decodeWord 0xE0000001#32 = .reservedBits := by decide
theorem test_decodeTableWord : decodeTableWord 32 0x70000000 = some (.dtBegin false false false) := by decide

/-! ### One step each -/

/-- R104's example. -/
theorem test_pkWrite : (run1 0x10030005 start).map (fun t => (t.pk, t.out)) =
    some ({ accByte := 0x05#8, bitIdx := 3#3, buf := [] }, []) := by decide +kernel

/-- Vector PK6: a code that straddles the 255th byte. -/
theorem test_pkWrite_emits_full_subblock :
    (run1 0x100C0FFF { start with pk := { accByte := 0#8, bitIdx := 0#3, buf := List.replicate 254 0xAA#8 } }).map
      (fun t => (t.pk, t.out)) =
    some ({ accByte := 0x0F#8, bitIdx := 4#3, buf := [] }, 0xFF#8 :: (List.replicate 254 0xAA#8 ++ [0xFF#8])) := by
  decide +kernel

/-- R105's example. -/
theorem test_pkPad :
    (run1 0x20000000 { start with pk := { accByte := 0x05#8, bitIdx := 3#3, buf := [] } }).map (fun t => t.pk) =
    some { accByte := 0#8, bitIdx := 0#3, buf := [0x05#8] } := by decide +kernel

/-- R106's example. -/
theorem test_pkFlush :
    (run1 0x30000000 { start with pk := { accByte := 0#8, bitIdx := 0#3, buf := [0x05#8] } }).map
      (fun t => (t.pk.buf, t.out)) = some ([], [0x01#8, 0x05#8]) := by decide +kernel

/-- Vector PK3. -/
theorem test_pkFlush_partial :
    (run1 0x30000000 { start with pk := { accByte := 0x05#8, bitIdx := 3#3, buf := [] } }).map
      (fun t => (statusWord t, t.faultCmd, t.pk.bitIdx, t.out)) =
    some (0x0701#32, 0x30000000#32, 3#3, []) := by decide +kernel

/-- R126's example. -/
theorem test_lzStart : (run1 0x40000000 start).map (fun t => (lzStateWord t, pkStateWord t)) =
    some (0x10009102#32, 0x00010101#32) := by decide +kernel

/-- Vector L4, `LZ_SYM 2` after `LZ_SYM 1`: a miss. -/
theorem test_lzSym_miss :
    (run1 0x50000002 { opened with lz := { opened.lz with cur := some 1#12 } }).map
      (fun t => (lzStateWord t, pkStateWord t, t.lz.dict)) =
    some (0x00029103#32, 0x00020002#32, [(258, 258#12)]) := by decide +kernel

/-- Vector L4, `LZ_SYM 2` after the second `LZ_SYM 1`: a hit. -/
theorem test_lzSym_hit : (run1 0x50000002 stream).map (fun t => (lzStateWord t, pkStateWord t)) =
    some (0x01029104#32, 0x00030003#32) := by decide +kernel

/-- R128's example. -/
theorem test_lzEnd :
    (run1 0x60000000 { opened with lz := { opened.lz with cur := some 0#12 } }).map
      (fun t => (t.out, lzStateWord t, pkStateWord t, t.lz.active)) =
    some ([0x05#8, 0x00#8, 0x01#8, 0x00#8, 0x0C#8, 0x08#8], 0x10009102#32, 0#32, false) := by decide +kernel

/-- Vector L8. -/
theorem test_lzEnd_empty : (run1 0x60000000 opened).map (fun t => (t.cause, t.faultCmd, pkStateWord t)) =
    some (.lzEmpty, 0x60000000#32, 0x00010101#32) := by decide +kernel

/-- A frame begins once the grays are loaded. -/
theorem loaded_begins (chain wref uref : Bool) : exec (.dtBegin chain wref uref) loaded =
    .next { loaded with
      dt := { Ditherer.reset with
        active := true, w := 2#16, h := 2#16, chain := chain, wref := wref, uref := uref } } := by
  have hbad : badGeometry wref uref loaded = false := by cases wref <;> cases uref <;> decide
  simp only [exec, execDtBegin, command, hbad, show loaded.fault = false from rfl, show loaded.dt.active = false from rfl,
    show loaded.pal = grays from rfl, grays_ready]
  rfl

/-- R153's example. -/
theorem test_dtBegin : (after (exec (.dtBegin true true false) loaded)).map (fun t => (statusWord t, posWord t)) =
    some (0x0000002C#32, 0#32) := by
  rw [loaded_begins]
  decide +kernel

/-- R155: an unwritten slot. -/
theorem test_dtBegin_palette_not_loaded :
    (run1 0x70000000 { loaded with pal := grays.tail }).map (fun t => t.cause) = some .dtPalUninit := by
  decide +kernel

/-- R160's example. -/
theorem test_dtPixel : (run1 0x80646464 frame).map (fun t => (t.pix, t.dt.e0, t.dt.e1, posWord t)) =
    some ([0x80808002#32], [(1, { r := -3136, g := -3136, b := -3136 })],
      [(0, { r := -2240, g := -2240, b := -2240 }), (1, { r := -448, g := -448, b := -448 })], 1#32) := by
  decide +kernel

/-- R170 and R182: a skipped last pixel ends the frame and is mirrored (R180). -/
theorem test_dtPixel_skip_last :
    (run1 0x80090807
      { lastPixel with dt := { lastPixel.dt with uref := true, wref := true }, ref := [(3, ⟨9#8, 8#8, 7#8⟩)] }).map
      (fun t => (t.pix, t.ref, t.dt.active, posWord t)) =
    some ([0x09080701#32], [(3, ⟨9#8, 8#8, 7#8⟩)], false, 0#32) := by decide +kernel

/-- R176's example: truncation toward zero. -/
theorem test_share_truncates : share 2147483648 (-11340) 7 = some (-4961) := by decide +kernel

/-- R151's example. -/
theorem test_palWrite : (run1 0x90808080 { start with palPtr := 2#8 }).map (fun t => (t.pal, t.palPtr)) =
    some ([(2, ⟨128#8, 128#8, 128#8⟩)], 3#8) := by decide +kernel

/-- Vector D14: a hardwired slot, and the pointer's wrap. -/
theorem test_palWrite_slot_255 : (run1 0x90010203 { start with palPtr := 255#8 }).map
    (fun t => (palRead t.pal 255, t.palPtr)) = some (⟨255#8, 255#8, 255#8⟩, 0#8) := by decide +kernel

/-- R191's examples. -/
theorem test_regWrite : (run1 0xA3000002 start).map (fun t => t.dtWidth) = some 2#16 := by decide +kernel
theorem test_regWrite_too_wide : (run1 0xA5000100 start).map (fun t => (t.cause, t.palPtr)) =
    some (.regValue, 0#8) := by decide +kernel

/-- R190's examples. -/
theorem test_regRead : (run1 0xB8000000 start).map (fun t => t.rsp) = some [0x10009102#32] := by decide +kernel
theorem test_regRead_reserved : (run1 0xBD000000 start).map (fun t => (t.rsp, statusWord t)) =
    some ([0#32], 0x0301#32) := by decide +kernel

/-- R152's example. -/
theorem test_refWrite : (run1 0xC0010203 start).map (fun t => (t.ref, t.refPtr)) =
    some ([(0, ⟨1#8, 2#8, 3#8⟩)], 1#24) := by decide +kernel

/-- R152: the pointer does not wrap. -/
theorem test_refWrite_past_end : (run1 0xC0000000 { start with refPtr := 1048576#24 }).map
    (fun t => (t.cause, t.refPtr)) = some (.refRange, 1048576#24) := by decide +kernel

/-- R192's example. -/
theorem test_nop : run1 0xE0000000 start = some start := by decide +kernel

/-- R193's example. -/
theorem test_reset : (run1 0xF0000000 faulted).map (fun t => (statusWord t, lzStateWord t)) =
    some (0#32, 0x10009102#32) := by decide +kernel

/-- R91: the zero word. -/
theorem test_zero_word : (run1 0 start).map (fun t => (statusWord t, t.faultCmd)) = some (0x0101#32, 0#32) := by decide +kernel

/-- R216: a word is discarded while faulted. -/
theorem test_faulted_discards : run1 0x10030005 faulted = some faulted := by decide +kernel

/-- R219: the event at a `REG_READ`'s own append point, and between two commands. -/
theorem test_sink_error_in_command :
    (after (step { start with port := [0xB0000000#32], host := [.letRun (some 0)] })).map
      (fun t => (t.rsp, statusWord t, t.faultCmd)) = some ([], 0x1401#32, 0xB0000000#32) := by decide +kernel
theorem test_sink_error_between_commands :
    (after (step { start with host := [.sinkErr] })).map (fun t => (statusWord t, t.faultCmd)) =
    some (0x1401#32, 0#32) := by decide +kernel

/-- Vector F9: the event at the emit of a full sub-block. -/
theorem test_sink_error_at_full_subblock :
    (after (step { start with
      pk := { accByte := 0#8, bitIdx := 0#3, buf := List.replicate 254 0xAA#8 }
      port := [0x100800AA#32], host := [.letRun (some 0)] })).map
      (fun t => (t.out, statusWord t, t.faultCmd, pkStateWord t)) =
    some ([], 0x1401#32, 0x100800AA#32, 0x00FF0000#32) := by decide +kernel

/-- R64: the host takes elements from the front, and they are its own. -/
theorem test_takeOut :
    (after (step { start with out := [1#8, 2#8, 3#8], host := [.takeOut 2] })).map (fun t => (t.out, t.taken.out)) =
    some ([3#8], [1#8, 2#8]) := by decide +kernel

/-- R14: a run has no result while an element is still to be taken, and holds what was taken when it is over. -/
theorem test_result : ({ start with out := [3#8] } : State).result = none ∧
    (({ start with taken := { start.taken with out := [3#8] } } : State).result.map fun r => (r.out, r.registers.length)) =
      some ([3#8], 13) := by decide +kernel

/-! ### The invariant at the states used below -/

/-- The invariant of a state with the grays loaded and a frame in progress, from its parts but the palette's. -/
theorem inv_of_grays {s : State} (hpal : s.pal = grays) (ha : s.dt.active = true) (legal : s.cfg.Legal)
    (memory : s.ref.wf ∧ s.lz.dict.wf ∧ lineWf s.dt.e0 ∧ lineWf s.dt.e1) (href : ∀ e ∈ s.ref, e.1 < s.cfg.refDepth)
    (faultRegs : s.faultOk) (packer : s.packerOk) (lzw : s.lzOk) (lines : lineOk s.cfg s.dt.e0 ∧ lineOk s.cfg s.dt.e1)
    (hframe : s.dt.x.toNat < s.dt.w.toNat ∧ s.dt.y.toNat < s.dt.h.toNat ∧ s.dt.w.toNat ≤ s.cfg.maxWidth ∧
      s.dt.w.toNat * s.dt.h.toNat ≤ s.cfg.refDepth) (noSink : s.sink = none) : s.Inv :=
  { legal, faultRegs, packer, lzw, noSink
    memory := ⟨by rw [hpal]; exact grays_wf, memory⟩
    storage := ⟨by rw [hpal]; exact grays_slots, href⟩
    ditherer := ⟨lines.1, lines.2,
      fun _ => ⟨hframe.1, hframe.2.1, hframe.2.2.1, fun _ => hframe.2.2.2, by rw [hpal]; exact grays_ready⟩,
      fun h => by simp [ha] at h⟩ }

theorem start_inv : start.Inv := by
  constructor <;> decide +kernel
theorem stream_inv : stream.Inv := by
  constructor <;> decide +kernel
theorem frame_inv : frame.Inv := by
  apply inv_of_grays rfl rfl <;> decide +kernel
theorem chained_inv : chained.Inv := by
  apply inv_of_grays rfl rfl <;> decide +kernel
theorem compared_inv : compared.Inv := by
  apply inv_of_grays rfl rfl <;> decide +kernel
theorem narrow_inv : narrow.Inv := by
  apply inv_of_grays rfl rfl <;> decide +kernel

/-- The reset memories are in canonical form. -/
theorem reset_memWf : State.reset.memWf := by decide

/-! ### Witnesses: for each statement with hypotheses, a state and operands that meet them

One theorem for each clause. Statements without hypotheses have none. -/

theorem witness_EncodeOfDecodeIsTheWord : decodeWord 0x101FFFFF#32 = .instr (.pkWrite 31#5 0xFFFF#16) := by decide

theorem witness_RejectedWordsAreTheReservedOnes :
    opField 0x18000000#32 = 0x1#4 ∧ (0x18000000#32 : Word).extractLsb' 21 7 ≠ 0#7 := by decide

theorem witness_StepExecutesTheNextWord :
    let s : State := { start with port := [0x20000000#32] }
    s.port = 0x20000000#32 :: [] ∧ decodeWord 0x20000000#32 = .instr .pkPad ∧ s.host = [] := by decide

theorem witness_StepExecutesTheNextWord_scheduled :
    let s : State := { start with port := [0x20000000#32], host := [.letRun (some 0)] }
    s.port = 0x20000000#32 :: [] ∧ decodeWord 0x20000000#32 = .instr .pkPad ∧ s.host = .letRun (some 0) :: [] := by
  decide

theorem witness_StepExecutesTheNextWord_no_command :
    ({ start with port := [0xD0000000#32] } : State).port = 0xD0000000#32 :: [] ∧ start.host = [] := by decide
theorem witness_StepExecutesTheNextWord_host : ∀ a ∈ [HostAction.write 0#32, .takeOut 0, .takePix 1, .takeRsp 2],
    ({ start with host := [a] } : State).host = a :: [] := by decide

theorem witness_IdleBlockKeepsItsState : start.host = [] ∧ start.port = [] ∧ start.sink = none ∧ start.out = [] ∧
    start.pix = [] ∧ start.rsp = [] := by decide
theorem witness_IdleBlockKeepsItsState_result : ∃ r, start.result = some r := ⟨_, rfl⟩

theorem witness_WordIsDecided_reset : opField 0xFFFFFFFF#32 = 0xF#4 := by decide
theorem witness_WordIsDecided_faulted_read :
    opField 0xBF000001#32 ≠ 0xF#4 ∧ faulted.fault = true ∧ opField 0xBF000001#32 = 0xB#4 := by decide
theorem witness_WordIsDecided_faulted_other :
    opField 0#32 ≠ 0xF#4 ∧ faulted.fault = true ∧ opField 0#32 ≠ 0xB#4 := by decide
theorem witness_WordIsDecided_illegal : start.fault = false ∧ opField 0xD0000000#32 = 0xD#4 := by decide
theorem witness_WordIsDecided_reserved : start.fault = false ∧ opField 0x10200000#32 ≠ 0x0#4 ∧
    opField 0x10200000#32 ≠ 0xD#4 ∧ 0x10200000#32 &&& reservedMask (opField 0x10200000#32) ≠ 0#32 := by decide
theorem witness_WordIsDecided_command : start.fault = false ∧ opField 0x101FFFFF#32 ≠ 0x0#4 ∧
    opField 0x101FFFFF#32 ≠ 0xD#4 ∧ 0x101FFFFF#32 &&& reservedMask (opField 0x101FFFFF#32) = 0#32 := by decide

theorem witness_FaultEntryIsPrecise :
    start.fault = false ∧ ∃ t, exec (.regRead 15#4) start = .next t ∧ t.fault = true ∧ t.cause ≠ .sinkError :=
  ⟨rfl, _, rfl, rfl, by decide⟩
theorem witness_FaultEntryIsPrecise_words : start.fault = false ∧ decodeWord 0xD0000000#32 = .illegalOpcode ∧
    decodeWord 0xBF000001#32 = .reservedBits := by decide

theorem witness_CommandsRaiseOnlyTheirCauses :
    start.fault = false ∧ ∃ t, exec (.pkWrite 17#5 0#16) start = .next t ∧ t.fault = true := ⟨rfl, _, rfl, rfl⟩

theorem witness_FaultedBlockServesOnlyReads : faulted.fault = true := by decide

theorem witness_OnlyResetLeavesAFault : faulted.fault = true ∧ ∃ t, step faulted = .next t := ⟨rfl, _, rfl⟩

theorem witness_RegRead_faulted : faulted.fault = true := by decide
theorem witness_RegRead_reserved : start.fault = false ∧ 13 ≤ (13#4).toNat ∧ 13 ≤ (15#4).toNat := by decide
theorem witness_RegRead_answered : start.fault = false ∧ (12#4).toNat ≤ 12 ∧ start.sink = none := by decide
theorem witness_RegRead_stopped :
    let s : State := { start with sink := some 0 }
    s.fault = false ∧ (12#4).toNat ≤ 12 ∧ s.sink = some 0 := by decide
theorem witness_RegRead_reserved_bits : opField 0xB0800000#32 = 0xB#4 ∧
    (0xB0800000#32 : Word).extractLsb' 0 24 ≠ 0#24 ∧ start.fault = false ∧ faulted.fault = true := by decide

theorem witness_StatusRegisterLayout : start.fault = false := by decide

theorem witness_NopChangesNothing : opField 0xE8000000#32 = 0xE#4 ∧ (0xE8000000#32 : Word) ≠ 0xE0000000#32 ∧
    start.fault = false ∧ faulted.fault = true := by decide

theorem witness_UnitRegisterLayouts : (4095#13).toNat ≤ 4095 ∧ stream.lz.cur = some 1#12 ∧ opened.lz.cur = none ∧
    almostFull.pk.buf.length ≤ 255 := by decide +kernel

theorem witness_PlainRegisterValues :
    ({ maxWidth := 65535, refDepth := 16777215, accBits := 64 } : Params).Legal := by decide
theorem witness_PlainRegisterValues_least : ({ maxWidth := 1, refDepth := 1, accBits := 20 } : Params).Legal := by decide

theorem witness_RegWriteSetsOneRegister : start.fault = false ∧ start.dt.active = false ∧
    (0xFFFF#24).toNat < 2 ^ 16 ∧ (0xFF#24).toNat < 2 ^ 8 ∧ (0xFFFFFF#24).toNat < 2 ^ 24 := by decide

theorem witness_RegWriteFaults_bad_number :
    start.fault = false ∧ (2#4 : BitVec 4) ≠ 3#4 ∧ (7#4 : BitVec 4) ≠ 6#4 ∧ (15#4 : BitVec 4) ≠ 6#4 := by decide
theorem witness_RegWriteFaults_16_bits : start.fault = false ∧ 2 ^ 16 ≤ (0x10000#24).toNat := by decide
theorem witness_RegWriteFaults_8_bits : start.fault = false ∧ 2 ^ 8 ≤ (0x100#24).toNat := by decide

theorem witness_ResetRegistersRead : Params.sample.Legal := by decide

theorem witness_ResetInputDiscardsThePort :
    ({ start with host := [.resetInput], port := [0#32] } : State).host = .resetInput :: [] := by decide

theorem witness_PkWriteAppendsLowBits : almostFull.Quiet ∧ almostFull.lz.active = false ∧ almostFull.pk.ok ∧
    (16#5).toNat ≤ 16 := by decide +kernel

theorem witness_PkPadReachesAByteBoundary :
    almostFull.Quiet ∧ almostFull.lz.active = false ∧ almostFull.pk.ok := by decide +kernel

theorem witness_PkFlushEmitsThePendingBytes :
    let s : State := { start with pk := { accByte := 0#8, bitIdx := 0#3, buf := List.replicate 254 0xAA#8 } }
    s.Quiet ∧ s.lz.active = false ∧ s.pk.ok ∧ s.pk.bitIdx = 0#3 := by decide +kernel

theorem witness_PackerCommandsFault_width : start.fault = false ∧ 16 < (17#5).toNat := by decide
theorem witness_PackerCommandsFault_busy :
    stream.fault = false ∧ (16#5).toNat ≤ 16 ∧ stream.lz.active = true := by decide
theorem witness_PackerCommandsFault_partial :
    almostFull.fault = false ∧ almostFull.lz.active = false ∧ almostFull.pk.bitIdx ≠ 0#3 := by decide +kernel

theorem witness_PackerRoundTrip : start.Quiet ∧ start.pk.clean ∧ start.pk.bitIdx = 0#3 ∧ start.pk.buf = [] ∧
    ∀ c ∈ [((0x1FF#16 : BitVec 16), 9), (0xFFFF#16, 16), (0xFFFF#16, 0)], c.2 ≤ 16 := by decide

theorem witness_LzStartOpensAStream :
    almostFull.Quiet ∧ almostFull.lz.active = false ∧ almostFull.pk.ok := by decide +kernel

theorem witness_LzSymDescends_root : opened.fault = false ∧ opened.lz.active = true ∧ opened.lz.cur = none := by decide
theorem witness_LzSymDescends_hit : stream.fault = false ∧ stream.lz.active = true ∧ stream.lz.cur = some 1#12 ∧
    stream.lz.dict.get? (256 * (1#12).toNat + (2#8).toNat) = some 258#12 := by decide

theorem witness_LzSymMissWritesAndBinds :
    let s := streamAt 4094#13 12#4
    s.Quiet ∧ s.lz.active = true ∧ s.pk.ok ∧ s.lz.cur = some 1#12 ∧
      s.lz.dict.get? (256 * (1#12).toNat + (255#8).toNat) = none ∧ s.lz.next.toNat < 4095 := by decide

theorem witness_LzSymForcedReset :
    let s := streamAt 4095#13 12#4
    s.Quiet ∧ s.lz.active = true ∧ s.pk.ok ∧ s.lz.cur = some 1#12 ∧
      s.lz.dict.get? (256 * (1#12).toNat + (255#8).toNat) = none ∧ s.lz.next = 4095#13 ∧ s.lz.width = 12#4 := by decide

theorem witness_LzEndClosesTheStream :
    stream.Quiet ∧ stream.lz.active = true ∧ stream.pk.ok ∧ stream.lz.cur = some 1#12 := by decide

theorem witness_LzCommandsFault_open : stream.fault = false ∧ stream.lz.active = true := by decide
theorem witness_LzCommandsFault_closed : start.fault = false ∧ start.lz.active = false := by decide
theorem witness_LzCommandsFault_empty :
    opened.fault = false ∧ opened.lz.active = true ∧ opened.lz.cur = none := by decide

theorem witness_PendingCodeFitsTheWidth : stream.Inv ∧ stream.lz.cur = some 1#12 := ⟨stream_inv, rfl⟩

theorem witness_PalWriteSetsTheSlot : start.fault = false ∧ start.dt.active = false := by decide

theorem witness_RefWriteSetsTheEntry :
    let s : State := { start with refPtr := 1048575#24 }
    s.cfg.Legal ∧ s.fault = false ∧ s.dt.active = false ∧ s.refPtr.toNat < s.cfg.refDepth := by decide

theorem witness_BusyConfigurationFaults_frame :
    frame.fault = false ∧ frame.dt.active = true ∧ (0xFF#24).toNat < 2 ^ 8 ∧ (0xFFFFFF#24).toNat < 2 ^ 24 := by decide
theorem witness_BusyConfigurationFaults_range :
    let s : State := { start with refPtr := 1048576#24 }
    s.fault = false ∧ s.dt.active = false ∧ s.cfg.refDepth ≤ s.refPtr.toNat := by decide

theorem witness_DtBeginStartsAFrame :
    let s : State := { loaded with dtWidth := 4096#16, dtHeight := 256#16 }
    s.fault = false ∧ s.dt.active = false ∧ 1 ≤ s.dtWidth.toNat ∧ 1 ≤ s.dtHeight.toNat ∧
      s.dtWidth.toNat ≤ s.cfg.maxWidth ∧ s.dtWidth.toNat * s.dtHeight.toNat ≤ s.cfg.refDepth := by decide
theorem witness_DtBeginStartsAFrame_palette : ∀ i, 2 ≤ i → i ≤ 254 → palValid loaded.pal i = true := by
  exact (palReady_iff _).1 grays_ready

theorem witness_DtBeginFaults_active : frame.fault = false ∧ frame.dt.active = true := by decide
theorem witness_DtBeginFaults_empty_frame :
    let s : State := { loaded with dtHeight := 0#16 }
    s.fault = false ∧ s.dt.active = false ∧ s.dtHeight.toNat = 0 := by decide
theorem witness_DtBeginFaults_too_wide :
    let s : State := { loaded with dtWidth := 4097#16 }
    s.fault = false ∧ s.dt.active = false ∧ s.cfg.maxWidth < s.dtWidth.toNat := by decide
theorem witness_DtBeginFaults_beyond_ref :
    let s : State := { loaded with dtWidth := 4096#16, dtHeight := 257#16 }
    s.fault = false ∧ s.dt.active = false ∧ s.cfg.refDepth < s.dtWidth.toNat * s.dtHeight.toNat := by decide
theorem witness_DtBeginFaults_palette :
    let s : State := { loaded with pal := grays.dropLast }
    s.fault = false ∧ s.dt.active = false ∧ ¬(s.dtWidth.toNat = 0 ∨ s.dtHeight.toNat = 0 ∨
      s.cfg.maxWidth < s.dtWidth.toNat ∨ ((false = true ∨ false = true) ∧
        s.cfg.refDepth < s.dtWidth.toNat * s.dtHeight.toNat)) ∧ palValid s.pal 254 = false := by decide +kernel

theorem witness_DtPixelFaults_no_frame : start.Inv ∧ start.fault = false ∧ start.dt.active = false :=
  ⟨start_inv, rfl, rfl⟩
theorem witness_DtPixelFaults_no_stream :
    let s : State := { frame with dt := { frame.dt with chain := true } }
    s.Inv ∧ s.fault = false ∧ s.dt.active = true ∧ s.dt.chain = true ∧ s.lz.active = false := by
  refine ⟨?_, rfl, rfl, rfl, rfl⟩
  apply inv_of_grays rfl rfl <;> decide +kernel
theorem witness_DtPixelFaults_no_entry :
    let s : State := { compared with ref := [] }
    s.Inv ∧ s.fault = false ∧ s.dt.active = true ∧ (s.dt.chain = true → s.lz.active = true) ∧ s.dt.uref = true ∧
      s.ref.get? (s.dt.y.toNat * s.dt.w.toNat + s.dt.x.toNat) = none := by
  refine ⟨?_, rfl, rfl, by decide, rfl, rfl⟩
  apply inv_of_grays rfl rfl <;> decide +kernel
theorem witness_DtPixelFaults_range :
    narrow.Inv ∧ narrow.fault = false ∧ narrow.dt.active = true ∧ (narrow.dt.chain = true → narrow.lz.active = true) ∧
      narrow.dt.uref = false ∧ ((accumulate (accLimit narrow.cfg) ⟨255#8, 0#8, 0#8⟩
        (lineGet narrow.dt.e0 narrow.dt.x.toNat)).bind fun acc => pixelFor acc narrow) = none :=
  ⟨narrow_inv, rfl, rfl, by decide, rfl, by decide⟩

theorem witness_DtPixelCompletes : ∃ acc p, chained.Inv ∧ chained.fault = false ∧ chained.dt.active = true ∧
    (chained.dt.chain = true → chained.lz.active = true) ∧ chained.dt.uref = false ∧
    accumulate (accLimit chained.cfg) ⟨100#8, 100#8, 100#8⟩ (lineGet chained.dt.e0 chained.dt.x.toNat) = some acc ∧
    pixelFor acc chained = some p := by
  have h : (pixelFor { r := 25600, g := 25600, b := 25600 } chained).isSome = true := by decide +kernel
  obtain ⟨p, hp⟩ := Option.isSome_iff_exists.1 h
  exact ⟨_, p, chained_inv, rfl, rfl, fun _ => rfl, rfl, by decide, hp⟩
theorem witness_DtPixelCompletes_skip : ∃ acc p, compared.Inv ∧ compared.fault = false ∧ compared.dt.active = true ∧
    (compared.dt.chain = true → compared.lz.active = true) ∧
    (compared.ref.get? (compared.dt.y.toNat * compared.dt.w.toNat + compared.dt.x.toNat)).isSome = true ∧
    accumulate (accLimit compared.cfg) ⟨9#8, 8#8, 7#8⟩ (lineGet compared.dt.e0 compared.dt.x.toNat) = some acc ∧
    pixelFor acc compared = some p :=
  ⟨{ r := 2304, g := 2048, b := 1792 }, _, compared_inv, rfl, rfl, by decide, rfl, by decide, rfl⟩

theorem witness_SkipComparesTheShiftedValue :
    skipTaken { r := 2304 + 255, g := 2048, b := 1792 } compared = true := by decide

theorem witness_SearchFindsTheNearestLowestSlot :
    (search 2147483648 { r := 0, g := 0, b := 0 } fun _ => ⟨0#8, 0#8, 0#8⟩) = some (0, 0) := by decide +kernel
theorem witness_SearchFindsTheNearestLowestSlot_none :
    distance 524288 { r := 524287, g := 1, b := 0 } ⟨0#8, 0#8, 0#8⟩ = none := by decide

theorem witness_SearchNeverChoosesIndexOne :
    ∃ p, searchedPixel { r := 65280, g := 65280, b := 65280 } frame = some p ∧ p.idx = 255#8 := by
  have h : ((searchedPixel { r := 65280, g := 65280, b := 65280 } frame).map fun p => p.idx) = some 255#8 := by
    decide +kernel
  obtain ⟨p, hp, hi⟩ := Option.map_eq_some_iff.1 h
  exact ⟨p, hp, hi⟩
theorem witness_SearchNeverChoosesIndexOne_skip :
    ∃ p, pixelFor { r := 2304, g := 2048, b := 1792 } compared = some p ∧ p.idx = 1#8 := ⟨_, rfl, rfl⟩

theorem witness_DiffusionAddsTheShares_out_of_range : lineWf narrow.dt.e0 ∧ lineWf narrow.dt.e1 ∧
    diffuse (accLimit narrow.cfg) { r := 0, g := 0, b := 74899 } narrow.dt = none := by decide
theorem witness_DiffusionAddsTheShares : lineWf frame.dt.e0 ∧ lineWf frame.dt.e1 ∧
    (diffuse 2147483648 { r := -7168, g := 0, b := 0 } frame.dt).isSome = true := by decide

theorem witness_AdvanceIsRowMajor_last : lastPixel.dt.active = true ∧ lastPixel.dt.x.toNat < lastPixel.dt.w.toNat ∧
    lastPixel.dt.y.toNat < lastPixel.dt.h.toNat ∧ lastPixel.dt.x.toNat + 1 = lastPixel.dt.w.toNat ∧
    lastPixel.dt.y.toNat + 1 = lastPixel.dt.h.toNat := by decide
theorem witness_AdvanceIsRowMajor_row_end :
    let dt : Ditherer := { frame.dt with x := 1#16 }
    dt.active = true ∧ dt.x.toNat < dt.w.toNat ∧ dt.y.toNat < dt.h.toNat ∧ dt.x.toNat + 1 = dt.w.toNat ∧
      dt.y.toNat + 1 < dt.h.toNat := by decide
theorem witness_AdvanceIsRowMajor_within : frame.dt.active = true ∧ frame.dt.x.toNat < frame.dt.w.toNat ∧
    frame.dt.y.toNat < frame.dt.h.toNat ∧ frame.dt.x.toNat + 1 < frame.dt.w.toNat := by decide

theorem witness_ChainedPixelIsAnLzSym :
    let s : State := { compared with dt := { compared.dt with chain := true }, lz := stream.lz, pk := stream.pk }
    s.Quiet ∧ s.dt.active = true ∧ s.dt.chain = true ∧
      ∃ t, exec (.dtPixel 9#8 8#8 7#8) s = .next t ∧ t.fault = false := ⟨by decide, rfl, rfl, _, rfl, rfl⟩
theorem witness_ChainedPixelIsAnLzSym_no_stream :
    let s : State := { frame with dt := { frame.dt with chain := true } }
    s.dt.active = true ∧ s.fault = false ∧ s.dt.chain = true ∧ s.lz.active = false := by decide
theorem witness_ChainedPixelIsAnLzSym_unchained : compared.dt.active = true ∧ compared.dt.chain = false ∧
    ∃ t, exec (.dtPixel 9#8 8#8 7#8) compared = .next t := ⟨rfl, rfl, _, rfl⟩

theorem witness_IdenticalPixelIsSkipped : compared.Inv ∧ compared.fault = false ∧ compared.dt.active = true ∧
    (compared.dt.chain = true → compared.lz.active = true) ∧ compared.dt.uref = true ∧
    lineGet compared.dt.e0 compared.dt.x.toNat = Fixed.zero ∧
    compared.ref.get? (compared.dt.y.toNat * compared.dt.w.toNat + compared.dt.x.toNat) = some ⟨9#8, 8#8, 7#8⟩ :=
  ⟨compared_inv, rfl, rfl, by decide, rfl, rfl, rfl⟩

theorem witness_PaletteExactPixelLeavesNoError : frame.Inv ∧ frame.fault = false ∧ frame.dt.active = true ∧
    (frame.dt.chain = true → frame.lz.active = true) ∧ frame.dt.uref = false ∧
    lineGet frame.dt.e0 frame.dt.x.toNat = Fixed.zero ∧
    ∃ i, i ≤ 255 ∧ palRead frame.pal i = ⟨255#8, 255#8, 255#8⟩ :=
  ⟨frame_inv, rfl, rfl, by decide, rfl, rfl, 255, by omega, rfl⟩

theorem witness_LineBuffers_begin :
    loaded.fault = false ∧ ∃ t, exec (.dtBegin true true true) loaded = .next t ∧ t.fault = false :=
  ⟨rfl, _, loaded_begins true true true, rfl⟩
theorem witness_LineBuffers_pixel : compared.Inv ∧ compared.fault = false ∧ compared.dt.active = true ∧
    HoldsScratch compared.dt (fun _ _ => Fixed.zero) ∧
    ∃ t, exec (.dtPixel 9#8 8#8 7#8) compared = .next t ∧ t.fault = false ∧ t.dt.active = true :=
  ⟨compared_inv, rfl, rfl, ⟨fun _ _ _ => rfl, fun _ _ => rfl, fun _ _ _ => rfl⟩, _, rfl, rfl, rfl⟩

theorem witness_FlagsChangeOnlyWhereNamed :
    ∃ t, exec .lzStart start = .next t ∧ ∀ payload, Instr.lzStart ≠ .reset payload :=
  ⟨_, rfl, fun _ h => by cases h⟩

theorem witness_PackerAndEncoderFrames : (∃ t, exec .pkPad start = .next t) ∧ ∃ t, exec .lzEnd stream = .next t :=
  ⟨⟨_, rfl⟩, ⟨_, rfl⟩⟩

theorem witness_DithererCommandFrames : (∃ t, exec (.palWrite 1#8 2#8 3#8) start = .next t) ∧
    (∃ t, exec (.refWrite 1#8 2#8 3#8) start = .next t) ∧ (∃ t, exec (.dtBegin false false false) start = .next t) ∧
    ∃ t, exec (.dtPixel 9#8 8#8 7#8) compared = .next t :=
  ⟨⟨_, rfl⟩, ⟨_, rfl⟩, ⟨_, rfl⟩, ⟨_, rfl⟩⟩

theorem witness_RegisterCommandFrames :
    (∃ t, exec (.regRead 0#4) start = .next t) ∧ ∃ t, exec (.regWrite 3#4 1#24) start = .next t :=
  ⟨⟨_, rfl⟩, ⟨_, rfl⟩⟩

theorem witness_SinkErrorBetweenCommands :
    let s : State := { start with host := [.sinkErr] }
    s.host = .sinkErr :: [] ∧ s.sink = none ∧ s.fault = false := by decide
theorem witness_SinkErrorBetweenCommands_faulted :
    let s : State := { faulted with host := [.sinkErr] }
    s.host = .sinkErr :: [] ∧ s.sink = none ∧ s.fault = true := by decide
theorem witness_SinkErrorBetweenCommands_left_over :
    ({ start with sink := some 0 } : State).sink = some 0 ∧ start.fault = false ∧ faulted.fault = true := by decide

theorem witness_SinkErrorStopsAtItsAppendPoint :
    start.fault = false ∧ (∀ payload, Instr.regRead 0#4 ≠ .reset payload) ∧
      ∃ u, exec (.regRead 0#4) (start.setSink none) = .next u ∧ u.fault = false ∧ streamed u ≤ streamed start + 1 ∧
        streamed start + 0 < streamed u :=
  ⟨rfl, (fun _ h => by cases h), _, rfl, rfl, by decide, by decide⟩

/-- Where an outcome goes on to a state that passes a check, it does so to some state. -/
theorem next_of_after {o : Host.Outcome State Fault Refusal} {check : State → Bool} (h : (after o).any check = true) :
    ∃ u, o = .next u ∧ check u = true := by
  cases o with
  | next u => exact ⟨u, rfl, h⟩
  | fault _ => cases h
  | refused _ => cases h

/-- The invariant holds, and without the event the command goes on unfaulted, having appended more than `k` elements. -/
def StopsAt (i : Instr) (k : Nat) (s : State) : Prop :=
  s.Inv ∧ s.fault = false ∧
    ∃ u, exec i (s.setSink none) = .next u ∧ u.fault = false ∧ streamed s + k < streamed u

theorem stopsAt_of_after {i : Instr} {k : Nat} {s : State} (hi : s.Inv) (hf : s.fault = false)
    (h : (after (exec i (s.setSink none))).any (fun u => !u.fault && decide (streamed s + k < streamed u)) = true) :
    StopsAt i k s := by
  obtain ⟨u, hu, hc⟩ := next_of_after h
  simp only [Bool.and_eq_true, Bool.not_eq_true', decide_eq_true_eq] at hc
  exact ⟨hi, hf, u, hu, hc⟩

theorem almostFull_inv : almostFull.Inv := by
  constructor <;> decide +kernel
theorem witness_SinkErrorStops_subblock : StopsAt (.pkWrite 16#5 0xFFFF#16) 255 almostFull :=
  stopsAt_of_after almostFull_inv rfl (by decide +kernel)
theorem witness_SinkErrorStops_flush : StopsAt .lzEnd 7 stream := stopsAt_of_after stream_inv rfl (by decide +kernel)
theorem witness_SinkErrorStops_pixel : StopsAt (.dtPixel 9#8 8#8 7#8) 0 compared :=
  stopsAt_of_after compared_inv rfl (by decide +kernel)

/-- Every code but 4095 bound, each to a pair of singletons, and the sub-block 12 bits from its end. -/
def fullDict : State :=
  { start with
    lz := { active := true, dict := (List.range' 258 3837).map fun c => (c - 258, BitVec.ofNat 12 c)
            cur := some 255#12, width := 12#4, next := 4095#13 }
    pk := { accByte := 0#8, bitIdx := 0#3, buf := List.replicate 253 0#8 } }
theorem fullDict_inv : fullDict.Inv := by
  have hd : fullDict.lz.dict = (List.range' 258 3837).map fun c => (c - 258, BitVec.ofNat 12 c) := rfl
  have hn : fullDict.lz.next.toNat = 4095 := rfl
  have hcur : fullDict.lz.cur ≠ none := by decide
  have hact : fullDict.lz.active ≠ false := by decide
  have hwf : fullDict.lz.dict.wf := by
    rw [hd]
    unfold Memory.wf
    rw [List.pairwise_map]
    exact List.Pairwise.imp_of_mem (fun ha hb h => by
      simp only [List.mem_range'_1] at ha hb
      omega) List.pairwise_lt_range'
  have hnodup : (fullDict.lz.dict.map fun e => e.2).Nodup := by
    rw [hd, List.map_map]
    refine List.Nodup.map_on (fun a ha b hb h => ?_) List.nodup_range'
    simp only [List.mem_range'_1, Function.comp_apply] at ha hb h
    have := congrArg BitVec.toNat h
    simp only [BitVec.toNat_ofNat] at this
    omega
  have hbound : ∀ e ∈ fullDict.lz.dict,
      258 ≤ e.2.toNat ∧ e.2.toNat < fullDict.lz.next.toNat ∧ isNode e.2.toNat (e.1 / 256) := by
    rw [hd, hn]
    intro e he
    simp only [List.mem_map, List.mem_range'_1] at he
    obtain ⟨c, hc, rfl⟩ := he
    simp only [BitVec.toNat_ofNat]
    refine ⟨by omega, by omega, .inl (by omega)⟩
  have hlen : fullDict.lz.dict.length + 258 = fullDict.lz.next.toNat := by
    rw [hd, hn, List.length_map, List.length_range']
  exact
    { legal := by decide, memory := ⟨by decide, by decide, hwf, by decide, by decide⟩, storage := by decide
      faultRegs := by decide, packer := by decide +kernel
      lzw := ⟨⟨by decide, by decide, ⟨hlen, hnodup, hbound⟩, by decide, fun h => absurd h hcur, fun h => absurd h hact⟩,
        .inl (by decide)⟩
      ditherer := by decide, noSink := rfl }
theorem witness_SinkErrorStops_clear_code : StopsAt (.lzSym 255#8) 0 fullDict ∧
    fullDict.pk.bits.length + fullDict.lz.width.toNat < 2040 :=
  ⟨stopsAt_of_after fullDict_inv rfl (by decide +kernel), by decide +kernel⟩

theorem witness_InvariantHoldsAtReset : ({ maxWidth := 1, refDepth := 1, accBits := 64 } : Params).Legal := by decide

theorem witness_StepKeepsTheInvariant :
    ({ start with port := [0x40000000#32] } : State).Inv ∧
      ∃ t, step { start with port := [0x40000000#32] } = .next t := by
  refine ⟨?_, _, rfl⟩
  constructor <;> decide +kernel

theorem witness_RunsNeverStop : ({ maxWidth := 65535, refDepth := 16777215, accBits := 20 } : Params).Legal := by decide

end Sys2Proof.Tests
end

section
namespace Sys2Proof.Machine

/-! ### The accumulated value and the error (R161, R173, R178) -/

/-- The range check of R178 on all three channels: what `accumulate` and `errorOf` do with the value they compute. -/
def chkFixed (lim : Int) (e : Fixed) : Option Fixed := do
  let r ← chk lim e.r
  let g ← chk lim e.g
  let b ← chk lim e.b
  some { r := r, g := g, b := b }

theorem chkFixed_eq_some {lim : Int} {e a : Fixed} : chkFixed lim e = some a ↔ a = e ∧ a.inRange lim := by
  simp only [chkFixed, Option.bind_eq_bind, Option.bind_eq_some_iff, chk_eq_some, Option.some.injEq]
  constructor
  · rintro ⟨_, ⟨rfl, hr⟩, _, ⟨rfl, hg⟩, _, ⟨rfl, hb⟩, rfl⟩
    exact ⟨rfl, hr, hg, hb⟩
  · rintro ⟨rfl, hr, hg, hb⟩
    exact ⟨_, ⟨rfl, hr⟩, _, ⟨rfl, hg⟩, _, ⟨rfl, hb⟩, rfl⟩

theorem accumulate_eq_chkFixed (lim : Int) (v : Rgb) (e : Fixed) :
    accumulate lim v e = chkFixed lim ⟨fix v.r + e.r, fix v.g + e.g, fix v.b + e.b⟩ := rfl

theorem errorOf_eq_chkFixed (lim : Int) (acc : Fixed) (c : Rgb) :
    errorOf lim acc c = chkFixed lim ⟨acc.r - fix c.r, acc.g - fix c.g, acc.b - fix c.b⟩ := rfl

/-- R161: the accumulated value is the exact sum, and there is one where every channel is in range. -/
theorem accumulate_eq_some_iff {lim : Int} {v : Rgb} {e a : Fixed} :
    accumulate lim v e = some a ↔ a = ⟨fix v.r + e.r, fix v.g + e.g, fix v.b + e.b⟩ ∧ a.inRange lim := by
  rw [accumulate_eq_chkFixed, chkFixed_eq_some]

/-- R173: the error is the exact difference, and there is one where every channel is in range. -/
theorem errorOf_eq_some_iff {lim : Int} {acc a : Fixed} {c : Rgb} :
    errorOf lim acc c = some a ↔ a = ⟨acc.r - fix c.r, acc.g - fix c.g, acc.b - fix c.b⟩ ∧ a.inRange lim := by
  rw [errorOf_eq_chkFixed, chkFixed_eq_some]

theorem accLimit_eq_two_pow (p : Params) : accLimit p = (2 : Int) ^ (p.accBits - 1) := Nat.cast_pow 2 _

/-- Settles O41: both values are one three-channel range check (R178) of the exact sum and of the exact difference. -/
theorem accumulatedValueAndErrorAreExact : Obligations.AccumulatedValueAndErrorAreExact :=
  fun p _ _ _ _ => ⟨accLimit_eq_two_pow p, accumulate_eq_some_iff, errorOf_eq_some_iff⟩

end Sys2Proof.Machine
end

section
namespace Sys2Proof.Machine

/-! ### The invariant unit by unit, apart from the sink-error event -/

/-- The invariant but for the sink-error event, which may be under way: what holds inside a step. -/
abbrev State.Sound (s : State) : Prop := (s.setSink none).Inv

theorem State.Inv.sound {s : State} (h : s.Inv) : s.Sound := (setSink_of_sink h.noSink).symm ▸ h

theorem State.Sound.inv {s : State} (h : s.Sound) (hs : s.sink = none) : s.Inv := setSink_of_sink hs ▸ h

/-- A sound block has its units at rest, or stands where a sink error has stopped them. -/
theorem State.sound_iff {s : State} :
    s.Sound ↔ s.cfg.Legal ∧ s.faultOk ∧ (UnitsRest s ∨ s.sinkStopped ∧ UnitsStopped s) := by
  constructor
  · rintro ⟨legal, ⟨hpal, href, hdict, h0, h1⟩, hst, hf, ⟨hclean, hlen⟩, ⟨hlz, hnext⟩, hd, -⟩
    have hdither : DitherOk s := ⟨hpal, href, h0, h1, hst, hd⟩
    refine ⟨legal, hf, ?_⟩
    by_cases hs : s.sinkStopped
    · exact .inr ⟨hs, ⟨hclean, hlen.elim Nat.le_succ_of_le fun h => Nat.le_of_eq h.2⟩,
        ⟨hlz, hdict, hnext.elim Nat.le_succ_of_le fun h => Nat.le_of_eq h.2⟩, hdither⟩
    · exact .inl ⟨⟨hclean, hlen.resolve_right fun h => hs h.1⟩,
        ⟨hlz, hdict, hnext.resolve_right fun h => hs h.1⟩, hdither⟩
  · rintro ⟨legal, hf, hunits⟩
    rcases hunits with ⟨⟨hclean, hlen⟩, ⟨hlz, hdict, hnext⟩, hd⟩ | ⟨hs, ⟨hclean, hlen⟩, ⟨hlz, hdict, hnext⟩, hd⟩ <;>
      obtain ⟨hpal, href, h0, h1, hst, hd⟩ := hd
    · exact ⟨legal, ⟨hpal, href, hdict, h0, h1⟩, hst, hf, ⟨hclean, .inl hlen⟩, ⟨hlz, .inl hnext⟩, hd, rfl⟩
    · exact ⟨legal, ⟨hpal, href, hdict, h0, h1⟩, hst, hf,
        ⟨hclean, (Nat.le_or_eq_of_le_succ hlen).imp_right fun h => ⟨hs, h⟩⟩,
        ⟨hlz, (Nat.le_or_eq_of_le_succ hnext).imp_right fun h => ⟨hs, h⟩⟩, hd, rfl⟩

theorem State.Sound.rest {s : State} (h : s.Sound) (hf : s.fault = false) : UnitsRest s := by
  obtain ⟨-, -, h | ⟨⟨hft, -⟩, -⟩⟩ := State.sound_iff.1 h
  · exact h
  · simp [hf] at hft

/-- The streams, the port, the host and the sink-error event have no part in soundness. -/
theorem State.Sound.of_frame {s t : State} (h : s.Sound) (ht : t = { s with
    out := t.out, pix := t.pix, rsp := t.rsp, taken := t.taken, port := t.port, host := t.host, sink := t.sink }) :
    t.Sound := by
  obtain ⟨legal, memory, storage, faultRegs, packer, lzw, ditherer, -⟩ := h
  rw [ht]
  exact ⟨legal, memory, storage, faultRegs, packer, lzw, ditherer, rfl⟩

/-- A sink error taken stops the units wherever they may stand (R219). -/
theorem takeSinkError_sound {s : State} (w : Word) (legal : s.cfg.Legal) (h : UnitsStopped s) :
    (takeSinkError w s).Sound :=
  State.sound_iff.2 ⟨legal, ⟨nofun, nofun, nofun, nofun⟩, .inr ⟨⟨rfl, rfl⟩, h⟩⟩

/-- A cause R212 lets a command record. -/
abbrev Cause.Recordable (c : Cause) : Prop := c ≠ .none ∧ c ≠ .lzResetWidth ∧ c ≠ .subblockOverrun

/-- Taking a fault writes the fault registers and may answer on RSP (R214). -/
theorem takeFault_frame (c : Cause) (w : Word) (s : State) :
    takeFault c w s = { s with fault := true, cause := c, faultCmd := w, rsp := (takeFault c w s).rsp } := by
  unfold takeFault
  split <;> rfl

/-- A fault taken precisely leaves the units as they were (R214). -/
theorem takeFault_sound {c : Cause} {s : State} (w : Word) (h : s.Sound) (hf : s.fault = false) (hc : c.Recordable) :
    (takeFault c w s).Sound := by
  rw [takeFault_frame]
  exact State.sound_iff.2 ⟨h.legal, ⟨nofun, fun _ => hc.1, hc.2⟩, .inl (h.rest hf)⟩

/-! ### Reset -/

/-- Zeroed error lines are in order (R153). -/
theorem linesOk_nil (p : Params) : linesOk p [] [] :=
  ⟨⟨List.Pairwise.nil, by simp⟩, ⟨List.Pairwise.nil, by simp⟩, by simp, by simp⟩

theorem resetWith_unitsRest (p : Params) : UnitsRest (State.resetWith p) := by
  obtain ⟨w0, w1, o0, o1⟩ := linesOk_nil p
  exact ⟨(by decide : Packer.reset.ok), lzInit_rests Lzw.reset, List.Pairwise.nil, List.Pairwise.nil, w0, w1,
    ⟨nofun, nofun⟩, o0, o1, nofun, fun _ => ⟨rfl, rfl⟩⟩

theorem resetWith_sound {p : Params} (legal : p.Legal) : (State.resetWith p).Sound :=
  State.sound_iff.2 ⟨legal, ⟨fun _ => ⟨rfl, rfl⟩, nofun, nofun, nofun⟩, .inl (resetWith_unitsRest p)⟩

/-- Settles O58: the units are at rest after reset, whatever the legal parameters, the example values among them. -/
theorem invariantHoldsAtReset : Obligations.InvariantHoldsAtReset :=
  ⟨fun _ legal => (resetWith_sound legal).inv rfl, (resetWith_sound (by decide)).inv rfl⟩

theorem resetBlock_sound {s : State} (legal : s.cfg.Legal) : (resetBlock s).Sound :=
  (resetWith_sound legal).of_frame rfl

/-! ### What a command does to the flags (R42) -/

/-- The parameters and the fault registers stay. -/
structure FaultRegsKept (s t : State) : Prop where
  cfg : t.cfg = s.cfg
  fault : t.fault = s.fault
  cause : t.cause = s.cause
  faultCmd : t.faultCmd = s.faultCmd

/-- Of the other `STATUS` flags a command changes only those that R42 lets it write. -/
structure FlagStep (i : Instr) (s t : State) : Prop where
  lzActive : t.lz.active = s.lz.active ∨ i = .lzStart ∨ i = .lzEnd
  dtActive : t.dt.active = s.dt.active ∨ (∃ c w u, i = .dtBegin c w u) ∨
    ((∃ r g b, i = .dtPixel r g b) ∧ s.dt.x + 1#16 = s.dt.w ∧ s.dt.y + 1#16 = s.dt.h)
  dtFlags : (t.dt.chain = s.dt.chain ∧ t.dt.uref = s.dt.uref ∧ t.dt.wref = s.dt.wref) ∨
    ∃ c w u, i = .dtBegin c w u

theorem FlagStep.of_eq {i : Instr} {s t : State} (hlz : t.lz = s.lz) (hdt : t.dt = s.dt) : FlagStep i s t :=
  ⟨.inl (by rw [hlz]), .inl (by rw [hdt]), .inl (by rw [hdt]; exact ⟨rfl, rfl, rfl⟩)⟩

/-- What the pseudocode of a command keeps while it runs, and which flags it may write. -/
abbrev RunStep (i : Instr) (s t : State) : Prop := FaultRegsKept s t ∧ FlagStep i s t

theorem CodeStep.runStep {i : Instr} {s t : State} (h : CodeStep s t)
    (ha : t.lz.active = s.lz.active ∨ i = .lzStart ∨ i = .lzEnd) : RunStep i s t := by
  unfold CodeStep at h
  rw [h] at ha ⊢
  exact ⟨⟨rfl, rfl, rfl, rfl⟩, ha, .inl rfl, .inl ⟨rfl, rfl, rfl⟩⟩

theorem SymStep.runStep {i : Instr} {s t : State} (h : SymStep s t) : RunStep i s t := h.1.runStep (.inl h.2)

theorem PixelStep.runStep {r g b : Byte} {s t : State} (h : PixelStep s t) : RunStep (.dtPixel r g b) s t := by
  obtain ⟨hframe, hflags, hactive, -, hlz, -⟩ := h
  refine ⟨?_, .inl hlz, hactive.imp_right fun hlast => .inr ⟨⟨r, g, b, rfl⟩, hlast⟩, .inl hflags⟩
  rw [hframe]
  exact ⟨rfl, rfl, rfl, rfl⟩

theorem setRegister_runStep {i : Instr} (reg : BitVec 4) (val : BitVec 24) (s : State) :
    RunStep i s (setRegister reg val s) := by
  unfold setRegister
  split <;> exact ⟨⟨rfl, rfl, rfl, rfl⟩, .of_eq rfl rfl⟩

/-- The pseudocode of every command but `RESET` keeps the fault registers, and changes the flags R42 names. -/
theorem bodyOf_runStep {i : Instr} (hi : ∀ p, i ≠ .reset p) (s : State) : (bodyOf i s).All (RunStep i s) := by
  have same : ∀ {t : State}, FaultRegsKept s t → t.lz = s.lz → t.dt = s.dt → RunStep i s t :=
    fun hr hlz hdt => ⟨hr, .of_eq hlz hdt⟩
  have packs : ∀ {f : Flow}, f.All (PackerStep s) → f.All (RunStep i s) :=
    fun h => h.mono fun _ ht => ht.symStep.runStep
  cases i <;> simp only [bodyOf]
  case pkWrite =>
    split
    · simp
    split
    · simp
    exact packs (writeCode_all _ _ s)
  case pkPad =>
    split
    · simp
    exact packs (pad_all s)
  case pkFlush =>
    split
    · simp
    exact packs (flush_all s)
  case lzStart =>
    split
    · simp
    exact (writeCode_all _ _ _).mono fun t ht => ((codeStep_setLz s _).trans ht.codeStep).runStep (.inr (.inl rfl))
  case lzSym =>
    split
    · exact (lzSym_all _ s).mono fun t ht => ht.runStep
    · simp
  case lzEnd =>
    split
    · split
      · simp
      exact (lzFinish_all _ s).mono fun t ht => ht.runStep (.inr (.inr rfl))
    · simp
  case dtBegin chain wref uref =>
    have begins : ∃ c w u, Instr.dtBegin chain wref uref = .dtBegin c w u := ⟨_, _, _, rfl⟩
    split
    · simp
    split
    · simp
    split
    · exact ⟨⟨rfl, rfl, rfl, rfl⟩, .inl rfl, .inr (.inl begins), .inr begins⟩
    · simp
  case dtPixel =>
    split
    · split
      · simp
      exact (ditherPixel_all _ s).mono fun t ht => ht.runStep
    · simp
  case palWrite =>
    split
    · simp
    exact same ⟨rfl, rfl, rfl, rfl⟩ rfl rfl
  case regWrite =>
    split
    · simp
    split
    · simp
    split
    · simp
    exact setRegister_runStep _ _ s
  case regRead =>
    split
    · simp
    exact appendPoint_all (same ⟨rfl, rfl, rfl, rfl⟩ rfl rfl) fun k => same ⟨rfl, rfl, rfl, rfl⟩ rfl rfl
  case refWrite =>
    split
    · simp
    split
    · simp
    exact same ⟨rfl, rfl, rfl, rfl⟩ rfl rfl
  case nop => exact same ⟨rfl, rfl, rfl, rfl⟩ rfl rfl
  case reset payload => exact absurd rfl (hi payload)

/-- However a command other than `RESET` ends, it changes the flags R42 names, and the fault registers only by taking
a fault. -/
theorem exec_flagStep {i : Instr} {s t : State} (hi : ∀ p, i ≠ .reset p) (he : exec i s = .next t) :
    FlagStep i s t ∧ ((t.fault = s.fault ∧ t.cause = s.cause) ∨ (s.fault = false ∧ t.fault = true)) := by
  cases hf : s.fault with
  | true =>
    obtain ⟨ht, -⟩ := exec_faulted hf hi he
    rw [ht]
    exact ⟨.of_eq rfl rfl, .inl ⟨hf, rfl⟩⟩
  | false =>
    have hrun := bodyOf_runStep hi s
    rcases exec_cases hf he with ⟨hb, -⟩ | ⟨c, -, -, rfl⟩ | ⟨u, hb, -, rfl⟩
    · rw [hb] at hrun
      obtain ⟨hregs, hflags⟩ := hrun
      exact ⟨hflags, .inl ⟨hregs.fault.trans hf, hregs.cause⟩⟩
    · rw [takeFault_frame]
      exact ⟨.of_eq rfl rfl, .inr ⟨rfl, rfl⟩⟩
    · rw [hb] at hrun
      obtain ⟨-, hlz, hactive, hdt⟩ := hrun
      exact ⟨⟨hlz, hactive, hdt⟩, .inr ⟨rfl, rfl⟩⟩

/-- Settles O52: a flag that has changed is not one the command leaves as it is. -/
theorem flagsChangeOnlyWhereNamed : Obligations.FlagsChangeOnlyWhereNamed := by
  intro i s t he hi
  obtain ⟨⟨hlz, hactive, hdt⟩, hfault⟩ := exec_flagStep hi he
  refine ⟨fun hne => hfault.resolve_left fun h => hne h.1, fun hne => hfault.resolve_left fun h => hne h.2,
    hlz.resolve_left, hactive.resolve_left, fun hne => hdt.resolve_left ?_⟩
  rintro ⟨hchain, huref, hwref⟩
  rcases hne with h | h | h
  · exact h hchain
  · exact h huref
  · exact h hwref

/-! ### How each command keeps the units in order -/

theorem UnitsRest.of_codeGoes {s t : State} (h : CodeGoes s t) (hd : DitherOk s) : UnitsRest t :=
  ⟨h.2.1, h.2.2, hd.of_eq h.1.dt_eq⟩

theorem UnitsStopped.of_codeStops {s t : State} (h : CodeStops s t) (hd : DitherOk s) : UnitsStopped t :=
  ⟨⟨h.2.1, h.2.2.1⟩, h.2.2.2, hd.of_eq h.1.dt_eq⟩

/-- Operations of the encoder keep the other units. -/
theorem Flow.Ends.units_of_code {f : Flow} {s : State} {R : Cause → Prop} (hd : DitherOk s)
    (h : f.Ends (CodeGoes s) (CodeStops s) R) : f.Ends UnitsRest UnitsStopped R :=
  h.mono (fun _ ht => .of_codeGoes ht hd) (fun _ ht => .of_codeStops ht hd) fun _ hc => hc

/-- Bit operations keep the other units. -/
theorem Flow.Ends.units_of_packer {f : Flow} {s : State} {R : Cause → Prop} (h : UnitsRest s)
    (hf : f.Ends (PackerGoes s) (PackerStops s) R) : f.Ends UnitsRest UnitsStopped R := by
  obtain ⟨-, hlz, hd⟩ := id h
  refine .units_of_code hd (hf.mono (fun t ht => ?_) (fun t ht => ?_) fun _ hc => hc)
  · exact ⟨ht.1.codeStep, ht.2, by rw [ht.1.lz_eq]; exact hlz⟩
  · exact ⟨ht.1.codeStep, ht.2.1, ht.2.2, by rw [ht.1.lz_eq]; exact h.stopped.2.1⟩

/-- The encoder's initial state with a stream open (R126). -/
theorem lzOpen_rests (lz : Lzw) : Lzw.rests { lzInit lz with active := true } := by
  obtain ⟨⟨hlow, hwidth, hdict, hnode, hroot, -⟩, hwf, hnext⟩ := lzInit_rests lz
  exact ⟨⟨hlow, hwidth, hdict, hnode, hroot, nofun⟩, hwf, hnext⟩

/-- A geometry that is not refused lies in the error lines and, where it is used, in the reference frame (R154). -/
theorem geometry_of_not_bad {wref uref : Bool} {s : State} (h : ¬badGeometry wref uref s = true) :
    0 < s.dtWidth.toNat ∧ 0 < s.dtHeight.toNat ∧ s.dtWidth.toNat ≤ s.cfg.maxWidth ∧
      ((uref = true ∨ wref = true) → s.dtWidth.toNat * s.dtHeight.toNat ≤ s.cfg.refDepth) := by
  have pos : ∀ {v : BitVec 16}, v ≠ 0#16 → 0 < v.toNat := fun hv =>
    Nat.pos_of_ne_zero fun h0 => hv (BitVec.eq_of_toNat_eq h0)
  simp only [badGeometry, Bool.or_eq_true, Bool.and_eq_true, decide_eq_true_eq, not_or, not_and, not_lt] at h
  obtain ⟨⟨⟨hw, hh⟩, hmax⟩, href⟩ := h
  exact ⟨pos hw, pos hh, hmax, href⟩

/-- A frame begun with an accepted geometry and a loaded palette is in order (R153 to R155). -/
theorem dtBegin_ditherOk {chain wref uref : Bool} {s : State} (h : DitherOk s) (hgeo : ¬badGeometry wref uref s = true)
    (hready : palReady s.pal = true) :
    DitherOk (s.setDt
      { active := true, w := s.dtWidth, h := s.dtHeight, x := 0#16, y := 0#16
        uref := uref, wref := wref, chain := chain, e0 := [], e1 := [] }) := by
  obtain ⟨hpal, href, -, -, hst, -⟩ := h
  obtain ⟨hw, hh, hmax, hdepth⟩ := geometry_of_not_bad hgeo
  obtain ⟨w0, w1, o0, o1⟩ := linesOk_nil s.cfg
  exact ⟨hpal, href, w0, w1, hst, o0, o1, fun _ => ⟨hw, hh, hmax, hdepth, hready⟩, nofun⟩

/-- `PAL_WRITE` lists slots that exist only (R61, R151). -/
theorem palWrite_ditherOk {s : State} (h : DitherOk s) (ha : s.dt.active = false) (c : Rgb) (ptr : BitVec 8) :
    DitherOk (s.setPal (palWrite s.pal s.palPtr.toNat c) ptr) := by
  obtain ⟨hpal, href, w0, w1, ⟨hslots, hentries⟩, o0, o1, -, hidle⟩ := h
  refine ⟨palWrite_wf hpal _ c, href, w0, w1, ⟨?_, hentries⟩, o0, o1, fun h => absurd h (by simp [ha]), hidle⟩
  intro e he
  simp only [State.setPal_pal, palWrite] at he
  split at he
  · exact hslots e he
  · rename_i hslot
    rcases Memory.mem_set he with rfl | he
    · have := s.palPtr.isLt
      dsimp only
      omega
    · exact hslots e he

/-- `REF_WRITE` lists entries that exist only (R62, R152). -/
theorem refWrite_ditherOk {s : State} (h : DitherOk s) (ha : s.dt.active = false)
    (hptr : s.refPtr.toNat < s.cfg.refDepth) (c : Rgb) (ptr : BitVec 24) :
    DitherOk ((s.setRef (s.ref.set s.refPtr.toNat c)).setRefPtr ptr) := by
  obtain ⟨hpal, href, w0, w1, ⟨hslots, hentries⟩, o0, o1, -, hidle⟩ := h
  refine ⟨hpal, Memory.set_wf href _ c, w0, w1, ⟨hslots, ?_⟩, o0, o1, fun h => absurd h (by simp [ha]), hidle⟩
  intro e he
  rcases Memory.mem_set he with rfl | he
  · exact hptr
  · exact hentries e he

theorem setRegister_unitsRest {s : State} (h : UnitsRest s) (reg : BitVec 4) (val : BitVec 24) :
    UnitsRest (setRegister reg val s) := by
  unfold setRegister
  split <;> exact h

/-- The pseudocode of every command keeps the units in order, raises none of the causes R212 calls unreachable, and
forms no entry that does not exist. -/
theorem bodyOf_ends (i : Instr) {s : State} (h : UnitsRest s) :
    (bodyOf i s).Ends UnitsRest UnitsStopped Cause.Recordable := by
  obtain ⟨hpk, hlz, hd⟩ := id h
  cases i <;> simp only [bodyOf]
  case pkWrite =>
    split
    · simp [Cause.Recordable]
    split
    · simp [Cause.Recordable]
    exact .units_of_packer h (writeCode_ends _ _ hpk _)
  case pkPad =>
    split
    · simp [Cause.Recordable]
    exact .units_of_packer h ((pad_ends hpk _).mono (fun _ ht => ht.1) (fun _ ht => ht) fun _ hc => hc)
  case pkFlush =>
    split
    · simp [Cause.Recordable]
    exact .units_of_packer h (flush_ends hpk fun _ => by decide)
  case lzStart =>
    split
    · simp [Cause.Recordable]
    have hopen : UnitsRest (s.setLz { lzInit s.lz with active := true }) := ⟨hpk, lzOpen_rests s.lz, hd⟩
    exact .units_of_packer hopen (writeCode_ends _ _ hopen.1 _)
  case lzSym sym =>
    split
    · rename_i ha
      exact .units_of_code hd (lzSym_ends sym hpk hlz ha _)
    · simp [Cause.Recordable]
  case lzEnd =>
    split
    · split
      · simp [Cause.Recordable]
      exact .units_of_code hd (lzFinish_ends _ hpk hlz _)
    · simp [Cause.Recordable]
  case dtBegin =>
    split
    · simp [Cause.Recordable]
    split
    · simp [Cause.Recordable]
    rename_i hgeo
    split
    · rename_i hready
      exact ⟨hpk, hlz, dtBegin_ditherOk hd hgeo hready⟩
    · simp [Cause.Recordable]
  case dtPixel r g b =>
    split
    · rename_i ha
      split
      · simp [Cause.Recordable]
      rename_i hchain
      have hopen : s.dt.chain = true → s.lz.active = true := by simpa using hchain
      refine (ditherPixel_ends h ha hopen).mono (fun _ ht => ht) (fun _ ht => ht) ?_
      rintro c (rfl | rfl) <;> decide
    · simp [Cause.Recordable]
  case palWrite =>
    split
    · simp [Cause.Recordable]
    rename_i ha
    exact ⟨hpk, hlz, palWrite_ditherOk hd (Bool.eq_false_iff.2 ha) _ _⟩
  case regWrite =>
    split
    · simp [Cause.Recordable]
    split
    · simp [Cause.Recordable]
    split
    · simp [Cause.Recordable]
    exact setRegister_unitsRest h _ _
  case regRead =>
    split
    · simp [Cause.Recordable]
    exact appendPoint_ends (fun _ => h) h.stopped
  case refWrite =>
    split
    · simp [Cause.Recordable]
    rename_i ha
    split
    · simp [Cause.Recordable]
    rename_i hptr
    exact ⟨hpk, hlz, refWrite_ditherOk hd (Bool.eq_false_iff.2 ha) (Nat.lt_of_not_le hptr) _ _⟩
  case nop => exact h
  case reset => exact resetWith_unitsRest s.cfg

/-! ### How each step keeps the invariant -/

/-- Every command keeps the block sound: it goes on to units in order, takes a fault where it began, or is stopped by a
sink error. -/
theorem exec_sound {i : Instr} {s t : State} (h : s.Sound) (he : exec i s = .next t) : t.Sound := by
  by_cases hi : ∃ p, i = .reset p
  · obtain ⟨p, rfl⟩ := hi
    cases he
    exact resetBlock_sound h.legal
  have hi : ∀ p, i ≠ .reset p := fun p hp => hi ⟨p, hp⟩
  cases hf : s.fault with
  | true =>
    obtain ⟨ht, -⟩ := exec_faulted hf hi he
    exact h.of_frame (by rw [ht])
  | false =>
    have hkeep := bodyOf_runStep hi s
    have hends := bodyOf_ends i (h.rest hf)
    rcases exec_cases hf he with ⟨hb, -⟩ | ⟨c, hb, -, rfl⟩ | ⟨u, hb, -, rfl⟩ <;> rw [hb] at hkeep hends
    · obtain ⟨⟨hcfg, hfault, hcause, hcmd⟩, -⟩ := hkeep
      have hregs : t.faultOk := by
        unfold State.faultOk
        rw [hfault, hcause, hcmd]
        exact h.faultRegs
      exact State.sound_iff.2 ⟨hcfg ▸ h.legal, hregs, .inl hends⟩
    · exact takeFault_sound _ h hf hends
    · obtain ⟨⟨hcfg, -⟩, -⟩ := hkeep
      exact takeSinkError_sound _ (hcfg ▸ h.legal) hends

/-- A word that is no command keeps the block sound (R90, R216). -/
theorem rejectWord_sound {c : Cause} {s : State} (w : Word) (h : s.Sound) (hc : c.Recordable) :
    (rejectWord c w s).Sound := by
  unfold rejectWord
  split
  · split
    · exact h.of_frame rfl
    · exact h
  · rename_i hf
    exact takeFault_sound w h (Bool.eq_false_iff.2 hf) hc

theorem runWord_sound {w : Word} {s t : State} (h : s.Sound) (hr : runWord w s = .next t) : t.Sound := by
  unfold runWord at hr
  split at hr
  · exact exec_sound h hr
  · cases hr
    exact rejectWord_sound w h (by decide)
  · cases hr
    exact rejectWord_sound w h (by decide)

/-- The sink-error event between two commands (R219): the units are at rest, or a fault has been taken before. -/
theorem sinkBetween_inv {s : State} (h : s.Sound) : (sinkBetween s).Inv := by
  unfold sinkBetween
  split
  · exact h
  · rename_i hf
    exact (takeSinkError_sound _ h.legal (h.rest (Bool.eq_false_iff.2 hf)).stopped).inv rfl

theorem afterCommand_inv {s : State} (h : s.Sound) : (afterCommand s).Inv := by
  unfold afterCommand
  split
  · rename_i hs
    exact h.inv hs
  · exact sinkBetween_inv h

theorem settle_eq_next {o : Host.Outcome State Fault Refusal} {t : State} (h : settle o = .next t) :
    ∃ u, o = .next u ∧ t = afterCommand u := by
  cases o with
  | next u =>
    cases h
    exact ⟨u, rfl, rfl⟩
  | fault f => cases h
  | refused r => cases h

theorem runEngine_inv {k : Option Nat} {s t : State} (h : s.Sound) (hr : runEngine k s = .next t) : t.Inv := by
  unfold runEngine at hr
  split at hr
  · cases hr
    exact afterCommand_inv (h.of_frame rfl)
  · obtain ⟨u, hu, rfl⟩ := settle_eq_next hr
    exact afterCommand_inv (runWord_sound (h.of_frame rfl) hu)

theorem hostAct_inv (a : HostAction) {s : State} (h : s.Inv) : (hostAct a s).Inv := by
  have frame : ∀ {t : State}, t = { s with
      out := t.out, pix := t.pix, rsp := t.rsp, taken := t.taken, port := t.port, host := t.host, sink := t.sink } →
      t.sink = none → t.Inv := fun ht hs => (h.sound.of_frame ht).inv hs
  cases a with
  | write w => exact frame rfl h.noSink
  | takeOut n => exact frame rfl h.noSink
  | takePix n => exact frame rfl h.noSink
  | takeRsp n => exact frame rfl h.noSink
  | sinkErr => exact sinkBetween_inv h.sound
  | resetInput => exact ((resetBlock_sound h.legal).of_frame rfl).inv h.noSink
  | letRun k => exact h

/-- Settles O59: the engine's step and every action of the host keep the invariant. -/
theorem stepKeepsTheInvariant : Obligations.StepKeepsTheInvariant := by
  intro s t h hstep
  unfold step at hstep
  split at hstep
  · exact runEngine_inv h.sound hstep
  · exact runEngine_inv (h.sound.of_frame rfl) hstep
  · cases hstep
    exact hostAct_inv _ ((h.sound.of_frame rfl).inv h.noSink)

end Sys2Proof.Machine
end

section
namespace Sys2Proof.Machine
open Sys2Proof.Claims

/-! ### The layouts of the registers (R31 to R41) -/

theorem statusWord_bits (s : State) :
    (statusWord s).getLsbD 0 = s.fault ∧ (statusWord s).getLsbD 1 = s.lz.active ∧
      (statusWord s).getLsbD 2 = s.dt.active ∧ (statusWord s).getLsbD 3 = s.dt.chain ∧
      (statusWord s).getLsbD 4 = s.dt.uref ∧ (statusWord s).getLsbD 5 = s.dt.wref := by
  unfold statusWord
  refine ⟨?_, ?_, ?_, ?_, ?_, ?_⟩ <;> repeat rw [BitVec.getLsbD_append]
  all_goals simp

theorem statusWord_fields (s : State) :
    (statusWord s).extractLsb' 6 2 = 0#2 ∧ (statusWord s).extractLsb' 8 8 = s.cause.code ∧
      (statusWord s).extractLsb' 16 16 = 0#16 := by
  unfold statusWord
  refine ⟨?_, ?_, ?_⟩ <;> repeat rw [BitVec.extractLsb'_append_eq_of_le (by decide)]
  · exact BitVec.extractLsb'_append_eq_right
  · exact BitVec.extractLsb'_append_eq_right
  · exact BitVec.extractLsb'_eq_self

/-- No flag is set after reset, whatever the parameters (R43). -/
theorem statusWord_resetWith (p : Params) : statusWord (State.resetWith p) = 0#32 :=
  (by decide : statusWord State.reset = 0#32)

theorem posWord_fields (s : State) :
    (posWord s).extractLsb' 0 16 = s.dt.x ∧ (posWord s).extractLsb' 16 16 = s.dt.y :=
  ⟨BitVec.extractLsb'_append_eq_right, BitVec.extractLsb'_append_eq_left⟩

theorem lzStateWord_fields (s : State) :
    (lzStateWord s).extractLsb' 0 12 = s.lz.next.setWidth 12 ∧ (lzStateWord s).extractLsb' 12 4 = s.lz.width ∧
      (lzStateWord s).extractLsb' 16 12 = s.lz.cur.getD 0#12 ∧ (lzStateWord s).getLsbD 28 = s.lz.cur.isNone ∧
      (lzStateWord s).extractLsb' 29 3 = 0#3 := by
  unfold lzStateWord
  refine ⟨?_, ?_, ?_, ?_, ?_⟩ <;> repeat rw [BitVec.extractLsb'_append_eq_of_le (by decide)]
  · exact BitVec.extractLsb'_append_eq_right
  · exact BitVec.extractLsb'_append_eq_right
  · exact BitVec.extractLsb'_append_eq_right
  · repeat rw [BitVec.getLsbD_append]
    simp
  · exact BitVec.extractLsb'_eq_self

theorem pkStateWord_fields (s : State) :
    (pkStateWord s).extractLsb' 0 3 = s.pk.bitIdx ∧ (pkStateWord s).extractLsb' 3 5 = 0#5 ∧
      (pkStateWord s).extractLsb' 8 8 = s.pk.accByte ∧ (pkStateWord s).extractLsb' 16 8 = s.pk.bufCnt ∧
      (pkStateWord s).extractLsb' 24 8 = 0#8 := by
  unfold pkStateWord
  refine ⟨?_, ?_, ?_, ?_, ?_⟩ <;> repeat rw [BitVec.extractLsb'_append_eq_of_le (by decide)]
  · exact BitVec.extractLsb'_append_eq_right
  · exact BitVec.extractLsb'_append_eq_right
  · exact BitVec.extractLsb'_append_eq_right
  · exact BitVec.extractLsb'_append_eq_right
  · exact BitVec.extractLsb'_eq_self

/-- The cause codes are those of R212. -/
theorem causeCode_mem_causeTable (c : Cause) : (c, c.code.toNat) ∈ causeTable := by cases c <;> decide

/-- A `REG_WRITE` of a register that cannot be written faults (R191). -/
theorem exec_regWrite_badReg {reg : BitVec 4} {s : State} (hreg : writableWidth reg = none) (hf : s.fault = false)
    (val : BitVec 24) :
    exec (.regWrite reg val) s = .next (s.setFault .badReg (encode (.regWrite reg val))) := by
  have hbody : bodyOf (.regWrite reg val) s = .raise .badReg := by simp only [bodyOf, hreg]
  have hop : opcodeOf (.regWrite reg val) ≠ 0xB#4 := by simp [opcodeOf]
  rw [exec_eq_conclude _ hf, hbody, conclude_raise, takeFault_encode_of_ne hop]

/-- Settles O13, from the fields of the word, the table of the causes and the order of a register write's checks. -/
theorem statusRegisterLayout : Obligations.StatusRegisterLayout := by
  intro s
  obtain ⟨hfault, hlz, hdt, hchain, huref, hwref⟩ := statusWord_bits s
  obtain ⟨hlow, hcause, hhigh⟩ := statusWord_fields s
  refine ⟨⟨statusWord s, rfl, hfault, hlz, hdt, hchain, huref, hwref, hlow, ?_, hhigh, hfault.symm⟩,
    congrArg some (statusWord_resetWith s.cfg), fun val hf => exec_regWrite_badReg rfl hf val⟩
  rw [hcause]
  exact causeCode_mem_causeTable s.cause

/-- Settles O14, field by field; `LZ.NEXT` and the packer's count are the numbers their fields can show. -/
theorem unitRegisterLayouts : Obligations.UnitRegisterLayouts := by
  intro s
  obtain ⟨hx, hy⟩ := posWord_fields s
  obtain ⟨hnext, hwidth, hcur, hroot, hlzHigh⟩ := lzStateWord_fields s
  obtain ⟨hidx, hpkMid, hacc, hcnt, hpkHigh⟩ := pkStateWord_fields s
  refine ⟨posWord s, lzStateWord s, pkStateWord s, rfl, rfl, rfl, hx, hy, ?_, hwidth, ?_, ?_, hlzHigh, hidx, hpkMid,
    hacc, ?_, hpkHigh⟩
  · intro hle
    rw [hnext, BitVec.toNat_setWidth, Nat.mod_eq_of_lt (by omega)]
  · intro c hc
    rw [hcur, hroot, hc]
    exact ⟨rfl, rfl⟩
  · intro hc
    rw [hcur, hroot, hc]
    exact ⟨rfl, rfl⟩
  · intro hle
    rw [hcnt, Packer.bufCnt, BitVec.toNat_ofNat, Nat.mod_eq_of_lt (by omega)]

/-- Settles O15: every register fits a word, and the legal parameters do. -/
theorem plainRegisterValues : Obligations.PlainRegisterValues := by
  rintro s ⟨⟨-, hwidth⟩, ⟨-, hdepth⟩, -, hbits⟩
  exact ⟨rfl, rfl,
    ⟨_, rfl, BitVec.toNat_setWidth_of_le (by decide)⟩, ⟨_, rfl, BitVec.toNat_setWidth_of_le (by decide)⟩,
    ⟨_, rfl, BitVec.toNat_setWidth_of_le (by decide)⟩, ⟨_, rfl, BitVec.toNat_setWidth_of_le (by decide)⟩,
    ⟨_, rfl, Nat.mod_eq_of_lt (by omega)⟩, ⟨_, rfl, Nat.mod_eq_of_lt (by omega)⟩,
    ⟨_, rfl, Nat.mod_eq_of_lt (by omega)⟩, rfl, rfl, rfl⟩

/-! ### The code width (R26, R131) -/

/-- Settles O33: the width follows the next code, and the pending code is a node below it. -/
theorem pendingCodeFitsTheWidth : Obligations.PendingCodeFitsTheWidth := by
  intro s h
  obtain ⟨⟨hlow, hwidth, -, hnode, -⟩, hnext⟩ := h.lzw
  have hnext4096 : s.lz.next.toNat ≤ 4096 := by omega
  have hfits : s.lz.next.toNat ≤ 2 ^ s.lz.width.toNat := hwidth ▸ le_two_pow_widthFor hnext4096
  refine ⟨fun p hp => ?_, hnext4096, hfits, by omega⟩
  have hp : p.toNat < s.lz.next.toNat := by
    rcases hnode p hp with h | h <;> omega
  exact ⟨Nat.lt_of_lt_of_le hp hfits, hp⟩

end Sys2Proof.Machine
end

section
namespace Sys2Proof.Machine

/-! ### Palette and reference frame (R151, R152) -/

/-- `PAL_WRITE` outside a frame: one slot written, the pointer moved on. -/
theorem exec_palWrite {s : State} (hf : s.fault = false) (ha : s.dt.active = false) (r g b : Byte) :
    exec (.palWrite r g b) s =
      .next (s.setPal (palWrite s.pal s.palPtr.toNat ⟨r, g, b⟩) (s.palPtr + 1#8)) := by
  simp [exec_eq_conclude _ hf, bodyOf, ha]

/-- `REF_WRITE` outside a frame and below `REF_DEPTH`: one entry written, the pointer moved on. -/
theorem exec_refWrite {s : State} (hf : s.fault = false) (ha : s.dt.active = false)
    (hptr : s.refPtr.toNat < s.cfg.refDepth) (r g b : Byte) :
    exec (.refWrite r g b) s =
      .next ((s.setRef (s.ref.set s.refPtr.toNat ⟨r, g, b⟩)).setRefPtr (s.refPtr + 1#24)) := by
  simp [exec_eq_conclude _ hf, bodyOf, ha, Nat.not_le.2 hptr]

/-- Below a legal `REF_DEPTH` the pointer does not wrap (R6, R29). -/
theorem refPtr_add_one_toNat {p : Params} (legal : p.Legal) {ptr : BitVec 24} (hptr : ptr.toNat < p.refDepth) :
    (ptr + 1#24).toNat = ptr.toNat + 1 := by
  obtain ⟨-, ⟨-, hdepth⟩, -⟩ := legal
  exact BitVec.toNat_add_of_lt (by simp only [BitVec.toNat_ofNat]; omega)

/-- Settles O34: the palette reads slot by slot as after one write at `PAL_PTR`, which leaves the hardwired slots. -/
theorem palWriteSetsTheSlot : Obligations.PalWriteSetsTheSlot := by
  intro r g b s hf ha
  refine ⟨_, exec_palWrite hf ha r g b, BitVec.toNat_add _ _, fun i hi => ⟨?_, ?_⟩, rfl⟩
  · have hwritable : (i ≠ 0 ∧ i ≠ 1 ∧ i ≠ 255) ↔ (2 ≤ i ∧ i ≤ 254) := by omega
    simp only [State.setPal_pal, palRead_palWrite, hwritable]
  · rw [State.setPal_pal, palValid_palWrite]
    by_cases h : i = s.palPtr.toNat <;> simp [h]

/-- Settles O35: REF reads entry by entry as after one write at `REF_PTR`, which lies below a legal `REF_DEPTH`. -/
theorem refWriteSetsTheEntry : Obligations.RefWriteSetsTheEntry := fun r g b s legal hf ha hptr =>
  ⟨_, exec_refWrite hf ha hptr r g b, refPtr_add_one_toNat legal hptr, fun a => Memory.get?_set s.ref _ _ a, rfl⟩

/-! ### What a step runs (R64, R65) -/

theorem step_of_host_nil {s : State} (h : s.host = []) : step s = runEngine none s := by simp only [step, h]

theorem step_of_letRun {s : State} {sinkAfter : Option Nat} {rest : List HostAction}
    (h : s.host = .letRun sinkAfter :: rest) : step s = runEngine sinkAfter (s.setHost rest) := by simp only [step, h]

/-- Every other action of the host is a step of its own. -/
theorem step_of_hostAct {s : State} {a : HostAction} {rest : List HostAction} (h : s.host = a :: rest)
    (ha : ∀ k, a ≠ .letRun k) : step s = .next (hostAct a (s.setHost rest)) := by
  cases a with
  | letRun k => exact absurd rfl (ha k)
  | _ => simp only [step, h]

/-- R65: the engine takes the word at the head of the command port. -/
theorem runEngine_of_port_cons {s : State} {w : Word} {ws : List Word} (h : s.port = w :: ws) (sinkAfter : Option Nat) :
    runEngine sinkAfter s = settle (runWord w ((s.setPort ws).setSink sinkAfter)) := by simp only [runEngine, h]

theorem runWord_of_decode {w : Word} {i : Instr} (h : decodeWord w = .instr i) (s : State) :
    runWord w s = exec i s := by
  simp only [runWord, h]

/-- A step that runs a word runs the command the word decodes to. -/
theorem settle_exec_of_decode {s t : State} {w : Word} (hstep : step s = settle (runWord w t)) (i : Instr)
    (hi : decodeWord w = .instr i) : step s = settle (exec i t) := by
  rw [hstep, runWord_of_decode hi]

/-- Settles O5: the host's schedule decides whether the engine takes the word at the head of the port or an action of
the host's own is worked off; what is taken from a stream and what stays make up the stream. -/
theorem stepExecutesTheNextWord : Obligations.StepExecutesTheNextWord := by
  intro s
  refine ⟨fun w ws hport => ⟨fun hhost => ?_, fun sinkAfter rest hhost => ?_⟩, fun w rest hhost => ?_,
    fun n rest hhost => ?_, fun n rest hhost => ?_, fun n rest hhost => ?_⟩
  · have hstep := (step_of_host_nil hhost).trans (runEngine_of_port_cons hport none)
    exact ⟨hstep, settle_exec_of_decode hstep⟩
  · have hport' : (s.setHost rest).port = w :: ws := hport
    have hstep := (step_of_letRun hhost).trans (runEngine_of_port_cons hport' sinkAfter)
    exact ⟨hstep, settle_exec_of_decode hstep⟩
  · exact step_of_hostAct hhost nofun
  · exact ⟨_, step_of_hostAct hhost nofun, (List.take_append_drop n s.out).symm, rfl, rfl⟩
  · exact ⟨_, step_of_hostAct hhost nofun, (List.take_append_drop n s.pix).symm, rfl, rfl⟩
  · exact ⟨_, step_of_hostAct hhost nofun, (List.take_append_drop n s.rsp).symm, rfl, rfl⟩

end Sys2Proof.Machine
end

section
namespace Sys2Proof
open Machine

/-! ### The formats of the command words (R82 to R88) -/

/-- Bits 27:0 of a command's word. -/
theorem extractLsb'_encode (i : Instr) : (encode i).extractLsb' 0 28 = operandBits i :=
  BitVec.extractLsb'_append_eq_right

theorem append_eq_append_iff {m n : Nat} {a c : BitVec m} {b d : BitVec n} : a ++ b = c ++ d ↔ a = c ∧ b = d :=
  ⟨append_eq_append, fun ⟨h, h'⟩ => h ▸ h' ▸ rfl⟩

/-- Format PKW (R83). -/
theorem pkwFormat_iff {w : Word} {n : BitVec 5} {v : BitVec 16} :
    w.extractLsb' 0 28 = 0#7 ++ n ++ v ↔ w.extractLsb' 21 7 = 0#7 ∧ countField w = n ∧ valueField w = v := by
  have split : w.extractLsb' 0 28 = w.extractLsb' 21 7 ++ countField w ++ valueField w := by
    unfold countField valueField
    rw [extractLsb'_append_adjacent (s := 16) (m := 5), extractLsb'_append_adjacent (s := 0) (m := 16)]
  rw [split, append_eq_append_iff, append_eq_append_iff, and_assoc]

/-- Format SYM (R84). -/
theorem symFormat_iff {w : Word} {c : Byte} :
    w.extractLsb' 0 28 = 0#20 ++ c ↔ w.extractLsb' 8 20 = 0#20 ∧ lowByteField w = c := by
  have split : w.extractLsb' 0 28 = w.extractLsb' 8 20 ++ lowByteField w :=
    (extractLsb'_append_adjacent (s := 0) (m := 8)).symm
  rw [split, append_eq_append_iff]

/-- Format FLG (R85). -/
theorem flgFormat_iff {w : Word} {chain wref uref : Bool} :
    w.extractLsb' 0 28 = 0#25 ++ BitVec.ofBool chain ++ BitVec.ofBool wref ++ BitVec.ofBool uref ↔
      w.extractLsb' 3 25 = 0#25 ∧ w.getLsbD 2 = chain ∧ w.getLsbD 1 = wref ∧ w.getLsbD 0 = uref := by
  have split : w.extractLsb' 0 28 = w.extractLsb' 3 25 ++ BitVec.ofBool (w.getLsbD 2) ++
      BitVec.ofBool (w.getLsbD 1) ++ BitVec.ofBool (w.getLsbD 0) := by
    simp only [ofBool_getLsbD]
    rw [extractLsb'_append_adjacent (s := 2) (m := 1), extractLsb'_append_adjacent (s := 1) (m := 1),
      extractLsb'_append_adjacent (s := 0) (m := 1)]
  rw [split, append_eq_append_iff, append_eq_append_iff, append_eq_append_iff, BitVec.ofBool_eq_iff_eq,
    BitVec.ofBool_eq_iff_eq, BitVec.ofBool_eq_iff_eq, and_assoc, and_assoc]

/-- Format RGB (R86). -/
theorem rgbFormat_iff {w : Word} {r g b : Byte} :
    w.extractLsb' 0 28 = 0#4 ++ r ++ g ++ b ↔
      w.extractLsb' 24 4 = 0#4 ∧ redField w = r ∧ greenField w = g ∧ lowByteField w = b := by
  have split : w.extractLsb' 0 28 = w.extractLsb' 24 4 ++ redField w ++ greenField w ++ lowByteField w := by
    unfold redField greenField lowByteField
    rw [extractLsb'_append_adjacent (s := 16) (m := 8), extractLsb'_append_adjacent (s := 8) (m := 8),
      extractLsb'_append_adjacent (s := 0) (m := 8)]
  rw [split, append_eq_append_iff, append_eq_append_iff, append_eq_append_iff, and_assoc, and_assoc]

/-- Formats RGW and RGR (R87): of RGR the value bits are reserved. -/
theorem rgwFormat_iff {w : Word} {reg : BitVec 4} {val : BitVec 24} :
    w.extractLsb' 0 28 = reg ++ val ↔ regField w = reg ∧ valField w = val := by
  have split : w.extractLsb' 0 28 = regField w ++ valField w :=
    (extractLsb'_append_adjacent (s := 0) (m := 24)).symm
  rw [split, append_eq_append_iff]

/-- `commandOf` reads each operand back from the field it was put in. -/
theorem commandOf_encode (i : Instr) : commandOf (encode i) = .instr i := by
  have hbits := extractLsb'_encode i
  unfold commandOf
  rw [opField_encode]
  cases i with
  | pkWrite n v =>
    obtain ⟨-, hn, hv⟩ := pkwFormat_iff.1 hbits
    simp [opcodeOf, hn, hv]
  | lzSym c =>
    obtain ⟨-, hc⟩ := symFormat_iff.1 hbits
    simp [opcodeOf, hc]
  | dtBegin chain wref uref =>
    obtain ⟨-, hchain, hwref, huref⟩ := flgFormat_iff.1 hbits
    show Decoded.instr (.dtBegin _ _ _) = _
    rw [hchain, hwref, huref]
  | dtPixel r g b | palWrite r g b | refWrite r g b =>
    obtain ⟨-, hr, hg, hb⟩ := rgbFormat_iff.1 hbits
    simp [opcodeOf, hr, hg, hb]
  | regWrite reg val =>
    obtain ⟨hreg, hval⟩ := rgwFormat_iff.1 hbits
    simp [opcodeOf, hreg, hval]
  | regRead reg =>
    obtain ⟨hreg, -⟩ := rgwFormat_iff.1 hbits
    simp [opcodeOf, hreg]
  | reset payload => exact congrArg (Decoded.instr ∘ Instr.reset) hbits
  | pkPad | pkFlush | lzStart | lzEnd | nop => rfl

/-! ### The reserved field of an operation (R90) -/

/-- The reserved field of a word's operation, given format by format (R82 to R88), is 0. -/
def ReservedClear (op : BitVec 4) (w : Word) : Prop :=
  match op.toNat with
  | 0x1 => w.extractLsb' 21 7 = 0#7
  | 0x2 | 0x3 | 0x4 | 0x6 | 0xE => w.extractLsb' 0 28 = 0#28
  | 0x5 => w.extractLsb' 8 20 = 0#20
  | 0x7 => w.extractLsb' 3 25 = 0#25
  | 0x8 | 0x9 | 0xC => w.extractLsb' 24 4 = 0#4
  | 0xB => w.extractLsb' 0 24 = 0#24
  | _ => True

/-- The masks of R90 cover the reserved fields of the formats. -/
theorem and_reservedMask_eq_zero_iff (op : BitVec 4) (w : Word) :
    w &&& reservedMask op = 0#32 ↔ ReservedClear op w := by
  match op with
  | 0x1#4 => exact and_mask_eq_zero_iff w 21 7 _ (by omega) (by decide)
  | 0x2#4 | 0x3#4 | 0x4#4 | 0x6#4 | 0xE#4 => exact and_mask_eq_zero_iff w 0 28 _ (by omega) (by decide)
  | 0x5#4 => exact and_mask_eq_zero_iff w 8 20 _ (by omega) (by decide)
  | 0x7#4 => exact and_mask_eq_zero_iff w 3 25 _ (by omega) (by decide)
  | 0x8#4 | 0x9#4 | 0xC#4 => exact and_mask_eq_zero_iff w 24 4 _ (by omega) (by decide)
  | 0xB#4 => exact and_mask_eq_zero_iff w 0 24 _ (by omega) (by decide)
  | 0x0#4 | 0xA#4 | 0xD#4 | 0xF#4 => exact iff_of_true BitVec.and_zero trivial
  | .ofFin ⟨_ + 16, hlt⟩ => omega

/-- No command's word has a reserved bit that is 1 (R90). -/
theorem reservedBits_encode (i : Instr) : encode i &&& reservedMask (opcodeOf i) = 0#32 := by
  cases i with
  | pkWrite n v => exact (Laws.ReservedBits.pkWrite n v).2
  | pkPad => exact Laws.ReservedBits.pkPad.2
  | pkFlush => exact Laws.ReservedBits.pkFlush.2
  | lzStart => exact Laws.ReservedBits.lzStart.2
  | lzSym c => exact (Laws.ReservedBits.lzSym c).2
  | lzEnd => exact Laws.ReservedBits.lzEnd.2
  | dtBegin chain wref uref => exact (Laws.ReservedBits.dtBegin chain wref uref).2
  | dtPixel r g b => exact (Laws.ReservedBits.dtPixel r g b).2
  | palWrite r g b => exact (Laws.ReservedBits.palWrite r g b).2
  | regWrite reg val => exact (Laws.ReservedBits.regWrite reg val).2
  | regRead reg => exact (Laws.ReservedBits.regRead reg).2
  | refWrite r g b => exact (Laws.ReservedBits.refWrite r g b).2
  | nop => exact Laws.ReservedBits.nop.2
  | reset payload => exact (Laws.ReservedBits.reset payload).2

/-- R81 to R88: with a legal operation and its reserved bits 0, the other fields are the operands of a command. -/
theorem exists_encode_eq {w : Word} (hop : ¬(opField w = 0x0#4 ∨ opField w = 0xD#4))
    (hr : w &&& reservedMask (opField w) = 0#32) : ∃ i, encode i = w := by
  rw [and_reservedMask_eq_zero_iff] at hr
  generalize h : opField w = op at hop hr
  match op with
  | 0x0#4 => exact absurd (.inl rfl) hop
  | 0x1#4 => exact ⟨_, encode_eq_of_fields (i := .pkWrite _ _) h (pkwFormat_iff.2 ⟨hr, rfl, rfl⟩)⟩
  | 0x2#4 => exact ⟨_, encode_eq_of_fields (i := .pkPad) h hr⟩
  | 0x3#4 => exact ⟨_, encode_eq_of_fields (i := .pkFlush) h hr⟩
  | 0x4#4 => exact ⟨_, encode_eq_of_fields (i := .lzStart) h hr⟩
  | 0x5#4 => exact ⟨_, encode_eq_of_fields (i := .lzSym _) h (symFormat_iff.2 ⟨hr, rfl⟩)⟩
  | 0x6#4 => exact ⟨_, encode_eq_of_fields (i := .lzEnd) h hr⟩
  | 0x7#4 => exact ⟨_, encode_eq_of_fields (i := .dtBegin _ _ _) h (flgFormat_iff.2 ⟨hr, rfl, rfl, rfl⟩)⟩
  | 0x8#4 => exact ⟨_, encode_eq_of_fields (i := .dtPixel _ _ _) h (rgbFormat_iff.2 ⟨hr, rfl, rfl, rfl⟩)⟩
  | 0x9#4 => exact ⟨_, encode_eq_of_fields (i := .palWrite _ _ _) h (rgbFormat_iff.2 ⟨hr, rfl, rfl, rfl⟩)⟩
  | 0xA#4 => exact ⟨_, encode_eq_of_fields (i := .regWrite _ _) h (rgwFormat_iff.2 ⟨rfl, rfl⟩)⟩
  | 0xB#4 => exact ⟨_, encode_eq_of_fields (i := .regRead _) h (rgwFormat_iff.2 ⟨rfl, hr⟩)⟩
  | 0xC#4 => exact ⟨_, encode_eq_of_fields (i := .refWrite _ _ _) h (rgbFormat_iff.2 ⟨hr, rfl, rfl, rfl⟩)⟩
  | 0xD#4 => exact absurd (.inr rfl) hop
  | 0xE#4 => exact ⟨_, encode_eq_of_fields (i := .nop) h hr⟩
  | 0xF#4 => exact ⟨_, encode_eq_of_fields (i := .reset _) h rfl⟩
  | .ofFin ⟨_ + 16, hlt⟩ => omega

/-! ### The decoder (R90, R91) -/

theorem opcodeOf_legal (i : Instr) : ¬(opcodeOf i = 0x0#4 ∨ opcodeOf i = 0xD#4) := by
  cases i <;> simp [opcodeOf]

/-- Settles O1: a command's operation is legal, its reserved bits are 0, and every operand is read from its field. -/
theorem decodeOfEncodeIsTheCommand : Obligations.DecodeOfEncodeIsTheCommand := by
  intro i
  rw [decodeWord, opField_encode, if_neg (opcodeOf_legal i), if_neg (not_not_intro (reservedBits_encode i)),
    commandOf_encode]

/-- How a word is decoded: by its operation, then by its reserved bits, then as the command whose word it is. -/
theorem decodeWord_cases (w : Word) :
    ((opField w = 0x0#4 ∨ opField w = 0xD#4) ∧ decodeWord w = .illegalOpcode) ∨
    (¬(opField w = 0x0#4 ∨ opField w = 0xD#4) ∧ w &&& reservedMask (opField w) ≠ 0#32 ∧
      decodeWord w = .reservedBits) ∨
    (¬(opField w = 0x0#4 ∨ opField w = 0xD#4) ∧ w &&& reservedMask (opField w) = 0#32 ∧
      ∃ i, encode i = w ∧ decodeWord w = .instr i) := by
  by_cases hop : opField w = 0x0#4 ∨ opField w = 0xD#4
  · exact .inl ⟨hop, if_pos hop⟩
  by_cases hr : w &&& reservedMask (opField w) = 0#32
  · obtain ⟨i, rfl⟩ := exists_encode_eq hop hr
    exact .inr (.inr ⟨hop, hr, i, rfl, decodeOfEncodeIsTheCommand i⟩)
  · exact .inr (.inl ⟨hop, hr, (if_neg hop).trans (if_pos hr)⟩)

/-- Settles O2: such a word is the word of some command, and of no other than the one it decodes to. -/
theorem encodeOfDecodeIsTheWord : Obligations.EncodeOfDecodeIsTheWord := by
  intro w i h
  rcases decodeWord_cases w with ⟨-, hw⟩ | ⟨-, -, hw⟩ | ⟨-, -, j, hj, hw⟩ <;> cases hw.symm.trans h
  exact hj

theorem decodeWord_eq_illegalOpcode_iff {w : Word} :
    decodeWord w = .illegalOpcode ↔ opField w = 0x0#4 ∨ opField w = 0xD#4 := by
  rcases decodeWord_cases w with ⟨hop, hw⟩ | ⟨hop, -, hw⟩ | ⟨hop, -, i, -, hw⟩ <;> simp [hw, hop]

theorem decodeWord_eq_reservedBits_iff {w : Word} :
    decodeWord w = .reservedBits ↔
      ¬(opField w = 0x0#4 ∨ opField w = 0xD#4) ∧ w &&& reservedMask (opField w) ≠ 0#32 := by
  rcases decodeWord_cases w with ⟨hop, hw⟩ | ⟨hop, hr, hw⟩ | ⟨hop, hr, i, -, hw⟩
  · simp [hw, hop]
  · simp [hw, hop, hr]
  · simp [hw, hr]

/-- Settles O3: the masks of R90 are the formats' reserved fields, operation by operation. -/
theorem rejectedWordsAreTheReservedOnes : Obligations.RejectedWordsAreTheReservedOnes := by
  intro w
  refine ⟨decodeWord_eq_illegalOpcode_iff, ?_⟩
  rw [decodeWord_eq_reservedBits_iff, ne_eq, and_reservedMask_eq_zero_iff]
  generalize opField w = op
  obtain ⟨n, hn, rfl⟩ : ∃ n < 16, op = BitVec.ofNat 4 n := ⟨op.toNat, op.isLt, by simp⟩
  interval_cases n <;> simp [ReservedClear]

/-- Settles O4, by computation. -/
theorem sampleWordsDecode : Obligations.SampleWordsDecode :=
  ⟨rfl, rfl, rfl, rfl, rfl, rfl, rfl, rfl⟩

end Sys2Proof
end

section
namespace Sys2Proof.Machine

/-! ### What is decided of a word (R90, R216, R218) -/

theorem rejectWord_of_fault {s : State} (hf : s.fault = true) (c : Cause) (w : Word) :
    rejectWord c w s = if opField w = 0xB#4 then serveRead (regField w) s else s := if_pos hf

theorem rejectWord_of_not_fault {s : State} (hf : s.fault = false) (c : Cause) (w : Word) :
    rejectWord c w s = takeFault c w s := by
  simp [rejectWord, hf]

/-- R216: while faulted a command is discarded, `REG_READ` and `RESET` aside. -/
theorem exec_of_fault {i : Instr} {s : State} (hf : s.fault = true) (hreset : opcodeOf i ≠ 0xF#4)
    (hread : opcodeOf i ≠ 0xB#4) : exec i s = .next s := by
  cases i with
  | reset payload => exact absurd rfl hreset
  | regRead reg => exact absurd rfl hread
  | _ => exact if_pos hf

/-- R216: while faulted `REG_READ` answers without a check. -/
theorem exec_regRead_of_fault {s : State} (hf : s.fault = true) (reg : BitVec 4) :
    exec (.regRead reg) s = .next (serveRead reg s) := if_pos hf

theorem regField_encode_regRead (reg : BitVec 4) : regField (encode (.regRead reg)) = reg :=
  (rgwFormat_iff.1 (extractLsb'_encode (.regRead reg))).1

/-- Only `REG_READ` has its operation (R81). -/
theorem eq_regRead_of_opcodeOf {i : Instr} (h : opcodeOf i = 0xB#4) : ∃ reg, i = .regRead reg := by
  cases i with
  | regRead reg => exact ⟨reg, rfl⟩
  | _ => simp [opcodeOf] at h

/-- R90, R216: while faulted it is the operation alone that decides of a word. -/
theorem runWord_of_fault {w : Word} {s : State} (hf : s.fault = true) (hreset : opField w ≠ 0xF#4) :
    runWord w s = .next (if opField w = 0xB#4 then serveRead (regField w) s else s) := by
  unfold runWord
  split
  next i hi =>
    obtain rfl := encodeOfDecodeIsTheWord w i hi
    rw [opField_encode] at hreset ⊢
    split
    next hread =>
      obtain ⟨reg, rfl⟩ := eq_regRead_of_opcodeOf hread
      rw [exec_regRead_of_fault hf, regField_encode_regRead]
    next hread => exact exec_of_fault hf hreset hread
  next => rw [rejectWord_of_fault hf]
  next => rw [rejectWord_of_fault hf]

/-- R218: a word with the operation of `RESET` has no reserved bit and resets. -/
theorem runWord_reset {w : Word} (hw : opField w = 0xF#4) (s : State) : runWord w s = .next (resetBlock s) := by
  have hi : decodeWord w = .instr (.reset (w.extractLsb' 0 28)) := by simp [decodeWord, commandOf, reservedMask, hw]
  exact runWord_of_decode hi s

/-- Settles O7: a faulted block looks at the operation alone; any other decides as the decoder does. -/
theorem wordIsDecidedInPriorityOrder : Obligations.WordIsDecidedInPriorityOrder := by
  intro w s
  refine ⟨fun hw => runWord_reset hw s, fun hw hf => ⟨fun hb => ?_, fun hb => ?_⟩, fun hf hop => ?_,
    fun hf hz hd hr => ?_, fun _ hz hd hr => ?_⟩
  · exact (runWord_of_fault hf hw).trans (congrArg _ (if_pos hb))
  · exact (runWord_of_fault hf hw).trans (congrArg _ (if_neg hb))
  · rw [runWord, decodeWord_eq_illegalOpcode_iff.2 hop]
    exact congrArg _ (rejectWord_of_not_fault hf _ w)
  · rw [runWord, decodeWord_eq_reservedBits_iff.2 ⟨not_or_intro hz hd, hr⟩]
    exact congrArg _ (rejectWord_of_not_fault hf _ w)
  · obtain ⟨i, rfl⟩ := exists_encode_eq (not_or_intro hz hd) hr
    exact ⟨i, rfl, runWord_of_decode (decodeOfEncodeIsTheCommand i) s⟩

end Sys2Proof.Machine
end

section
namespace Sys2Proof.Machine
open Sys2Proof.Claims

/-! ### Closing the packed stream (R102, R103) -/

/-- At a byte boundary the partial byte is empty (R23). -/
theorem Packer.clean.accByte_eq_zero {pk : Packer} (h : pk.clean) (h0 : pk.bitIdx = 0#3) : pk.accByte = 0#8 := by
  unfold Packer.clean at h
  rw [h0] at h
  exact BitVec.eq_of_toNat_eq (Nat.lt_one_iff.1 h)

/-- At a byte boundary the pending bits are those of the completed bytes. -/
theorem Packer.bits_of_boundary {pk : Packer} (h0 : pk.bitIdx = 0#3) : pk.bits = pk.buf.flatMap byteBits := by
  simp [Packer.bits, h0]

/-- A flush after fewer than eight 0 bits that have reached a byte boundary closes the stream (R103). -/
theorem Appends.flush_closes {s t : State} {bits : List Bool} {zeros : Nat}
    (h : Appends s t (bits ++ List.replicate zeros false)) (hz : zeros < 8) (hs : t.sink = none)
    (h0 : t.pk.bitIdx = 0#3) :
    ∃ u, flush t = .go u ∧ Closes s u bits ∧ u = { t with pk := u.pk, out := u.out } := by
  obtain ⟨blocks, hfull, hout, hbits, hclean, hlen⟩ := h
  rw [Packer.bits_of_boundary h0, ← List.append_assoc] at hbits
  have hpk : { t.pk with buf := [] } = ({ accByte := 0#8, bitIdx := 0#3, buf := [] } : Packer) := by
    rw [← h0, ← hclean.accByte_eq_zero h0]
  have hsize : ∀ d ∈ blocks, 1 ≤ d.length ∧ d.length ≤ 255 := fun d hd => by rw [hfull d hd]; decide
  refine ⟨_, flush_quiet hs h0, ?_, rfl⟩
  by_cases hbuf : t.pk.buf = []
  · refine ⟨blocks, zeros, fun d hd => hfull d (List.mem_of_mem_dropLast hd), hsize, ?_, hz, ?_, hpk⟩
    · simp [hbuf, hout]
    · simpa [hbuf] using hbits
  · have hlast : 1 ≤ t.pk.buf.length ∧ t.pk.buf.length ≤ 255 := ⟨List.length_pos_iff.2 hbuf, by omega⟩
    refine ⟨blocks ++ [t.pk.buf], zeros, ?_, ?_, ?_, hz, ?_, hpk⟩
    · rwa [List.dropLast_concat]
    · exact List.forall_mem_append.2 ⟨hsize, List.forall_mem_singleton.2 hlast⟩
    · simp [hbuf, hout, onOut]
    · simpa using hbits

/-- A pad and a flush close the stream (R102, R103). -/
theorem Appends.pad_flush_closes {s t : State} {bits : List Bool} (h : Appends s t bits) (hs : t.sink = none) :
    ∃ u, (pad t).andThen flush = .go u ∧ Closes s u bits ∧ u = { t with pk := u.pk, out := u.out } := by
  obtain ⟨v, hpad, hzeros, h0, -, hv⟩ := pad_writes hs h.ok
  have hz : (if t.pk.bitIdx = 0#3 then 0 else 8 - t.pk.bitIdx.toNat) < 8 := by
    split
    · decide
    · rename_i hidx
      have : t.pk.bitIdx.toNat ≠ 0 := fun h' => hidx (BitVec.eq_of_toNat_eq h')
      omega
  obtain ⟨u, hflush, hcloses, hu⟩ := (h.trans hzeros).flush_closes hz (by rw [hv]; exact hs) h0
  exact ⟨u, by rw [hpad, Flow.go_andThen, hflush], hcloses, by rw [hu, hv]⟩

/-! ### Reading the codes back (R107) -/

/-- The number that a list of bits, the lowest first, stands for. -/
theorem foldr_testBit (x n : Nat) :
    ((List.range n).map x.testBit).foldr (fun b v => 2 * v + b.toNat) 0 = x % 2 ^ n := by
  induction n generalizing x with
  | zero => simp [Nat.mod_one]
  | succ n ih =>
    have hhalf : (List.range n).map (x.testBit ∘ Nat.succ) = (List.range n).map (x / 2).testBit :=
      List.map_congr_left fun i _ => Nat.testBit_succ x i
    rw [List.range_succ_eq_map, List.map_cons, List.map_map, hhalf, List.foldr_cons, ih, Nat.pow_succ',
      Nat.mod_mul, Nat.toNat_testBit, Nat.pow_zero, Nat.div_one, Nat.add_comm]

/-- The low bits of a value, read LSB first, are the value modulo 2 to their number. -/
theorem foldr_lowBits (v : BitVec 16) (n : Nat) :
    (lowBits v n).foldr (fun b v => 2 * v + b.toNat) 0 = v.toNat % 2 ^ n := foldr_testBit v.toNat n

@[simp] theorem length_lowBits (v : BitVec 16) (n : Nat) : (lowBits v n).length = n := by simp [lowBits]

/-- The bits of a run of codes (R101). -/
def codeBits (codes : List (BitVec 16 × Nat)) : List Bool := codes.flatMap fun c => lowBits c.1 c.2

theorem length_codeBits (codes : List (BitVec 16 × Nat)) :
    (codeBits codes).length = (codes.map (fun c => c.2)).sum := by simp [codeBits, List.length_flatMap]

/-- A run of `write_code`s appends the bits of its codes (R101). -/
theorem writeCodes_writes (codes : List (BitVec 16 × Nat)) {s : State} (hs : s.sink = none) (hok : s.pk.ok) :
    Writes s (writeCodes codes s) (codeBits codes) := by
  induction codes generalizing s with
  | nil => exact ⟨s, rfl, Appends.refl hok, rfl⟩
  | cons c cs ih =>
    refine Writes.andThen (writeCode_writes c.1 c.2 hs hok) fun t _ htok ht => ih ?_ htok
    rw [ht]
    exact hs

/-- Codes are read back from their bits, whatever follows them. -/
theorem readCodes_codeBits (codes : List (BitVec 16 × Nat)) (rest : List Bool) :
    readCodes (codes.map (fun c => c.2)) (codeBits codes ++ rest) = codes.map (fun c => c.1.toNat % 2 ^ c.2) := by
  induction codes with
  | nil => rfl
  | cons c cs ih =>
    have hbits : codeBits (c :: cs) ++ rest = lowBits c.1 c.2 ++ (codeBits cs ++ rest) := by simp [codeBits]
    rw [hbits, List.map_cons, readCodes, List.take_left' (length_lowBits _ _), List.drop_left' (length_lowBits _ _),
      foldr_lowBits, ih, List.map_cons]

/-- Settles O26: the data of the sub-blocks is the bits of the codes, in order, and fewer than eight 0 bits after
them. -/
theorem packerRoundTrip : Obligations.PackerRoundTrip := by
  rintro codes s ⟨-, hs⟩ hclean h0 hbuf -
  have hok : s.pk.ok := ⟨hclean, by simp [hbuf]⟩
  have hempty : s.pk.bits = [] := by rw [Packer.bits_of_boundary h0, hbuf, List.flatMap_nil]
  obtain ⟨t, hwrite, happ, ht⟩ := writeCodes_writes codes hs hok
  obtain ⟨u, hclose, ⟨blocks, zeros, hfull, hsize, hout, hz, hdata, -⟩, -⟩ :=
    happ.pad_flush_closes (by rw [ht]; exact hs)
  rw [hempty, List.nil_append] at hdata
  have hlen := congrArg List.length hdata
  rw [length_flatMap_byteBits, List.length_append, length_codeBits, List.length_replicate] at hlen
  refine ⟨u, blocks, ?_, hout, hfull, hsize, by omega, ?_⟩
  · rw [Flow.andThen_assoc, hwrite, Flow.go_andThen, hclose]
  · rw [hdata, readCodes_codeBits]

end Sys2Proof.Machine
end

section
namespace Sys2Proof.Machine

/-! ### How a command ends, by what its pseudocode does -/

theorem exec_of_go {i : Instr} {s t : State} (hf : s.fault = false) (hb : bodyOf i s = .go t) :
    exec i s = .next t := by
  rw [exec_eq_conclude i hf, hb, conclude_go]

theorem exec_of_raise {i : Instr} {s : State} {c : Cause} (hf : s.fault = false) (hread : opcodeOf i ≠ 0xB#4)
    (hb : bodyOf i s = .raise c) : exec i s = .next (s.setFault c (encode i)) := by
  rw [exec_eq_conclude i hf, hb, conclude_raise, takeFault_encode_of_ne hread]

/-! ### The commands of the packer (R104 to R106) -/

theorem bodyOf_pkWrite {s : State} (ha : s.lz.active = false) {n : BitVec 5} (hn : n.toNat ≤ 16) (v : BitVec 16) :
    bodyOf (.pkWrite n v) s = writeCode v n.toNat s := by
  simp [bodyOf, Nat.not_lt.2 hn, ha]

theorem bodyOf_pkPad {s : State} (ha : s.lz.active = false) : bodyOf .pkPad s = pad s := by simp [bodyOf, ha]

theorem bodyOf_pkFlush {s : State} (ha : s.lz.active = false) : bodyOf .pkFlush s = flush s := by simp [bodyOf, ha]

/-- Settles O22: outside a stream the command is a `write_code` of its operands. -/
theorem pkWriteAppendsLowBits : Obligations.PkWriteAppendsLowBits := by
  rintro n v s ⟨hf, hs⟩ ha hok hn
  obtain ⟨t, hgo, hwrites⟩ := writeCode_writes v n.toNat hs hok
  exact ⟨t, exec_of_go hf ((bodyOf_pkWrite ha hn v).trans hgo), hwrites⟩

/-- Settles O23: outside a stream the command is a `pad`. -/
theorem pkPadReachesAByteBoundary : Obligations.PkPadReachesAByteBoundary := by
  rintro s ⟨hf, hs⟩ ha hok
  obtain ⟨t, hgo, hpads⟩ := pad_writes hs hok
  exact ⟨t, exec_of_go hf ((bodyOf_pkPad ha).trans hgo), hpads⟩

/-- Settles O24: outside a stream the command is a `flush`. -/
theorem pkFlushEmitsThePendingBytes : Obligations.PkFlushEmitsThePendingBytes := by
  rintro s ⟨hf, hs⟩ ha - h0
  exact exec_of_go hf ((bodyOf_pkFlush ha).trans (flush_quiet hs h0))

/-- Settles O25: the checks in the order of the pseudocode. -/
theorem packerCommandsFault : Obligations.PackerCommandsFault := by
  intro n v s hf
  refine ⟨fun hn => ?_, fun hn ha => ?_, fun ha => ?_, fun ha => ?_, fun ha h0 => ?_⟩
  · exact exec_of_raise hf (by simp [opcodeOf]) (if_pos hn)
  · exact exec_of_raise hf (by simp [opcodeOf]) ((if_neg (Nat.not_lt.2 hn)).trans (if_pos ha))
  · exact exec_of_raise (i := .pkPad) hf (by decide) (if_pos ha)
  · exact exec_of_raise (i := .pkFlush) hf (by decide) (if_pos ha)
  · exact exec_of_raise (i := .pkFlush) hf (by decide) ((bodyOf_pkFlush ha).trans (if_pos h0))

/-! ### What the commands of the packer and of the encoder leave unchanged -/

/-- What the pseudocode keeps, and taking a fault keeps, the command keeps, however it ends. -/
theorem exec_keeps {P : State → Prop} {i : Instr} {s t : State} (he : exec i s = .next t)
    (hop : opcodeOf i ≠ 0xF#4 ∧ opcodeOf i ≠ 0xB#4) (hs : P s) (hbody : (bodyOf i s).All P)
    (hfault : ∀ u c w, P u → P (u.setFault c w)) (hsink : ∀ u, P u → P (u.setSink none)) : P t := by
  obtain ⟨hreset, hread⟩ := hop
  cases hf : s.fault with
  | true =>
    obtain ⟨-, ht⟩ := exec_faulted hf (fun p hp => hreset (by rw [hp]; rfl)) he
    rwa [ht fun r hr => hread (by rw [hr]; rfl)]
  | false =>
    rcases exec_cases hf he with ⟨hb, -⟩ | ⟨c, -, -, rfl⟩ | ⟨u, hb, -, rfl⟩
    · rwa [hb] at hbody
    · rw [takeFault_encode_of_ne hread]
      exact hfault s c _ hs
    · rw [hb] at hbody
      exact hsink _ (hfault u _ _ hbody)

/-- What a command of the encoder may change; one of the packer leaves the encoder too. -/
def CodeCommandStep (s t : State) : Prop :=
  t = { s with
    lz := t.lz, pk := t.pk, out := t.out, fault := t.fault, cause := t.cause, faultCmd := t.faultCmd, sink := t.sink }

theorem CodeStep.commandStep {s t : State} (h : CodeStep s t) : CodeCommandStep s t := by
  unfold CodeStep at h
  unfold CodeCommandStep
  rw [h]

theorem CodeCommandStep.setFault {s t : State} (h : CodeCommandStep s t) (c : Cause) (w : Word) :
    CodeCommandStep s (t.setFault c w) := by
  unfold CodeCommandStep at *
  rw [h]
  rfl

theorem CodeCommandStep.setSink {s t : State} (h : CodeCommandStep s t) (k : Option Nat) :
    CodeCommandStep s (t.setSink k) := by
  unfold CodeCommandStep at *
  rw [h]
  rfl

theorem CodeCommandStep.eq_of_lz_eq {s t : State} (h : CodeCommandStep s t) (hlz : t.lz = s.lz) :
    t = { s with
      pk := t.pk, out := t.out, fault := t.fault, cause := t.cause, faultCmd := t.faultCmd, sink := t.sink } := by
  unfold CodeCommandStep at h
  rwa [hlz] at h

/-- A command whose pseudocode takes code steps only. -/
theorem exec_codeCommandStep {i : Instr} {s t : State} (he : exec i s = .next t)
    (hop : opcodeOf i ≠ 0xF#4 ∧ opcodeOf i ≠ 0xB#4) (hbody : (bodyOf i s).All (CodeStep s)) : CodeCommandStep s t :=
  exec_keeps he hop (CodeStep.refl s).commandStep (hbody.mono fun _ h => h.commandStep)
    (fun _ c w h => h.setFault c w) fun _ h => h.setSink none

/-- A command whose pseudocode takes packer steps only. -/
theorem exec_packerCommandStep {i : Instr} {s t : State} (he : exec i s = .next t)
    (hop : opcodeOf i ≠ 0xF#4 ∧ opcodeOf i ≠ 0xB#4) (hbody : (bodyOf i s).All (PackerStep s)) :
    t = { s with
      pk := t.pk, out := t.out, fault := t.fault, cause := t.cause, faultCmd := t.faultCmd, sink := t.sink } := by
  have hlz : t.lz = s.lz := exec_keeps (P := fun u => u.lz = s.lz) he hop rfl (hbody.mono fun _ h => h.lz_eq)
    (fun _ _ _ h => h) fun _ h => h
  exact (exec_codeCommandStep he hop (hbody.mono fun _ h => h.codeStep)).eq_of_lz_eq hlz

theorem Flow.All.raise (c : Cause) (P : State → Prop) : (Flow.raise c).All P := trivial

/-- A check before the pseudocode's steps keeps what they keep. -/
theorem Flow.All.ite {c : Prop} [Decidable c] {f g : Flow} {P : State → Prop} (hf : f.All P) (hg : g.All P) :
    (if c then f else g).All P := by
  split
  · exact hf
  · exact hg

theorem bodyOf_lzEnd_all (s : State) : (bodyOf .lzEnd s).All (CodeStep s) := by
  refine .ite ?_ (.raise _ _)
  split
  · exact .raise _ _
  · exact lzFinish_all _ s

/-- Settles O53: the pseudocode of these commands takes packer steps or code steps only. -/
theorem packerAndEncoderFrames : Obligations.PackerAndEncoderFrames := by
  intro i s t he
  constructor
  · rintro (⟨n, v, rfl⟩ | rfl | rfl)
    · exact exec_packerCommandStep he (by simp [opcodeOf]) (.ite (.raise _ _) (.ite (.raise _ _) (writeCode_all v _ s)))
    · exact exec_packerCommandStep he (by decide) (.ite (.raise _ _) (pad_all s))
    · exact exec_packerCommandStep he (by decide) (.ite (.raise _ _) (flush_all s))
  · rintro (rfl | ⟨sym, rfl⟩ | rfl)
    · refine exec_codeCommandStep he (by decide) (.ite (.raise _ _) ?_)
      exact (writeCode_all _ _ _).mono fun u hu => (codeStep_setLz s _).trans hu.codeStep
    · exact exec_codeCommandStep he (by simp [opcodeOf]) (.ite ((lzSym_all sym s).mono fun _ h => h.1) (.raise _ _))
    · exact exec_codeCommandStep he (by decide) (bodyOf_lzEnd_all s)

end Sys2Proof.Machine
end

section
namespace Sys2Proof.Machine

/-! ### A sound block always has a next state (R40, R62, R108, R130) -/

/-- The outcome is a next state, and its parameters are those of `s`. -/
def Goes (s : State) (o : Host.Outcome State Fault Refusal) : Prop := ∃ t, o = .next t ∧ t.cfg = s.cfg

theorem bodyOf_cfg (i : Instr) (s : State) : (bodyOf i s).All fun t => t.cfg = s.cfg := by
  cases i with
  | reset p => exact (rfl : (resetBlock s).cfg = s.cfg)
  | _ => exact (bodyOf_runStep (by simp) s).mono fun _ h => h.1.cfg

/-- However the pseudocode of a command ends, the command goes on: it forms no entry that does not exist. -/
theorem exec_goes (i : Instr) {s : State} (h : s.Sound) : Goes s (exec i s) := by
  cases hf : s.fault with
  | true =>
    cases i with
    | reset p => exact ⟨_, rfl, rfl⟩
    | regRead reg => exact ⟨_, exec_regRead_of_fault hf reg, rfl⟩
    | _ => exact ⟨s, if_pos hf, rfl⟩
  | false =>
    have hcfg := bodyOf_cfg i s
    have hends := bodyOf_ends i (h.rest hf)
    rw [exec_eq_conclude i hf]
    cases hb : bodyOf i s with
    | go t =>
      rw [hb] at hcfg
      exact ⟨t, rfl, hcfg⟩
    | raise c => exact ⟨_, rfl, by rw [takeFault_frame]⟩
    | stop u =>
      rw [hb] at hcfg
      exact ⟨_, rfl, hcfg⟩
    | broken x =>
      rw [hb] at hends
      exact hends.elim

theorem rejectWord_cfg (c : Cause) (w : Word) (s : State) : (rejectWord c w s).cfg = s.cfg := by
  unfold rejectWord
  split
  · split <;> rfl
  · rw [takeFault_frame]

theorem runWord_goes (w : Word) {s : State} (h : s.Sound) : Goes s (runWord w s) := by
  unfold runWord
  split
  · exact exec_goes _ h
  · exact ⟨_, rfl, rejectWord_cfg _ w s⟩
  · exact ⟨_, rfl, rejectWord_cfg _ w s⟩

theorem sinkBetween_cfg (s : State) : (sinkBetween s).cfg = s.cfg := by
  unfold sinkBetween
  split <;> rfl

theorem afterCommand_cfg (s : State) : (afterCommand s).cfg = s.cfg := by
  unfold afterCommand
  split
  · rfl
  · exact sinkBetween_cfg s

theorem runEngine_goes (k : Option Nat) {s : State} (h : s.Sound) : Goes s (runEngine k s) := by
  unfold runEngine
  split
  · exact ⟨_, rfl, afterCommand_cfg _⟩
  · rename_i w ws _
    obtain ⟨t, ht, hcfg⟩ := runWord_goes w (s := (s.setPort ws).setSink k) (h.of_frame rfl)
    exact ⟨afterCommand t, by rw [ht]; rfl, (afterCommand_cfg t).trans hcfg⟩

theorem hostAct_cfg (a : HostAction) (s : State) : (hostAct a s).cfg = s.cfg := by
  cases a with
  | sinkErr => exact sinkBetween_cfg s
  | _ => rfl

theorem step_goes {s : State} (h : s.Inv) : Goes s (step s) := by
  unfold step
  split
  · exact runEngine_goes none h.sound
  · rename_i k rest _
    exact runEngine_goes k (s := s.setHost rest) (h.sound.of_frame rfl)
  · exact ⟨_, rfl, hostAct_cfg _ _⟩

/-- A run from a state that meets the invariant goes on for any number of steps and keeps it. -/
theorem run_goes (n : Nat) {s : State} (h : s.Inv) :
    ∃ t : State, core.run n s = .next t ∧ t.Inv ∧ t.cfg = s.cfg := by
  induction n generalizing s with
  | zero => exact ⟨s, rfl, h, rfl⟩
  | succ n ih =>
    obtain ⟨u, hstep, hcfg⟩ := step_goes h
    obtain ⟨t, hrun, hinv, hcfg'⟩ := ih (stepKeepsTheInvariant s u h hstep)
    refine ⟨t, ?_, hinv, hcfg'.trans hcfg⟩
    have hstep' : core.step s = .next u := hstep
    simp only [Host.Core.run, hstep', hrun]

/-- Settles O60: reset meets the invariant whatever the host has scheduled, every step goes on and keeps it, and it
excludes the two causes. -/
theorem runsNeverStopNorRecordTheInternalCauses : Obligations.RunsNeverStopNorRecordTheInternalCauses := by
  intro p schedule n legal
  have hreset : ((State.resetWith p).setHost schedule).Inv := ((resetWith_sound legal).of_frame rfl).inv rfl
  obtain ⟨t, hrun, hinv, hcfg⟩ := run_goes n hreset
  obtain ⟨-, -, hwidth, hoverrun⟩ := hinv.faultRegs
  exact ⟨t, hrun, hoverrun, hwidth, hcfg⟩

end Sys2Proof.Machine
end

section
namespace Sys2Proof.Machine
open Sys2Proof.Claims

/-! ### The commands of the code stream as runs of the encoder (R126 to R128) -/

theorem bodyOf_lzStart {s : State} (ha : s.lz.active = false) :
    bodyOf .lzStart s = writeCode clearCode 9 (s.setLz { lzInit s.lz with active := true }) := by simp [bodyOf, ha]

theorem bodyOf_lzSym {s : State} (ha : s.lz.active = true) (sym : Byte) : bodyOf (.lzSym sym) s = lzSym sym s :=
  if_pos ha

theorem bodyOf_lzEnd {s : State} (ha : s.lz.active = true) {p : BitVec 12} (hcur : s.lz.cur = some p) :
    bodyOf .lzEnd s = lzFinish p s := by simp [bodyOf, ha, hcur]

theorem bodyOf_lzEnd_root {s : State} (ha : s.lz.active = true) (hcur : s.lz.cur = none) :
    bodyOf .lzEnd s = .raise .lzEmpty := by simp [bodyOf, ha, hcur]

/-! ### The three cases of the per-symbol step (R124) -/

theorem lzSym_root {s : State} (hcur : s.lz.cur = none) (sym : Byte) : lzSym sym s = setCur (sym.setWidth 12) s := by
  simp only [lzSym, hcur]

theorem lzSym_hit {s : State} {p c : BitVec 12} {sym : Byte} (hcur : s.lz.cur = some p)
    (hhit : s.lz.dict.get? (dictKey p sym) = some c) : lzSym sym s = setCur c s := by simp only [lzSym, hcur, hhit]

theorem lzSym_miss {s : State} {p : BitVec 12} {sym : Byte} (hcur : s.lz.cur = some p)
    (hmiss : s.lz.dict.get? (dictKey p sym) = none) : lzSym sym s = lzMiss p sym s := by simp only [lzSym, hcur, hmiss]

/-- A command whose pseudocode encodes completes with the encoder in the state it encodes to. -/
theorem Encodes.completes {i : Instr} {s : State} {bits : List Bool} {lz : Lzw} (h : Encodes s (bodyOf i s) bits lz)
    (hf : s.fault = false) :
    ∃ t, exec i s = .next t ∧ Appends s t bits ∧ t.lz = lz ∧ t = { s with lz := t.lz, pk := t.pk, out := t.out } := by
  obtain ⟨t, hgo, happ, ht⟩ := h
  have hlz : t.lz = lz := by rw [ht]
  exact ⟨t, exec_of_go hf hgo, happ, hlz, hlz ▸ ht⟩

/-! ### Opening the stream (R126) -/

theorem lzStart_encodes {s : State} (hs : s.sink = none) (hok : s.pk.ok) (ha : s.lz.active = false) :
    Encodes s (bodyOf .lzStart s) (lowBits clearCode 9) { lzInit s.lz with active := true } := by
  obtain ⟨t, hgo, happ, ht⟩ := writeCode_writes clearCode 9 (s := s.setLz { lzInit s.lz with active := true }) hs hok
  exact ⟨t, (bodyOf_lzStart ha).trans hgo, happ, ht⟩

/-- Settles O27: the command is a `write_code` of the clear code from the initial encoder. -/
theorem lzStartOpensAStream : Obligations.LzStartOpensAStream := by
  rintro s ⟨hf, hs⟩ ha hok
  obtain ⟨t, he, happ, hlz, ht⟩ := (lzStart_encodes hs hok ha).completes hf
  have hclear : lowBits clearCode 9 = [false, false, false, false, false, false, false, false, true] := by decide
  exact ⟨t, he, hlz, hclear ▸ happ, ht⟩

/-! ### A symbol (R127) -/

/-- Settles O28: at the root and on a hit the step only moves the current node. -/
theorem lzSymDescendsWithoutOutput : Obligations.LzSymDescendsWithoutOutput := by
  intro sym s hf ha
  refine ⟨fun hcur => ?_, fun p c hcur hhit => ?_⟩
  · rw [BitVec.ofNat_toNat]
    exact exec_of_go hf ((bodyOf_lzSym ha sym).trans (lzSym_root hcur sym))
  · exact exec_of_go hf ((bodyOf_lzSym ha sym).trans (lzSym_hit hcur hhit))

/-- A code below 4096 has a successor that has not left the 13 bits (R38). -/
theorem next_add_one_toNat {next : BitVec 13} (h : next.toNat < 4096) : (next + 1#13).toNat = next.toNat + 1 := by
  bv_omega

/-- Settles O29: the step is a miss that leaves code space. -/
theorem lzSymMissWritesAndBinds : Obligations.LzSymMissWritesAndBinds := by
  rintro sym p s ⟨hf, hs⟩ ha hok hcur hmiss hnext
  have hsucc := next_add_one_toNat (next := s.lz.next) (by omega)
  have hspace : s.lz.next + 1#13 ≠ 4096#13 := by bv_omega
  have henc := lzMiss_encodes (p := p) (sym := sym) hs hok hspace
  rw [lowBits_setWidth p _ (by omega), ← lzSym_miss hcur hmiss, ← bodyOf_lzSym ha] at henc
  obtain ⟨t, he, happ, hlz, ht⟩ := henc.completes hf
  refine ⟨t, he, happ, ?_, ?_, ?_, ?_, fun key => ?_, ht⟩ <;> rw [hlz]
  · exact ha
  · rw [BitVec.ofNat_toNat]
  · exact hsucc
  · rfl
  · rw [BitVec.ofNat_toNat]
    exact Memory.get?_set s.lz.dict (dictKey p sym) (s.lz.next.setWidth 12) key

/-- Settles O30: the step is the miss that uses the code space up. -/
theorem lzSymForcedReset : Obligations.LzSymForcedReset := by
  rintro sym p s ⟨hf, hs⟩ ha hok hcur hmiss hnext hwidth
  have henc := lzMiss_reset_encodes (p := p) (sym := sym) hs hok hnext hwidth
  rw [lowBits_setWidth p 12 (by decide), ← lzSym_miss hcur hmiss, ← bodyOf_lzSym ha] at henc
  obtain ⟨t, he, happ, hlz, ht⟩ := henc.completes hf
  have hclear : lowBits clearCode 12 = (List.range 12).map (256#12 : BitVec 12).getLsbD := by decide
  refine ⟨t, he, hclear ▸ happ, ?_, ht⟩
  rw [hlz, lzInit, ha, BitVec.ofNat_toNat]

/-! ### Closing the stream (R128) -/

/-- The three codes of the end sequence. -/
def writeEndCodes (p : BitVec 12) (s : State) : Flow :=
  (writeCode (p.setWidth 16) s.lz.width.toNat s).andThen fun t =>
    (writeCode clearCode t.lz.width.toNat t).andThen (writeCode eoiCode 9)

theorem lzFinish_eq (p : BitVec 12) (s : State) :
    lzFinish p s = ((writeEndCodes p s).andThen fun t => (pad t).andThen flush).andThen fun u =>
      .go (u.setLz { lzInit u.lz with active := false }) := by
  simp only [lzFinish, writeEndCodes, Flow.andThen_assoc]

theorem writeEndCodes_writes (p : BitVec 12) {s : State} (hs : s.sink = none) (hok : s.pk.ok) :
    Writes s (writeEndCodes p s) (endBits p s.lz.width.toNat) := by
  have hbits : endBits p s.lz.width.toNat =
      lowBits (p.setWidth 16) s.lz.width.toNat ++ (lowBits clearCode s.lz.width.toNat ++ lowBits eoiCode 9) := by
    rw [lowBits_setWidth p _ (by omega), ← List.append_assoc]
    rfl
  rw [hbits]
  refine Writes.andThen (writeCode_writes _ _ hs hok) fun t _ htok ht => ?_
  have hts : t.sink = none := by rw [ht]; exact hs
  have htlz : t.lz = s.lz := by rw [ht]
  rw [htlz]
  refine Writes.andThen (writeCode_writes _ _ hts htok) fun u _ huok hu => writeCode_writes _ _ ?_ huok
  rw [hu]
  exact hts

/-- Settles O31: the end codes, then a pad and a flush, which close the packed stream. -/
theorem lzEndClosesTheStream : Obligations.LzEndClosesTheStream := by
  rintro p s ⟨hf, hs⟩ ha hok hcur
  obtain ⟨t, hcodes, happ, ht⟩ := writeEndCodes_writes p hs hok
  obtain ⟨u, hclose, hcloses, hu⟩ := happ.pad_flush_closes (by rw [ht]; exact hs)
  refine ⟨u.setLz { lzInit u.lz with active := false }, exec_of_go hf ?_, hcloses, rfl, ?_⟩
  · rw [bodyOf_lzEnd ha hcur, lzFinish_eq, hcodes, Flow.go_andThen, hclose, Flow.go_andThen]
  · rw [hu, ht]
    rfl

/-! ### What the commands fault on -/

/-- Settles O32: the checks before the pseudocode's steps. -/
theorem lzCommandsFault : Obligations.LzCommandsFault := by
  intro sym s hf
  refine ⟨fun ha => ?_, fun ha => ?_, fun ha => ?_, fun ha hcur => ?_⟩
  · exact exec_of_raise (i := .lzStart) hf (by decide) (if_pos ha)
  · exact exec_of_raise hf (by simp [opcodeOf]) (by simp [bodyOf, ha])
  · exact exec_of_raise (i := .lzEnd) hf (by decide) (by simp [bodyOf, ha])
  · exact exec_of_raise (i := .lzEnd) hf (by decide) (bodyOf_lzEnd_root ha hcur)

end Sys2Proof.Machine
end

section
namespace Sys2Proof.Machine
open Sys2Proof.Claims

/-! ### Errors and their shares (R174, R176) -/

theorem plus_assoc (a b c : Fixed) : plus (plus a b) c = plus a (plus b c) := by simp [plus, Int.add_assoc]

@[simp] theorem plus_zero (a : Fixed) : plus a Fixed.zero = a := by simp [plus, Fixed.zero]

@[simp] theorem zero_plus (a : Fixed) : plus Fixed.zero a = a := by simp [plus, Fixed.zero]

@[simp] theorem shareOf_zero (k : Int) : shareOf Fixed.zero k = Fixed.zero := by simp [shareOf, Fixed.zero]

@[simp] theorem shareIf_zero (c : Prop) [Decidable c] (k : Int) : shareIf c Fixed.zero k = Fixed.zero := by
  simp [shareIf]

theorem shareIf_pos {c : Prop} [Decidable c] (h : c) (e : Fixed) (k : Int) : shareIf c e k = shareOf e k := if_pos h

theorem shareIf_neg {c : Prop} [Decidable c] (h : ¬c) (e : Fixed) (k : Int) : shareIf c e k = Fixed.zero := if_neg h

theorem shareIf_congr {c d : Prop} [Decidable c] [Decidable d] (h : c ↔ d) (e : Fixed) (k : Int) :
    shareIf c e k = shareIf d e k := by simp only [shareIf, h]

/-- A share is added exactly where the product and the new entry are in range (R178). -/
theorem addShare_eq_some_iff {lim : Int} {line line' : Memory Fixed} {x : Nat} {err : Fixed} {k : Int} :
    addShare lim line x err k = some line' ↔
      (Fixed.inRange lim ⟨err.r * k, err.g * k, err.b * k⟩ ∧ (plus (lineGet line x) (shareOf err k)).inRange lim) ∧
        line' = lineSet line x (plus (lineGet line x) (shareOf err k)) := by
  simp only [addShare, Option.bind_eq_bind, Option.bind_eq_some_iff, chk_eq_some, share_eq_some, Option.some.injEq]
  constructor
  · rintro ⟨r, ⟨q, ⟨rfl, hr⟩, rfl, hr'⟩, g, ⟨q, ⟨rfl, hg⟩, rfl, hg'⟩, b, ⟨q, ⟨rfl, hb⟩, rfl, hb'⟩, rfl⟩
    exact ⟨⟨⟨hr, hg, hb⟩, hr', hg', hb'⟩, rfl⟩
  · rintro ⟨⟨⟨hr, hg, hb⟩, hr', hg', hb'⟩, rfl⟩
    exact ⟨_, ⟨_, ⟨rfl, hr⟩, rfl, hr'⟩, _, ⟨_, ⟨rfl, hg⟩, rfl, hg'⟩, _, ⟨_, ⟨rfl, hb⟩, rfl, hb'⟩, rfl⟩

/-- A neighbour outside the frame takes no share and checks nothing (R175). -/
theorem exists_addShareIf_iff {c : Prop} [Decidable c] {lim : Int} {line : Memory Fixed} {x : Nat} {err : Fixed}
    {k : Int} :
    (∃ line', addShareIf (decide c) lim line x err k = some line') ↔ ShareFits c lim (lineGet line x) err k := by
  by_cases hc : c
  · simp [addShareIf, ShareFits, hc, addShare_eq_some_iff]
  · simp [addShareIf, ShareFits, hc]

/-- What a share adds to each entry of its line. -/
theorem lineGet_addShareIf {c : Prop} [Decidable c] {lim : Int} {line line' : Memory Fixed} {a : Nat} {err : Fixed}
    {k : Int} (h : addShareIf (decide c) lim line a err k = some line') (x : Nat) :
    lineGet line' x = plus (lineGet line x) (shareIf (x = a ∧ c) err k) := by
  by_cases hc : c
  · rw [addShareIf, if_pos (decide_eq_true hc)] at h
    obtain ⟨-, rfl⟩ := addShare_eq_some_iff.1 h
    rw [lineGet_lineSet]
    split
    · rename_i hx
      rw [shareIf_pos ⟨hx, hc⟩, hx]
    · rename_i hx
      rw [shareIf_neg fun h => hx h.1, plus_zero]
  · rw [addShareIf, if_neg (by simpa using hc)] at h
    cases h
    rw [shareIf_neg fun h => hc h.2, plus_zero]

/-- A share leaves the other entries of its line as they were. -/
theorem lineGet_addShareIf_of_ne {c : Prop} [Decidable c] {lim : Int} {line line' : Memory Fixed} {a : Nat} {err : Fixed}
    {k : Int} (h : addShareIf (decide c) lim line a err k = some line') {x : Nat} (hx : ¬(x = a ∧ c)) :
    lineGet line' x = lineGet line x := by rw [lineGet_addShareIf h, shareIf_neg hx, plus_zero]

/-! ### Diffusion (R174, R175) -/

/-- Diffusion adds one share to the current line and three, one after the other, to the next. -/
theorem diffuse_eq_some_iff {lim : Int} {err : Fixed} {dt : Ditherer} {e0 e1 : Memory Fixed} :
    diffuse lim err dt = some (e0, e1) ↔
      addShareIf (decide (dt.x.toNat + 1 < dt.w.toNat)) lim dt.e0 (dt.x.toNat + 1) err 7 = some e0 ∧
      ∃ a, addShareIf (decide (dt.y.toNat + 1 < dt.h.toNat ∧ 1 ≤ dt.x.toNat)) lim dt.e1 (dt.x.toNat - 1) err 3 = some a ∧
      ∃ b, addShareIf (decide (dt.y.toNat + 1 < dt.h.toNat)) lim a dt.x.toNat err 5 = some b ∧
        addShareIf (decide (dt.y.toNat + 1 < dt.h.toNat ∧ dt.x.toNat + 1 < dt.w.toNat)) lim b (dt.x.toNat + 1) err 1 =
          some e1 := by
  simp only [diffuse, Bool.decide_and, Option.bind_eq_bind, Option.bind_eq_some_iff, Option.some.injEq, Prod.mk.injEq]
  constructor
  · rintro ⟨_, h0, a, ha, b, hb, _, h1, rfl, rfl⟩
    exact ⟨h0, a, ha, b, hb, h1⟩
  · rintro ⟨h0, a, ha, b, hb, h1⟩
    exact ⟨e0, h0, a, ha, b, hb, e1, h1, rfl, rfl⟩

/-- There is a diffusion exactly where every share fits: no share reads an entry another one has written. -/
theorem exists_diffuse_iff {lim : Int} {err : Fixed} {dt : Ditherer} :
    (∃ lines, diffuse lim err dt = some lines) ↔
      ShareFits (dt.x.toNat + 1 < dt.w.toNat) lim (lineGet dt.e0 (dt.x.toNat + 1)) err 7 ∧
      ShareFits (dt.y.toNat + 1 < dt.h.toNat ∧ 1 ≤ dt.x.toNat) lim (lineGet dt.e1 (dt.x.toNat - 1)) err 3 ∧
      ShareFits (dt.y.toNat + 1 < dt.h.toNat) lim (lineGet dt.e1 dt.x.toNat) err 5 ∧
      ShareFits (dt.y.toNat + 1 < dt.h.toNat ∧ dt.x.toNat + 1 < dt.w.toNat) lim (lineGet dt.e1 (dt.x.toNat + 1)) err 1 := by
  have left : ∀ {a}, addShareIf (decide (dt.y.toNat + 1 < dt.h.toNat ∧ 1 ≤ dt.x.toNat)) lim dt.e1 (dt.x.toNat - 1) err 3 =
      some a → ∀ x, dt.x.toNat ≤ x → lineGet a x = lineGet dt.e1 x := fun ha x hx =>
    lineGet_addShareIf_of_ne ha (by omega)
  have below : ∀ {a b}, addShareIf (decide (dt.y.toNat + 1 < dt.h.toNat)) lim a dt.x.toNat err 5 = some b →
      lineGet b (dt.x.toNat + 1) = lineGet a (dt.x.toNat + 1) := fun hb => lineGet_addShareIf_of_ne hb (by omega)
  simp only [Prod.exists, diffuse_eq_some_iff]
  constructor
  · rintro ⟨e0, e1, h0, a, ha, b, hb, h1⟩
    have f2 := exists_addShareIf_iff.1 ⟨b, hb⟩
    have f3 := exists_addShareIf_iff.1 ⟨e1, h1⟩
    rw [left ha _ (Nat.le_refl _)] at f2
    rw [below hb, left ha _ (Nat.le_succ _)] at f3
    exact ⟨exists_addShareIf_iff.1 ⟨e0, h0⟩, exists_addShareIf_iff.1 ⟨a, ha⟩, f2, f3⟩
  · rintro ⟨f0, f1, f2, f3⟩
    obtain ⟨e0, h0⟩ := exists_addShareIf_iff.2 f0
    obtain ⟨a, ha⟩ := exists_addShareIf_iff.2 f1
    rw [← left ha _ (Nat.le_refl _)] at f2
    obtain ⟨b, hb⟩ := exists_addShareIf_iff.2 f2
    rw [← left ha _ (Nat.le_succ _), ← below hb] at f3
    obtain ⟨e1, h1⟩ := exists_addShareIf_iff.2 f3
    exact ⟨e0, e1, h0, a, ha, b, hb, h1⟩

/-- Settles O46: the shares in turn, each to an entry of its own. -/
theorem diffusionAddsTheShares : Obligations.DiffusionAddsTheShares := by
  intro lim err dt _ _
  refine ⟨exists_diffuse_iff, fun e0 e1 h x' => ?_⟩
  obtain ⟨h0, a, ha, b, hb, h1⟩ := diffuse_eq_some_iff.1 h
  have hleft : (x' = dt.x.toNat - 1 ∧ dt.y.toNat + 1 < dt.h.toNat ∧ 1 ≤ dt.x.toNat) ↔
      (x' + 1 = dt.x.toNat ∧ dt.y.toNat + 1 < dt.h.toNat) := by omega
  refine ⟨lineGet_addShareIf h0 x', ?_⟩
  rw [lineGet_addShareIf h1, lineGet_addShareIf hb, lineGet_addShareIf ha, plus_assoc, plus_assoc, shareIf_congr hleft]

/-! ### The position (R181, R182) -/

/-- A column or row of a frame has a successor that fits its register. -/
theorem add_one_toNat_of_lt {a b : BitVec 16} (h : a.toNat < b.toNat) : (a + 1#16).toNat = a.toNat + 1 := by
  have := b.isLt
  exact BitVec.toNat_add_of_lt (by simp only [BitVec.toNat_ofNat]; omega)

theorem add_one_eq_iff_of_lt {a b : BitVec 16} (h : a.toNat < b.toNat) : a + 1#16 = b ↔ a.toNat + 1 = b.toNat := by
  rw [← BitVec.toNat_inj, add_one_toNat_of_lt h]

/-- Settles O47: the three branches of the advance, told apart by the column and the row. -/
theorem advanceIsRowMajor : Obligations.AdvanceIsRowMajor := by
  intro dt _ hx hy
  have hcol := add_one_eq_iff_of_lt hx
  have hrow := add_one_eq_iff_of_lt hy
  refine ⟨fun hw hh => ?_, fun hw hh => ⟨_, ?_, add_one_toNat_of_lt hy⟩, fun hw => ⟨_, ?_, add_one_toNat_of_lt hx⟩⟩
  · rw [advance, if_pos (hcol.2 hw), if_pos (hrow.2 hh)]
  · rw [advance, if_pos (hcol.2 hw), if_neg (fun h => by have := hrow.1 h; omega)]
  · rw [advance, if_neg (fun h => by have := hcol.1 h; omega)]

/-! ### The scratch buffer (R184) -/

/-- Diffusing an error into both error lines and into the scratch buffer keeps the lines holding the buffer. -/
theorem holdsScratch_diffuse {lim : Int} {err : Fixed} {dt : Ditherer} {e0 e1 : Memory Fixed} {buf : Nat → Nat → Fixed}
    (h : HoldsScratch dt buf) (hwf : lineWf dt.e0 ∧ lineWf dt.e1) (hd : diffuse lim err dt = some (e0, e1)) :
    HoldsScratch { dt with e0 := e0, e1 := e1 }
      (scratchDiffuse err dt.x.toNat dt.y.toNat dt.w.toNat dt.h.toNat buf) := by
  obtain ⟨hcur, hnext, hlater⟩ := h
  have hadds := (diffusionAddsTheShares lim err dt hwf.1 hwf.2).2 e0 e1 hd
  refine ⟨fun x' hle hlt => ?_, fun x' hlt => ?_, fun x' y' hy => ?_⟩
  · simp only [(hadds x').1, hcur x' hle hlt, scratchDiffuse]
    simp [shareIf_neg]
  · simp only [(hadds x').2, hnext x' hlt, scratchDiffuse]
    simp [shareIf_neg]
  · have h1 : y' ≠ dt.y.toNat := by dsimp only at hy; omega
    have h2 : y' ≠ dt.y.toNat + 1 := by dsimp only at hy; omega
    simp [scratchDiffuse, hlater x' y' hy, shareIf_neg, h1, h2]

/-- Moving on within the frame keeps the lines holding the buffer: at a row's end the next row's errors become the current
ones, and none has reached the row after it. -/
theorem holdsScratch_advance {dt : Ditherer} {buf : Nat → Nat → Fixed} (h : HoldsScratch dt buf) (ha : dt.active = true)
    (hx : dt.x.toNat < dt.w.toNat) (hy : dt.y.toNat < dt.h.toNat) (hgoes : (advance dt).active = true) :
    HoldsScratch (advance dt) buf := by
  obtain ⟨hcur, hnext, hlater⟩ := h
  obtain ⟨hlast, hend, hwithin⟩ := advanceIsRowMajor dt ha hx hy
  rcases Nat.lt_or_eq_of_le (Nat.succ_le_of_lt hx) with hw | hw
  · obtain ⟨u, hadv, hu⟩ := hwithin hw
    rw [hadv]
    exact ⟨fun x' hle => hcur x' (by dsimp only at hle; omega), hnext, hlater⟩
  · rcases Nat.lt_or_eq_of_le (Nat.succ_le_of_lt hy) with hh | hh
    · obtain ⟨u, hadv, hu⟩ := hend hw hh
      rw [hadv]
      refine ⟨fun x' _ hlt => ?_, fun x' hlt => ?_, fun x' y' hlt => ?_⟩
      · dsimp only
        rw [hu]
        exact hnext x' hlt
      · dsimp only
        rw [hu, lineGet_nil, hlater x' _ (by omega)]
      · exact hlater x' y' (by dsimp only at hlt; omega)
    · rw [hlast hw hh] at hgoes
      cases hgoes

end Sys2Proof.Machine
end

section
namespace Sys2Proof.Machine
open Sys2Proof.Claims

/-! ### The search (R171, R172) -/

/-- Settles O43: of the checks of R178 only the last sum's upper bound is left, since no term is negative. -/
theorem distanceIsTheSummedDifference : Obligations.DistanceIsTheSummedDifference := by
  intro lim d acc c
  simp only [distance, fix, Option.bind_eq_bind, Option.bind_eq_some_iff, chkAbs_eq_some, chk_eq_some]
  constructor
  · rintro ⟨_, ⟨rfl, -⟩, _, ⟨rfl, -⟩, _, ⟨rfl, -⟩, _, ⟨rfl, -⟩, rfl, -, h⟩
    exact ⟨rfl, h⟩
  · rintro ⟨rfl, h⟩
    exact ⟨_, ⟨rfl, by omega⟩, _, ⟨rfl, by omega⟩, _, ⟨rfl, by omega⟩, _, ⟨rfl, by omega⟩, rfl, by omega, h⟩

theorem search_of_distance {lim d : Int} {acc : Fixed} {slot : Nat → Rgb} (h : distance lim acc (slot 0) = some d) :
    search lim acc slot = searchFrom lim acc slot laterSlots (0, d) := by
  rw [search, h, Option.bind_eq_bind, Option.bind_some]

theorem search_of_distance_none {lim : Int} {acc : Fixed} {slot : Nat → Rgb} (h : distance lim acc (slot 0) = none) :
    search lim acc slot = none := by
  rw [search, h, Option.bind_eq_bind, Option.bind_none]

theorem search_eq_none_iff {lim : Int} {acc : Fixed} {slot : Nat → Rgb} :
    search lim acc slot = none ↔ ∃ j, j ≤ 255 ∧ distance lim acc (slot j) = none := by
  cases h0 : distance lim acc (slot 0) with
  | none => exact iff_of_true (search_of_distance_none h0) ⟨0, Nat.zero_le _, h0⟩
  | some d =>
    rw [search_of_distance h0, searchFrom_eq_none]
    simp only [mem_laterSlots]
    constructor
    · rintro ⟨j, ⟨-, hj⟩, h⟩
      exact ⟨j, hj, h⟩
    · rintro ⟨j, hj, h⟩
      rcases Nat.eq_zero_or_pos j with rfl | hpos
      · simp [h0] at h
      · exact ⟨j, ⟨hpos, hj⟩, h⟩

/-- The slot the search answers is the lowest of the nearest ones. -/
theorem search_eq_some {lim : Int} {acc : Fixed} {slot : Nat → Rgb} {i : Nat} {d : Int}
    (h : search lim acc slot = some (i, d)) :
    i ≤ 255 ∧ distance lim acc (slot i) = some d ∧
      ∀ j, j ≤ 255 → ∃ dj, distance lim acc (slot j) = some dj ∧ d ≤ dj ∧ (j < i → d < dj) := by
  have hne : distance lim acc (slot 0) ≠ none := fun h0 => by simp [search_of_distance_none h0] at h
  obtain ⟨d0, hd0⟩ := Option.ne_none_iff_exists'.1 hne
  rw [search_of_distance hd0] at h
  have cases0 : ∀ {j}, j ≤ 255 → j = 0 ∨ j ∈ laterSlots := fun hj => by
    rw [mem_laterSlots]
    omega
  rcases searchFrom_eq_some h with ⟨hbest, hall⟩ | ⟨pre, post, hsplit, hdist, hlt, hpre, hpost⟩
  · cases hbest
    refine ⟨by omega, hd0, fun j hj => ?_⟩
    rcases cases0 hj with rfl | hj
    · exact ⟨d, hd0, Int.le_refl d, fun h => absurd h (by omega)⟩
    · obtain ⟨dj, hdj, hle⟩ := hall j hj
      exact ⟨dj, hdj, hle, fun h => absurd h (by omega)⟩
  · have hi := mem_laterSlots.1 (hsplit ▸ List.mem_append_right pre List.mem_cons_self)
    have hsorted := laterSlots_sorted
    rw [hsplit] at hsorted
    have hafter : ∀ j ∈ post, i < j := (List.pairwise_cons.1 (List.pairwise_append.1 hsorted).2.1).1
    refine ⟨hi.2, hdist, fun j hj => ?_⟩
    rcases cases0 hj with rfl | hj
    · exact ⟨d0, hd0, Int.le_of_lt hlt, fun _ => hlt⟩
    rw [hsplit, List.mem_append, List.mem_cons] at hj
    rcases hj with hj | rfl | hj
    · obtain ⟨dj, hdj, hdlt⟩ := hpre j hj
      exact ⟨dj, hdj, Int.le_of_lt hdlt, fun _ => hdlt⟩
    · exact ⟨d, hdist, Int.le_refl d, fun h => absurd h (Nat.lt_irrefl _)⟩
    · obtain ⟨dj, hdj, hle⟩ := hpost j hj
      exact ⟨dj, hdj, hle, fun h => absurd h (Nat.lt_asymm (hafter j hj))⟩

/-- Settles O44, from what a run of the search over slots 1 to 255 answers, slot 0 being the best so far. -/
theorem searchFindsTheNearestLowestSlot : Obligations.SearchFindsTheNearestLowestSlot :=
  fun _ _ _ => ⟨fun _ _ => search_eq_some, search_eq_none_iff⟩

/-- No slot below the one the search answers has its colour. -/
theorem slot_ne_of_search {lim : Int} {acc : Fixed} {slot : Nat → Rgb} {i j : Nat} {d : Int}
    (h : search lim acc slot = some (i, d)) (hj : j < i) : slot j ≠ slot i := by
  obtain ⟨hi, hdist, hnearest⟩ := search_eq_some h
  obtain ⟨dj, hdj, -, hlt⟩ := hnearest j (by omega)
  intro heq
  rw [heq, hdist, Option.some.injEq] at hdj
  have := hlt hj
  omega

/-! ### The skip (R170) -/

theorem showsAs_iff {acc : Fixed} {c : Rgb} : acc.showsAs c = true ↔
    acc.r / 256 = (c.r.toNat : Int) ∧ acc.g / 256 = (c.g.toNat : Int) ∧ acc.b / 256 = (c.b.toNat : Int) := by
  simp only [Fixed.showsAs, Bool.and_eq_true, decide_eq_true_eq, and_assoc]
  rfl

/-- The colour a value shows as is the one it shifts down to. -/
theorem toRgb_of_showsAs {acc : Fixed} {c : Rgb} (h : acc.showsAs c = true) : acc.toRgb = c := by
  obtain ⟨hr, hg, hb⟩ := showsAs_iff.1 h
  simp only [Fixed.toRgb, shiftDown, hr, hg, hb, BitVec.ofInt_natCast, BitVec.ofNat_toNat, BitVec.setWidth_eq]

theorem skipTaken_iff {acc : Fixed} {s : State} : skipTaken acc s = true ↔
    s.dt.uref = true ∧ ∃ c, s.ref.get? (pixelEntry s.dt) = some c ∧ acc.showsAs c = true := by
  rw [skipTaken, Bool.and_eq_true]
  cases s.ref.get? (pixelEntry s.dt) <;> simp

/-- Settles O42: the skip compares channel by channel, and a compared value shifts down to the entry. -/
theorem skipComparesTheShiftedValue : Obligations.SkipComparesTheShiftedValue := by
  intro acc s
  refine ⟨skipTaken_iff.trans (by simp only [showsAs_iff, pixelEntry]), fun h => ?_⟩
  obtain ⟨-, c, hc, hshows⟩ := skipTaken_iff.1 h
  rw [toRgb_of_showsAs hshows]
  exact hc

/-! ### The pixel R160 computes -/

theorem pixelFor_of_skip {acc : Fixed} {s : State} (h : skipTaken acc s = true) :
    pixelFor acc s = some { idx := 1#8, colour := acc.toRgb, e0 := s.dt.e0, e1 := s.dt.e1 } := if_pos h

theorem pixelFor_of_not_skip {acc : Fixed} {s : State} (h : skipTaken acc s = false) :
    pixelFor acc s = searchedPixel acc s := if_neg (by simp [h])

/-- The searched pixel: the slot the search answers, that slot's colour, and its error diffused (R171 to R175). -/
theorem searchedPixel_eq_some_iff {acc : Fixed} {s : State} {p : Pixel} : searchedPixel acc s = some p ↔
    ∃ i d err, search (accLimit s.cfg) acc (palRead s.pal) = some (i, d) ∧
      p.idx.toNat = i ∧ p.colour = palRead s.pal i ∧ errorOf (accLimit s.cfg) acc (palRead s.pal i) = some err ∧
      diffuse (accLimit s.cfg) err s.dt = some (p.e0, p.e1) := by
  simp only [searchedPixel, Option.bind_eq_bind, Option.bind_eq_some_iff, Option.some.injEq]
  constructor
  · rintro ⟨⟨i, d⟩, hsearch, err, herr, ⟨e0, e1⟩, hlines, rfl⟩
    have hi : i < 2 ^ 8 := by
      have := (search_eq_some hsearch).1
      omega
    exact ⟨i, d, err, hsearch, (BitVec.toNat_ofNat _ _).trans (Nat.mod_eq_of_lt hi), rfl, herr, hlines⟩
  · obtain ⟨idx, colour, e0, e1⟩ := p
    dsimp only
    rintro ⟨i, d, err, hsearch, rfl, rfl, herr, hlines⟩
    exact ⟨_, hsearch, err, herr, _, hlines, by simp⟩

theorem pixelFor_eq_some_iff {acc : Fixed} {s : State} {p : Pixel} : pixelFor acc s = some p ↔
    (skipTaken acc s = true ∧ p.idx = 1#8 ∧ p.colour = acc.toRgb ∧ p.e0 = s.dt.e0 ∧ p.e1 = s.dt.e1) ∨
      (skipTaken acc s = false ∧ ∃ i d err, search (accLimit s.cfg) acc (palRead s.pal) = some (i, d) ∧
        p.idx.toNat = i ∧ p.colour = palRead s.pal i ∧ errorOf (accLimit s.cfg) acc (palRead s.pal i) = some err ∧
        diffuse (accLimit s.cfg) err s.dt = some (p.e0, p.e1)) := by
  cases h : skipTaken acc s with
  | true =>
    obtain ⟨idx, colour, e0, e1⟩ := p
    simp [pixelFor_of_skip h, eq_comm]
  | false => simp [pixelFor_of_not_skip h, searchedPixel_eq_some_iff]

/-- The index of a searched pixel is not 1: slot 0 has the same colour. -/
theorem searchedPixel_idx_ne_one {acc : Fixed} {s : State} {p : Pixel} (h : searchedPixel acc s = some p) :
    p.idx ≠ 1#8 := by
  obtain ⟨i, d, err, hsearch, hidx, -⟩ := searchedPixel_eq_some_iff.1 h
  intro hone
  rw [hone] at hidx
  subst hidx
  exact slot_ne_of_search hsearch (by decide : 0 < (1#8).toNat) rfl

/-- Settles O45: the search prefers the lower of two slots of one colour, slot 0 to slot 1 and any white slot to 255. -/
theorem searchNeverChoosesIndexOne : Obligations.SearchNeverChoosesIndexOne := by
  intro acc s p
  refine ⟨fun h => ⟨searchedPixel_idx_ne_one h, fun h255 i _ hi => ?_⟩, fun h => ?_⟩
  · obtain ⟨k, d, err, hsearch, hidx, -⟩ := searchedPixel_eq_some_iff.1 h
    rw [h255] at hidx
    subst hidx
    exact slot_ne_of_search hsearch (Nat.lt_succ_of_le hi)
  · cases hskip : skipTaken acc s with
    | true =>
      rw [pixelFor_of_skip hskip] at h
      cases h
      simp
    | false =>
      rw [pixelFor_of_not_skip hskip] at h
      simpa using searchedPixel_idx_ne_one h

end Sys2Proof.Machine
end

section
namespace Sys2Proof.Machine
open Sys2Proof.Claims

/-! ### `DT_PIXEL` as the commit of one pixel (R160) -/

theorem State.Inv.unitsRest {s : State} (h : s.Inv) (hf : s.fault = false) : UnitsRest s := h.sound.rest hf

theorem State.Inv.frameOk {s : State} (h : s.Inv) (ha : s.dt.active = true) : s.frameOk := by
  obtain ⟨-, -, hframe, -⟩ := h.ditherer
  exact hframe ha

theorem bodyOf_dtPixel {s : State} (ha : s.dt.active = true) (hchain : s.dt.chain = true → s.lz.active = true)
    (r g b : Byte) : bodyOf (.dtPixel r g b) s = ditherPixel ⟨r, g, b⟩ s := by
  have hopen : ¬(s.dt.chain && !s.lz.active) = true := by simpa using hchain
  exact (if_pos ha).trans (if_neg hopen)

/-- The checks of a frame in progress that no run meets (R62, R27, R154). -/
theorem pixel_exists_of_frameOk {s : State} (h : s.frameOk) :
    ¬(s.dt.w.toNat ≤ s.dt.x.toNat ∨ s.cfg.maxWidth < s.dt.w.toNat) ∧
      ¬((s.dt.uref || s.dt.wref) && s.cfg.refDepth ≤ pixelEntry s.dt) = true := by
  obtain ⟨hx, hy, hw, hrefs, -⟩ := h
  have hentry := pixelEntry_lt hx hy
  refine ⟨by omega, fun hc => ?_⟩
  simp only [Bool.and_eq_true, Bool.or_eq_true, decide_eq_true_eq] at hc
  have := hrefs hc.1
  omega

theorem ditherPixel_of_noEntry {s : State} (h : s.frameOk) (huref : s.dt.uref = true)
    (hno : s.ref.get? (pixelEntry s.dt) = none) (v : Rgb) : ditherPixel v s = .raise .dtRefUninit := by
  obtain ⟨hline, href⟩ := pixel_exists_of_frameOk h
  rw [ditherPixel, if_neg hline, if_neg href, if_pos (by simp [huref, hno])]

theorem finishPixel_eq {s : State} (hready : palReady s.pal = true) (acc : Fixed) :
    finishPixel acc s = (pixelFor acc s).elim (.raise .dtRange) fun p => commitPixel p s := by
  cases hskip : skipTaken acc s with
  | true => rw [finishPixel, if_pos hskip, pixelFor_of_skip hskip, Option.elim_some]
  | false =>
    rw [finishPixel, if_neg (by simp [hskip]), if_pos hready, pixelFor_of_not_skip hskip]
    cases searchedPixel acc s <;> rfl

/-- Past the reference check a pixel is committed, or leaves the datapath's range on the way (R160, R178). -/
theorem ditherPixel_of_entry {s : State} (h : s.frameOk)
    (hentry : s.dt.uref = true → (s.ref.get? (pixelEntry s.dt)).isSome = true) (v : Rgb) :
    ditherPixel v s = ((accumulate (accLimit s.cfg) v (lineGet s.dt.e0 s.dt.x.toNat)).bind fun acc => pixelFor acc s).elim
      (.raise .dtRange) fun p => commitPixel p s := by
  obtain ⟨hline, href⟩ := pixel_exists_of_frameOk h
  obtain ⟨-, -, -, -, hready⟩ := h
  have hinit : ¬(s.dt.uref && (s.ref.get? (pixelEntry s.dt)).isNone) = true := by
    simpa [← Option.isSome_iff_ne_none] using hentry
  rw [ditherPixel, if_neg hline, if_neg href, if_neg hinit]
  cases accumulate (accLimit s.cfg) v (lineGet s.dt.e0 s.dt.x.toNat) with
  | none => rfl
  | some acc => exact finishPixel_eq hready acc

/-- A pixel that goes on has been accumulated, computed and committed. -/
theorem ditherPixel_eq_go {v : Rgb} {s t : State} (h : ditherPixel v s = .go t) :
    ∃ acc p, accumulate (accLimit s.cfg) v (lineGet s.dt.e0 s.dt.x.toNat) = some acc ∧ pixelFor acc s = some p ∧
      commitPixel p s = .go t := by
  unfold ditherPixel at h
  split at h
  · cases h
  split at h
  · cases h
  split at h
  · cases h
  split at h
  · cases h
  rename_i acc hacc
  refine ⟨acc, ?_⟩
  unfold finishPixel at h
  split at h <;> rename_i hskip
  · exact ⟨_, hacc, pixelFor_of_skip hskip, h⟩
  split at h
  · split at h
    · cases h
    · rename_i p hp
      exact ⟨p, hacc, (pixelFor_of_not_skip (Bool.eq_false_iff.2 hskip)).trans hp, h⟩
  · cases h

/-! ### What a committed pixel leaves (R179 to R183) -/

theorem appendPoint_eq_go {s a t : State} (h : appendPoint s a = .go t) : ∃ k, t = a.setSink k := by
  unfold appendPoint at h
  split at h
  · cases h
    exact ⟨a.sink, rfl⟩
  split at h
  · cases h
    exact ⟨a.sink, rfl⟩
  · cases h
  · cases h
    exact ⟨_, rfl⟩

/-- A committed pixel has stepped the encoder where the frame is chained, appended its PIX word and advanced. -/
theorem commitPixel_eq_go {p : Pixel} {s t : State} (h : commitPixel p s = .go t) :
    ∃ u, (if s.dt.chain then lzSym p.idx s else .go s) = .go u ∧ t.lz = u.lz ∧ t.pk = u.pk ∧ t.out = u.out ∧
      t.pix = s.pix ++ [pixWord p.colour p.idx] ∧ t.dt = advance { s.dt with e0 := p.e0, e1 := p.e1 } := by
  obtain ⟨u, hsym, hrest⟩ := Flow.andThen_eq_go h
  obtain ⟨v, hemit, hadv⟩ := Flow.andThen_eq_go hrest
  obtain ⟨k, rfl⟩ := appendPoint_eq_go hemit
  cases hadv
  have hcode := chainSym_all p.idx s
  rw [hsym] at hcode
  obtain ⟨⟨hstep, -⟩, -⟩ := hcode
  have hpix : u.pix = s.pix := by rw [hstep]
  refine ⟨u, hsym, ?_⟩
  rw [storePixel_frame, hstep.dt_eq.1]
  exact ⟨rfl, rfl, rfl, congrArg (· ++ [pixWord p.colour p.idx]) hpix, rfl⟩

/-- What a pixel that no sink-error event stops leaves as it was. -/
theorem committed_frame {p : Pixel} {s u t : State} {w : Word} {dt : Ditherer}
    (ht : t = ((storePixel p u).addPix w).setDt dt) (h : CodeStep s u) (hs : u.sink = s.sink) :
    t = { s with dt := t.dt, ref := t.ref, pix := t.pix, lz := t.lz, pk := t.pk, out := t.out } := by
  have hu : u = { s with lz := u.lz, pk := u.pk, out := u.out } := by
    unfold CodeStep at h
    rwa [hs] at h
  rw [ht, storePixel_frame p u]
  generalize (storePixel p u).ref = ref
  rw [hu]
  rfl

/-- A command that has taken no fault has run its pseudocode to its end. -/
theorem bodyOf_eq_go_of_completes {i : Instr} {s t : State} (hf : s.fault = false) (he : exec i s = .next t)
    (ht : t.fault = false) : bodyOf i s = .go t := by
  rcases exec_cases hf he with ⟨hb, -⟩ | ⟨c, -, -, rfl⟩ | ⟨u, -, -, rfl⟩
  · exact hb
  · rw [takeFault_frame] at ht
    cases ht
  · cases ht

/-- What a completed `DT_PIXEL` has done: its sequence checks have passed, and its pixel is committed. -/
theorem dtPixel_completed {r g b : Byte} {s t : State} (hf : s.fault = false) (he : exec (.dtPixel r g b) s = .next t)
    (ht : t.fault = false) :
    (s.dt.chain = true → s.lz.active = true) ∧ ∃ acc p,
      accumulate (accLimit s.cfg) ⟨r, g, b⟩ (lineGet s.dt.e0 s.dt.x.toNat) = some acc ∧ pixelFor acc s = some p ∧
      commitPixel p s = .go t := by
  have hb := bodyOf_eq_go_of_completes hf he ht
  simp only [bodyOf] at hb
  split at hb
  · split at hb
    · cases hb
    · rename_i hopen
      exact ⟨by simpa using hopen, ditherPixel_eq_go hb⟩
  · cases hb

/-! ### What `DT_PIXEL` faults on, and its effect -/

/-- Settles O39: the sequence checks, then the reference check, then the range. -/
theorem dtPixelFaultsInOrder : Obligations.DtPixelFaultsInOrder := by
  intro r g b s hinv hf
  have raises : ∀ {c}, bodyOf (.dtPixel r g b) s = .raise c →
      exec (.dtPixel r g b) s = .next (s.setFault c (encode (.dtPixel r g b))) := exec_of_raise hf (by simp [opcodeOf])
  refine ⟨fun ha => ?_, fun ha hc hlz => ?_, fun ha hchain ⟨huref, hno⟩ => ?_, fun ha hchain hentry hrange => ?_⟩
  · exact raises (by simp [bodyOf, ha])
  · exact raises (by simp [bodyOf, ha, hc, hlz])
  · exact raises ((bodyOf_dtPixel ha hchain r g b).trans (ditherPixel_of_noEntry (hinv.frameOk ha) huref hno _))
  · have hsome : s.dt.uref = true → (s.ref.get? (pixelEntry s.dt)).isSome = true := fun h =>
      Option.isSome_iff_ne_none.2 fun hno => hentry ⟨h, hno⟩
    refine raises ((bodyOf_dtPixel ha hchain r g b).trans ?_)
    rw [ditherPixel_of_entry (hinv.frameOk ha) hsome, hrange, Option.elim_none]

/-- Settles O40: the pseudocode of such a pixel is its commit, which no sink-error event stops. -/
theorem dtPixelCompletes : Obligations.DtPixelCompletes := by
  intro acc p s
  refine ⟨pixelFor_eq_some_iff, fun r g b hinv hf ha hchain hentry hacc hp => ?_⟩
  obtain ⟨u, -, hcode, hsink, hun, hgo⟩ := commitPixel_goes (p := p) hinv.noSink (hinv.unitsRest hf)
  obtain ⟨hdt, -, -, href⟩ := hcode.dt_eq
  have hbody : bodyOf (.dtPixel r g b) s = commitPixel p s := by
    rw [bodyOf_dtPixel ha hchain, ditherPixel_of_entry (hinv.frameOk ha) hentry, hacc, Option.bind_some, hp,
      Option.elim_some]
  obtain ⟨-, -, -, -, -, hpix, hpos⟩ := commitPixel_eq_go hgo
  generalize ht : ((storePixel p u).addPix _).setDt _ = t at hgo hpix hpos
  have hfr := committed_frame ht.symm hcode (hsink.trans hinv.noSink.symm)
  refine ⟨t, exec_of_go hf (hbody.trans hgo), by rw [hfr]; exact hf, hpix, hpos, fun a => ?_, fun hc => ?_, fun _ => hfr⟩
  · rw [← ht, State.setDt_ref, State.addPix_ref, storePixel_ref, hdt, href]
    rfl
  · rw [← ht, hun hc, storePixel_frame]
    rfl

end Sys2Proof.Machine
end

section
namespace Sys2Proof.Machine
open Sys2Proof.Claims

/-! ### A pixel no error has reached (R185) -/

/-- The least datapath of R6 holds every value in `[-2^19, 2^19)`. -/
theorem accLimit_ge {p : Params} (legal : p.Legal) : 524288 ≤ accLimit p := by
  obtain ⟨-, -, hbits, -⟩ := legal
  have : 2 ^ 19 ≤ 2 ^ (p.accBits - 1) := Nat.pow_le_pow_right (by decide) (by omega)
  unfold accLimit
  omega

theorem accumulate_zero {p : Params} (legal : p.Legal) (v : Rgb) :
    accumulate (accLimit p) v Fixed.zero = some (fixRgb v) := by
  have hlim := accLimit_ge legal
  have hr := v.r.isLt
  have hg := v.g.isLt
  have hb := v.b.isLt
  refine accumulate_eq_some_iff.2 ⟨by simp [fixRgb, Fixed.zero], ?_⟩
  simp only [Fixed.inRange, inRange, fixRgb, fix]
  omega

theorem fixRgb_showsAs (c : Rgb) : (fixRgb c).showsAs c = true :=
  showsAs_iff.2 ⟨by simp [fixRgb, fix], by simp [fixRgb, fix], by simp [fixRgb, fix]⟩

theorem skipTaken_fixRgb {c : Rgb} {s : State} (huref : s.dt.uref = true) (hc : s.ref.get? (pixelEntry s.dt) = some c) :
    skipTaken (fixRgb c) s = true := skipTaken_iff.2 ⟨huref, c, hc, fixRgb_showsAs c⟩

/-- Settles O49: such a pixel accumulates its input, which shows as the entry, so that the skip is taken. -/
theorem identicalPixelIsSkipped : Obligations.IdenticalPixelIsSkipped := by
  intro r g b s hinv hf ha hchain huref hzero hentry
  have hacc := accumulate_zero hinv.legal ⟨r, g, b⟩
  rw [← hzero] at hacc
  have hp := pixelFor_of_skip (skipTaken_fixRgb huref hentry)
  rw [toRgb_of_showsAs (fixRgb_showsAs _)] at hp
  have hsome : (s.ref.get? (pixelEntry s.dt)).isSome = true := Option.isSome_iff_exists.2 ⟨_, hentry⟩
  obtain ⟨t, he, ht, hpix, hdt, -⟩ := (dtPixelCompletes _ _ s).2 r g b hinv hf ha hchain (fun _ => hsome) hacc hp
  exact ⟨t, he, ht, hpix, hdt⟩

/-- Every distance from a colour is in range (R178). -/
theorem distance_fixRgb {p : Params} (legal : p.Legal) (v c : Rgb) :
    ∃ d, distance (accLimit p) (fixRgb v) c = some d ∧ 0 ≤ d ∧ (d = 0 ↔ c = v) := by
  have hlim := accLimit_ge legal
  have hr := v.r.isLt
  have hg := v.g.isLt
  have hb := v.b.isLt
  have hr' := c.r.isLt
  have hg' := c.g.isLt
  have hb' := c.b.isLt
  have heq : c = v ↔ c.r.toNat = v.r.toNat ∧ c.g.toNat = v.g.toNat ∧ c.b.toNat = v.b.toNat := by
    cases c
    cases v
    simp [BitVec.toNat_inj]
  refine ⟨_, (distanceIsTheSummedDifference _ _ _ c).2 ⟨rfl, ?_⟩, ?_, ?_⟩
  · simp only [fixRgb, fix]
    omega
  · omega
  · simp only [heq, fixRgb, fix]
    omega

/-- From a palette colour the search answers a slot of that colour. -/
theorem search_fixRgb {p : Params} (legal : p.Legal) {v : Rgb} {slot : Nat → Rgb} (hv : ∃ i, i ≤ 255 ∧ slot i = v) :
    ∃ i d, search (accLimit p) (fixRgb v) slot = some (i, d) ∧ i ≤ 255 ∧ slot i = v := by
  have hne : search (accLimit p) (fixRgb v) slot ≠ none := fun h => by
    obtain ⟨j, -, hj⟩ := search_eq_none_iff.1 h
    obtain ⟨d, hd, -⟩ := distance_fixRgb legal v (slot j)
    rw [hd] at hj
    cases hj
  obtain ⟨⟨i, d⟩, hsearch⟩ := Option.ne_none_iff_exists'.1 hne
  obtain ⟨hi, hdist, hnearest⟩ := search_eq_some hsearch
  obtain ⟨k, hk, hkv⟩ := hv
  obtain ⟨dk, hdk, hle, -⟩ := hnearest k hk
  obtain ⟨d', hd', hnonneg, hzero⟩ := distance_fixRgb legal v (slot i)
  obtain ⟨dk', hdk', -, hkzero⟩ := distance_fixRgb legal v (slot k)
  rw [hdist, Option.some.injEq] at hd'
  rw [hdk, Option.some.injEq] at hdk'
  have hdk0 : dk' = 0 := hkzero.2 hkv
  exact ⟨i, d, hsearch, hi, hzero.1 (by omega)⟩

theorem errorOf_fixRgb {p : Params} (legal : p.Legal) (v : Rgb) :
    errorOf (accLimit p) (fixRgb v) v = some Fixed.zero := by
  have hlim := accLimit_ge legal
  refine errorOf_eq_some_iff.2 ⟨by simp [fixRgb, Fixed.zero], ?_⟩
  simp only [Fixed.inRange, inRange, Fixed.zero]
  omega

theorem zero_inRange {p : Params} (legal : p.Legal) : Fixed.zero.inRange (accLimit p) := by
  have hlim := accLimit_ge legal
  simp only [Fixed.inRange, inRange, Fixed.zero]
  omega

/-- Every entry of an error line in order is in range, listed or not (R27). -/
theorem lineGet_inRange {p : Params} (legal : p.Legal) {line : Memory Fixed} (h : lineOk p line) (x : Nat) :
    (lineGet line x).inRange (accLimit p) := by
  unfold lineGet
  cases hx : line.get? x with
  | none => exact zero_inRange legal
  | some e => exact (h _ (Memory.mem_of_get? hx)).2

/-- No error diffuses without a check failing and leaves every entry as it was. -/
theorem diffuse_zero {p : Params} (legal : p.Legal) {dt : Ditherer} (hl : linesOk p dt.e0 dt.e1) :
    ∃ e0 e1, diffuse (accLimit p) Fixed.zero dt = some (e0, e1) ∧
      (∀ x, lineGet e0 x = lineGet dt.e0 x) ∧ ∀ x, lineGet e1 x = lineGet dt.e1 x := by
  obtain ⟨w0, w1, o0, o1⟩ := hl
  have fits : ∀ {c : Prop} {line : Memory Fixed} {x : Nat} {k : Int}, lineOk p line →
      ShareFits c (accLimit p) (lineGet line x) Fixed.zero k := fun ho _ => by
    rw [shareOf_zero, plus_zero]
    exact ⟨by simpa [Fixed.zero] using zero_inRange legal, lineGet_inRange legal ho _⟩
  obtain ⟨⟨e0, e1⟩, h⟩ := exists_diffuse_iff.2 ⟨fits o0, fits o1, fits o1, fits o1⟩
  have hadds := (diffusionAddsTheShares _ _ dt w0 w1).2 e0 e1 h
  refine ⟨e0, e1, h, fun x => ?_, fun x => ?_⟩
  · rw [(hadds x).1, shareIf_zero, plus_zero]
  · rw [(hadds x).2, shareIf_zero, shareIf_zero, shareIf_zero, plus_zero, plus_zero, plus_zero]

/-- Settles O50: such a pixel accumulates its input, the search answers a slot of that colour, and its error is 0. -/
theorem paletteExactPixelLeavesNoError : Obligations.PaletteExactPixelLeavesNoError := by
  intro r g b s hinv hf ha hchain huref hzero hslot
  obtain ⟨-, -, -, w0, w1⟩ := hinv.memory
  obtain ⟨o0, o1, -, -⟩ := hinv.ditherer
  have hacc := accumulate_zero hinv.legal ⟨r, g, b⟩
  rw [← hzero] at hacc
  obtain ⟨i, d, hsearch, hi, hcolour⟩ := search_fixRgb hinv.legal hslot
  obtain ⟨e0, e1, hlines, h0, h1⟩ := diffuse_zero hinv.legal ⟨w0, w1, o0, o1⟩
  have hidx : (BitVec.ofNat 8 i).toNat = i := (BitVec.toNat_ofNat _ _).trans (Nat.mod_eq_of_lt (by omega))
  have hskip : skipTaken (fixRgb ⟨r, g, b⟩) s = false := by simp [skipTaken, huref]
  have hp : pixelFor (fixRgb ⟨r, g, b⟩) s = some { idx := BitVec.ofNat 8 i, colour := ⟨r, g, b⟩, e0 := e0, e1 := e1 } :=
    pixelFor_eq_some_iff.2 (.inr ⟨hskip, i, d, Fixed.zero, hsearch, hidx, hcolour.symm, by
      rw [hcolour, errorOf_fixRgb hinv.legal], hlines⟩)
  obtain ⟨t, he, ht, hpix, hdt, -⟩ :=
    (dtPixelCompletes _ _ s).2 r g b hinv hf ha hchain (fun h => absurd h (by simp [huref])) hacc hp
  exact ⟨t, _, he, ht, hpix, by rw [hidx, hcolour], e0, e1, hdt, h0, h1⟩

/-! ### A chained pixel (R183) -/

/-- What `DT_PIXEL` may change, taking a fault and a sink error included. -/
structure PixelCommandStep (s t : State) : Prop where
  frame : t = { s with
    dt := t.dt, ref := t.ref, pix := t.pix, lz := t.lz, pk := t.pk, out := t.out
    fault := t.fault, cause := t.cause, faultCmd := t.faultCmd, sink := t.sink }
  ref : ∀ a, s.dt.wref = false ∨ a ≠ pixelEntry s.dt → t.ref.get? a = s.ref.get? a
  unchained : s.dt.chain = false → t.lz = s.lz ∧ t.pk = s.pk ∧ t.out = s.out

theorem PixelStep.commandStep {s t : State} (h : PixelStep s t) : PixelCommandStep s t := by
  refine ⟨?_, h.ref, h.unchained⟩
  rw [h.frame]

theorem PixelCommandStep.setFault {s t : State} (h : PixelCommandStep s t) (c : Cause) (w : Word) :
    PixelCommandStep s (t.setFault c w) := by
  refine ⟨?_, h.ref, h.unchained⟩
  rw [h.frame]
  rfl

theorem PixelCommandStep.setSink {s t : State} (h : PixelCommandStep s t) (k : Option Nat) :
    PixelCommandStep s (t.setSink k) := by
  refine ⟨?_, h.ref, h.unchained⟩
  rw [h.frame]
  rfl

/-- `DT_PIXEL`, whatever it answers. -/
theorem exec_dtPixel_commandStep {r g b : Byte} {s t : State} (he : exec (.dtPixel r g b) s = .next t) :
    PixelCommandStep s t :=
  exec_keeps he (by simp [opcodeOf]) (PixelStep.refl s).commandStep
    (.ite (.ite (.raise _ _) ((ditherPixel_all _ s).mono fun _ h => h.commandStep)) (.raise _ _))
    (fun _ c w h => h.setFault c w) fun _ h => h.setSink none

/-- The index of a PIX word (R179). -/
theorem extractLsb'_pixWord (c : Rgb) (idx : Byte) : (pixWord c idx).extractLsb' 0 8 = idx :=
  BitVec.extractLsb'_append_eq_right

/-- Settles O48: a completed chained pixel has run `lz_sym` of its index, which is what `LZ_SYM` of it runs. -/
theorem chainedPixelIsAnLzSym : Obligations.ChainedPixelIsAnLzSym := by
  intro r g b s ha
  refine ⟨fun ⟨hf, _⟩ hc t he ht => ?_, fun hf hc hlz => ?_, fun hc t he => (exec_dtPixel_commandStep he).unchained hc⟩
  · obtain ⟨hopen, acc, p, -, -, hcommit⟩ := dtPixel_completed hf he ht
    obtain ⟨u, hsym, hlz, hpk, hout, hpix, -⟩ := commitPixel_eq_go hcommit
    rw [if_pos hc] at hsym
    refine ⟨_, u, hpix, ?_, hlz, hpk, hout⟩
    rw [extractLsb'_pixWord]
    exact exec_of_go hf ((bodyOf_lzSym (hopen hc) p.idx).trans hsym)
  · exact exec_of_raise hf (by simp [opcodeOf]) (by simp [bodyOf, ha, hc, hlz])

/-! ### The scratch buffer of a run of pixels (R184) -/

/-- A completed `DT_BEGIN` leaves both error lines at 0 (R153). -/
theorem dtBegin_completed {chain wref uref : Bool} {s t : State} (hf : s.fault = false)
    (he : exec (.dtBegin chain wref uref) s = .next t) (ht : t.fault = false) : t.dt.e0 = [] ∧ t.dt.e1 = [] := by
  have hb := bodyOf_eq_go_of_completes hf he ht
  simp only [bodyOf] at hb
  split at hb
  · cases hb
  split at hb
  · cases hb
  split at hb
  · cases hb
    exact ⟨rfl, rfl⟩
  · cases hb

/-- The lines a pixel leaves, before the advance, hold the scratch buffer after that pixel. -/
theorem holdsScratch_pixel {acc : Fixed} {s : State} {p : Pixel} {buf : Nat → Nat → Fixed} (h : HoldsScratch s.dt buf)
    (hwf : lineWf s.dt.e0 ∧ lineWf s.dt.e1) (hp : pixelFor acc s = some p) :
    HoldsScratch { s.dt with e0 := p.e0, e1 := p.e1 }
      (if skipTaken acc s then buf
       else scratchDiffuse ⟨acc.r - fix p.colour.r, acc.g - fix p.colour.g, acc.b - fix p.colour.b⟩ s.dt.x.toNat
         s.dt.y.toNat s.dt.w.toNat s.dt.h.toNat buf) := by
  rcases pixelFor_eq_some_iff.1 hp with ⟨hskip, -, -, h0, h1⟩ | ⟨hskip, i, d, err, -, -, hcolour, herr, hlines⟩
  · rw [if_pos hskip, h0, h1]
    exact h
  · rw [if_neg (by simp [hskip]), hcolour, ← errorOf_eq_some herr]
    exact holdsScratch_diffuse h hwf hlines

/-- Settles O51: a skipped pixel keeps lines and buffer, a searched one diffuses one error into both, and the advance
keeps the lines holding the buffer. -/
theorem lineBuffersHoldTheScratchBuffer : Obligations.LineBuffersHoldTheScratchBuffer := by
  refine ⟨fun chain wref uref s t hf he ht => ?_, fun r g b s t buf hinv hf ha hholds he ht => ?_⟩
  · obtain ⟨h0, h1⟩ := dtBegin_completed hf he ht
    exact ⟨fun _ _ _ => by rw [h0, lineGet_nil], fun _ _ => by rw [h1, lineGet_nil], fun _ _ _ => rfl⟩
  · obtain ⟨hx, hy, -⟩ := hinv.frameOk ha
    obtain ⟨-, -, -, hwf⟩ := hinv.memory
    obtain ⟨-, acc, p, hacc, hp, hcommit⟩ := dtPixel_completed hf he ht
    obtain ⟨u, -, -, -, -, hpix, hdt⟩ := commitPixel_eq_go hcommit
    rw [hholds.1 _ (Nat.le_refl _) hx] at hacc
    refine ⟨acc, p, hacc, hp, hpix, fun hgoes => ?_⟩
    rw [hdt] at hgoes ⊢
    exact holdsScratch_advance (holdsScratch_pixel hholds hwf hp) ha hx hy hgoes

end Sys2Proof.Machine
end

section
namespace Sys2Proof.Machine

/-! ### Configuration while a frame is in progress (R151, R152, R191) -/

theorem writableWidth_eq {reg : BitVec 4} {width : Nat}
    (h : reg = 3#4 ∧ width = 16 ∨ reg = 4#4 ∧ width = 16 ∨ reg = 5#4 ∧ width = 8 ∨ reg = 6#4 ∧ width = 24) :
    writableWidth reg = some width := by
  rcases h with ⟨rfl, rfl⟩ | ⟨rfl, rfl⟩ | ⟨rfl, rfl⟩ | ⟨rfl, rfl⟩ <;> rfl

/-- Settles O36: the busy check comes before the command's own effect, and in `REG_WRITE` after the value's. -/
theorem busyConfigurationFaults : Obligations.BusyConfigurationFaults := by
  intro r g b s hf
  refine ⟨fun ha => ⟨?_, ?_, fun reg val width hreg hval => ?_⟩, fun ha hptr => ?_⟩
  · exact exec_of_raise hf (by simp [opcodeOf]) (if_pos ha)
  · exact exec_of_raise hf (by simp [opcodeOf]) (if_pos ha)
  · refine exec_of_raise hf (by simp [opcodeOf]) ?_
    simp only [bodyOf, writableWidth_eq hreg, if_neg (Nat.not_le.2 hval), if_pos ha]
  · exact exec_of_raise hf (by simp [opcodeOf]) (by simp [bodyOf, ha, hptr])

/-! ### `DT_BEGIN` (R153 to R155) -/

/-- The geometries R154 refuses. -/
theorem badGeometry_iff {wref uref : Bool} {s : State} : badGeometry wref uref s = true ↔
    s.dtWidth.toNat = 0 ∨ s.dtHeight.toNat = 0 ∨ s.cfg.maxWidth < s.dtWidth.toNat ∨
      ((uref = true ∨ wref = true) ∧ s.cfg.refDepth < s.dtWidth.toNat * s.dtHeight.toNat) := by
  have hzero : ∀ v : BitVec 16, v = 0#16 ↔ v.toNat = 0 := fun v => BitVec.toNat_inj.symm
  simp only [badGeometry, Bool.or_eq_true, Bool.and_eq_true, decide_eq_true_eq, hzero, or_assoc]

/-- With every check passed, `DT_BEGIN` writes the Ditherer alone. -/
theorem bodyOf_dtBegin {wref uref : Bool} {s : State} (ha : s.dt.active = false)
    (hgeo : ¬badGeometry wref uref s = true) (hready : palReady s.pal = true) (chain : Bool) :
    bodyOf (.dtBegin chain wref uref) s = .go (s.setDt
      { active := true, w := s.dtWidth, h := s.dtHeight, x := 0#16, y := 0#16
        uref := uref, wref := wref, chain := chain, e0 := [], e1 := [] }) := by
  simp [bodyOf, ha, hgeo, hready]

/-- Settles O37: every check passes. -/
theorem dtBeginStartsAFrame : Obligations.DtBeginStartsAFrame := by
  intro chain wref uref s hf ha hw hh hmax hdepth hpal
  have hgeo : ¬badGeometry wref uref s = true := by
    rw [badGeometry_iff]
    rintro (h | h | h | ⟨hused, h⟩)
    · omega
    · omega
    · omega
    · exact absurd (hdepth hused) (Nat.not_le.2 h)
  exact ⟨_, exec_of_go hf (bodyOf_dtBegin ha hgeo ((palReady_iff s.pal).2 hpal) chain), rfl, rfl, rfl, rfl, rfl, rfl, rfl, rfl,
    fun x => ⟨lineGet_nil x, lineGet_nil x⟩, rfl⟩

/-- Settles O38: the checks in the order of the pseudocode. -/
theorem dtBeginFaultsInOrder : Obligations.DtBeginFaultsInOrder := by
  intro chain wref uref s hf
  have raises : ∀ {c}, bodyOf (.dtBegin chain wref uref) s = .raise c →
      exec (.dtBegin chain wref uref) s = .next (s.setFault c (encode (.dtBegin chain wref uref))) :=
    exec_of_raise hf (by simp [opcodeOf])
  refine ⟨fun ha => raises (if_pos ha), fun ha hbad => raises ?_, fun ha hbad ⟨i, h2, h254, hi⟩ => raises ?_⟩
  · simp [bodyOf, ha, badGeometry_iff.2 hbad]
  · have hgeo : ¬badGeometry wref uref s = true := fun h => hbad (badGeometry_iff.1 h)
    have hready : ¬palReady s.pal = true := fun h => by simp [(palReady_iff s.pal).1 h i h2 h254] at hi
    simp [bodyOf, ha, hgeo, hready]

/-! ### What the Ditherer's commands leave unchanged -/

/-- A command that appends to no stream keeps what its effect keeps and a fault of its own keeps. -/
theorem exec_keeps_of_unstopped {P : State → Prop} {i : Instr} {s t : State} (he : exec i s = .next t)
    (hop : opcodeOf i ≠ 0xF#4 ∧ opcodeOf i ≠ 0xB#4) (hs : P s)
    (hbody : (bodyOf i s).Ends P (fun _ => False) fun c => P (s.setFault c (encode i))) : P t := by
  obtain ⟨hreset, hread⟩ := hop
  cases hf : s.fault with
  | true =>
    obtain ⟨-, ht⟩ := exec_faulted hf (fun p hp => hreset (by rw [hp]; rfl)) he
    rwa [ht fun r hr => hread (by rw [hr]; rfl)]
  | false =>
    rcases exec_cases hf he with ⟨hb, -⟩ | ⟨c, hb, -, rfl⟩ | ⟨u, hb, -, -⟩ <;> rw [hb] at hbody
    · exact hbody
    · rwa [takeFault_encode_of_ne hread]
    · exact hbody.elim

theorem Flow.Ends.ite {c : Prop} [Decidable c] {f g : Flow} {G S : State → Prop} {R : Cause → Prop} (hf : f.Ends G S R)
    (hg : g.Ends G S R) : (if c then f else g).Ends G S R := by
  split
  · exact hf
  · exact hg

theorem get?_palWrite_of_ne (pal : Memory Rgb) {i j : Nat} (c : Rgb) (h : j ≠ i) :
    (palWrite pal i c).get? j = pal.get? j := by
  unfold palWrite
  split
  · rfl
  · rw [Memory.get?_set, if_neg h]

/-- Settles O54: each command writes its own storage, at one entry, or takes a fault. -/
theorem dithererCommandFrames : Obligations.DithererCommandFrames := by
  intro s t
  refine ⟨fun r g b he => ?_, fun r g b he => ?_, fun c w u he => ?_, fun r g b he => ?_⟩
  · exact exec_keeps_of_unstopped (P := fun t : State =>
      t = { s with pal := t.pal, palPtr := t.palPtr, fault := t.fault, cause := t.cause, faultCmd := t.faultCmd } ∧
      ∀ i, i ≠ s.palPtr.toNat → t.pal.get? i = s.pal.get? i) he (by simp [opcodeOf]) ⟨rfl, fun _ _ => rfl⟩
      (.ite ⟨rfl, fun _ _ => rfl⟩ ⟨rfl, fun i hi => get?_palWrite_of_ne s.pal _ hi⟩)
  · exact exec_keeps_of_unstopped (P := fun t : State =>
      t = { s with ref := t.ref, refPtr := t.refPtr, fault := t.fault, cause := t.cause, faultCmd := t.faultCmd } ∧
      ∀ a, a ≠ s.refPtr.toNat → t.ref.get? a = s.ref.get? a) he (by simp [opcodeOf]) ⟨rfl, fun _ _ => rfl⟩
      (.ite ⟨rfl, fun _ _ => rfl⟩ (.ite ⟨rfl, fun _ _ => rfl⟩
        ⟨rfl, fun a ha => (Memory.get?_set s.ref _ _ a).trans (if_neg ha)⟩))
  · exact exec_keeps_of_unstopped (P := fun t : State =>
      t = { s with dt := t.dt, fault := t.fault, cause := t.cause, faultCmd := t.faultCmd }) he (by simp [opcodeOf]) rfl
      (.ite rfl (.ite rfl (.ite rfl rfl)))
  · obtain ⟨hframe, href, hun⟩ := exec_dtPixel_commandStep he
    exact ⟨hframe, href, hun⟩

end Sys2Proof.Machine
end

section
namespace Sys2Proof.Machine
open Sys2Proof.Claims

/-! ### The read-write registers (R34 to R36, R191) -/

/-- What a register write puts where: each of the four registers takes the value where it is the one named. -/
theorem setRegister_eq (reg : BitVec 4) (val : BitVec 24) (s : State) : setRegister reg val s = { s with
    dtWidth := if reg = 3#4 then val.setWidth 16 else s.dtWidth
    dtHeight := if reg = 4#4 then val.setWidth 16 else s.dtHeight
    palPtr := if reg = 5#4 then val.setWidth 8 else s.palPtr
    refPtr := if reg = 6#4 then val else s.refPtr } := by
  match reg with
  | 0#4 | 1#4 | 2#4 | 3#4 | 4#4 | 5#4 | 6#4 | 7#4 | 8#4 | 9#4 | 10#4 | 11#4 | 12#4 | 13#4 | 14#4 | 15#4 => rfl
  | .ofFin ⟨_ + 16, hlt⟩ => omega

theorem setRegister_frame (reg : BitVec 4) (val : BitVec 24) (s : State) : setRegister reg val s = { s with
    dtWidth := (setRegister reg val s).dtWidth, dtHeight := (setRegister reg val s).dtHeight
    palPtr := (setRegister reg val s).palPtr, refPtr := (setRegister reg val s).refPtr } := by
  rw [setRegister_eq]

/-- A read of another register after a register write. -/
theorem regValue_setRegister_of_ne {reg other : BitVec 4} (h : other ≠ reg) (val : BitVec 24) (s : State) :
    regValue other (setRegister reg val s) = regValue other s := by
  rw [setRegister_eq]
  match other with
  | 3#4 | 4#4 | 5#4 | 6#4 => simp [regValue, h.symm]
  | 0#4 | 1#4 | 2#4 | 7#4 | 8#4 | 9#4 | 10#4 | 11#4 | 12#4 | 13#4 | 14#4 | 15#4 => rfl
  | .ofFin ⟨_ + 16, hlt⟩ => omega

/-- A value that fits is not changed by the register's width (R191), nor by the word it is read in (R31). -/
theorem toNat_setWidth_setWidth {n w m : Nat} {v : BitVec n} (hv : v.toNat < 2 ^ w) (hm : w ≤ m) :
    ((v.setWidth w).setWidth m).toNat = v.toNat := by
  rw [BitVec.toNat_setWidth_of_le hm, BitVec.toNat_setWidth, Nat.mod_eq_of_lt hv]

/-- A read of the register written. -/
theorem regValue_setRegister_self {reg : BitVec 4} {width : Nat} {val : BitVec 24}
    (hreg : reg = 3#4 ∧ width = 16 ∨ reg = 4#4 ∧ width = 16 ∨ reg = 5#4 ∧ width = 8 ∨ reg = 6#4 ∧ width = 24)
    (hval : val.toNat < 2 ^ width) (s : State) :
    ∃ v, regValue reg (setRegister reg val s) = some v ∧ v.toNat = val.toNat := by
  rcases hreg with ⟨rfl, rfl⟩ | ⟨rfl, rfl⟩ | ⟨rfl, rfl⟩ | ⟨rfl, rfl⟩
  · exact ⟨_, rfl, toNat_setWidth_setWidth hval (by decide)⟩
  · exact ⟨_, rfl, toNat_setWidth_setWidth hval (by decide)⟩
  · exact ⟨_, rfl, toNat_setWidth_setWidth hval (by decide)⟩
  · exact ⟨_, rfl, BitVec.toNat_setWidth_of_le (by decide)⟩

/-- Every other register is read-only or reserved (R31). -/
theorem writableWidth_eq_none {reg : BitVec 4} (h3 : reg ≠ 3#4) (h4 : reg ≠ 4#4) (h5 : reg ≠ 5#4) (h6 : reg ≠ 6#4) :
    writableWidth reg = none := by
  match reg with
  | 3#4 => exact absurd rfl h3
  | 4#4 => exact absurd rfl h4
  | 5#4 => exact absurd rfl h5
  | 6#4 => exact absurd rfl h6
  | 0#4 | 1#4 | 2#4 | 7#4 | 8#4 | 9#4 | 10#4 | 11#4 | 12#4 | 13#4 | 14#4 | 15#4 => rfl
  | .ofFin ⟨_ + 16, hlt⟩ => omega

/-! ### `REG_WRITE` (R191) -/

/-- A value wider than the register is refused before the frame is looked at. -/
theorem exec_regWrite_regValue {reg : BitVec 4} {width : Nat} {val : BitVec 24} {s : State} (hf : s.fault = false)
    (hreg : writableWidth reg = some width) (hval : 2 ^ width ≤ val.toNat) :
    exec (.regWrite reg val) s = .next (s.setFault .regValue (encode (.regWrite reg val))) :=
  exec_of_raise hf (by simp [opcodeOf]) (by simp only [bodyOf, hreg, if_pos hval])

theorem exec_regWrite_of_fits {reg : BitVec 4} {width : Nat} {val : BitVec 24} {s : State} (hf : s.fault = false)
    (ha : s.dt.active = false) (hreg : writableWidth reg = some width) (hval : val.toNat < 2 ^ width) :
    exec (.regWrite reg val) s = .next (setRegister reg val s) :=
  exec_of_go hf (by simp [bodyOf, hreg, Nat.not_le.2 hval, ha])

/-- Settles O17: the busy check is the last one. -/
theorem regWriteFaultsBeforeTheBusyCheck : Obligations.RegWriteFaultsBeforeTheBusyCheck := by
  intro reg val s hf
  refine ⟨fun h3 h4 h5 h6 => exec_regWrite_badReg (writableWidth_eq_none h3 h4 h5 h6) hf val, ?_, ?_⟩
  · rintro (rfl | rfl) hval <;> exact exec_regWrite_regValue hf rfl hval
  · rintro rfl hval
    exact exec_regWrite_regValue hf rfl hval

/-- Settles O16: every check passes, and the registers read as after one register write. -/
theorem regWriteSetsOneRegister : Obligations.RegWriteSetsOneRegister := by
  intro reg val width s hf ha hreg hval
  exact ⟨setRegister reg val s, exec_regWrite_of_fits hf ha (writableWidth_eq hreg) hval,
    regValue_setRegister_self hreg hval s, fun other hne => regValue_setRegister_of_ne hne val s,
    setRegister_frame reg val s⟩

/-! ### `REG_READ` (R190, R220) -/

/-- The reserved register numbers (R31). -/
theorem regValue_eq_none_iff {reg : BitVec 4} {s : State} : regValue reg s = none ↔ 13 ≤ reg.toNat := by
  match reg with
  | 13#4 | 14#4 | 15#4 => exact iff_of_true rfl (by decide)
  | 0#4 | 1#4 | 2#4 | 3#4 | 4#4 | 5#4 | 6#4 | 7#4 | 8#4 | 9#4 | 10#4 | 11#4 | 12#4 =>
    exact iff_of_false nofun (by decide)
  | .ofFin ⟨_ + 16, hlt⟩ => omega

theorem exists_regValue {reg : BitVec 4} (h : reg.toNat ≤ 12) (s : State) : ∃ v, regValue reg s = some v :=
  Option.ne_none_iff_exists'.1 fun hnone => absurd (regValue_eq_none_iff.1 hnone) (by omega)

theorem bodyOf_regRead {reg : BitVec 4} {s : State} {v : Word} (hv : regValue reg s = some v) :
    bodyOf (.regRead reg) s = emitRsp v s := by simp only [bodyOf, hv]

/-- A reserved number faults and answers 0 (R220). -/
theorem exec_regRead_badReg {reg : BitVec 4} {s : State} (hf : s.fault = false) (hv : regValue reg s = none) :
    exec (.regRead reg) s = .next ((s.setFault .badReg (encode (.regRead reg))).addRsp 0#32) := by
  have hbody : bodyOf (.regRead reg) s = .raise .badReg := by simp only [bodyOf, hv]
  rw [exec_eq_conclude _ hf, hbody, conclude_raise, takeFault_encode_regRead]

/-- The event that reaches an append point stops the command there (R219). -/
theorem appendPoint_of_sink_zero {s : State} (hf : s.fault = false) (hs : s.sink = some 0) (t : State) :
    appendPoint s t = .stop s := by simp [appendPoint, hf, hs]

theorem exec_of_stop {i : Instr} {s t : State} (hf : s.fault = false) (hb : bodyOf i s = .stop t) :
    exec i s = .next (takeSinkError (encode i) t) := by
  rw [exec_eq_conclude i hf, hb, conclude_stop]

/-- A word with a reserved bit that is 1 is decided by its operation's mask (R90). -/
theorem runWord_of_reserved {w : Word} {s : State} {op : BitVec 4} (hf : s.fault = false) (hop : opField w = op)
    (hop0 : op ≠ 0x0#4) (hopD : op ≠ 0xD#4) (hr : ¬ReservedClear op w) :
    runWord w s = .next (takeFault .reservedBits w s) := by
  subst hop
  obtain ⟨-, -, -, hreserved, -⟩ := wordIsDecidedInPriorityOrder w s
  exact hreserved hf hop0 hopD fun h => hr ((and_reservedMask_eq_zero_iff _ w).1 h)

/-- Settles O12: a faulted block answers unchecked; otherwise the read is one append, met by the event or not, and a
refused one answers 0. -/
theorem regReadAnswersOneWord : Obligations.RegReadAnswersOneWord := by
  intro reg s
  refine ⟨fun hf => exec_regRead_of_fault hf reg, fun hf h13 => exec_regRead_badReg hf (regValue_eq_none_iff.2 h13),
    fun hf h12 hs => ?_, fun hf h12 hs => ?_, fun w hw hreserved => ⟨fun hf => ?_, fun hf => ?_⟩⟩
  · obtain ⟨v, hv⟩ := exists_regValue h12 s
    exact ⟨v, hv, exec_of_go hf ((bodyOf_regRead hv).trans (emitRsp_quiet hs v))⟩
  · obtain ⟨v, hv⟩ := exists_regValue h12 s
    exact exec_of_stop hf ((bodyOf_regRead hv).trans (appendPoint_of_sink_zero hf hs _))
  · exact (runWord_of_reserved hf hw (by decide) (by decide) hreserved).trans (congrArg _ (if_pos hw))
  · exact (runWord_of_fault hf (by rw [hw]; decide)).trans (congrArg _ (if_pos hw))

/-! ### What the register commands leave unchanged -/

/-- What `REG_READ` may change. -/
def RegReadStep (s t : State) : Prop :=
  t = { s with rsp := t.rsp, fault := t.fault, cause := t.cause, faultCmd := t.faultCmd, sink := t.sink }

theorem bodyOf_regRead_all (reg : BitVec 4) (s : State) : (bodyOf (.regRead reg) s).All (RegReadStep s) := by
  simp only [bodyOf]
  split
  · trivial
  · exact appendPoint_all rfl fun _ => rfl

theorem exec_regRead_step {reg : BitVec 4} {s t : State} (he : exec (.regRead reg) s = .next t) : RegReadStep s t := by
  cases hf : s.fault with
  | true =>
    cases (exec_regRead_of_fault hf reg).symm.trans he
    rfl
  | false =>
    have hbody := bodyOf_regRead_all reg s
    rcases exec_cases hf he with ⟨hb, -⟩ | ⟨c, -, -, rfl⟩ | ⟨u, hb, -, rfl⟩
    · rwa [hb] at hbody
    · rw [takeFault_encode_regRead]
      rfl
    · rw [hb, Flow.all_stop] at hbody
      unfold RegReadStep at *
      rw [hbody]
      rfl

/-- What `REG_WRITE` of a register may change, in the state and in what the registers read as. -/
def RegWriteStep (reg : BitVec 4) (s t : State) : Prop :=
  t = { s with
    dtWidth := t.dtWidth, dtHeight := t.dtHeight, palPtr := t.palPtr, refPtr := t.refPtr
    fault := t.fault, cause := t.cause, faultCmd := t.faultCmd } ∧
  ∀ other : BitVec 4, other ≠ reg → other ≠ 1#4 → other ≠ 2#4 → regValue other t = regValue other s

theorem RegWriteStep.refl (reg : BitVec 4) (s : State) : RegWriteStep reg s s := ⟨rfl, fun _ _ _ _ => rfl⟩

/-- Only `STATUS` and `FAULT_CMD` show that a fault has been taken. -/
theorem regValue_setFault_of_ne {other : BitVec 4} (h1 : other ≠ 1#4) (h2 : other ≠ 2#4) (s : State) (c : Cause)
    (w : Word) : regValue other (s.setFault c w) = regValue other s := by
  match other with
  | 1#4 => exact absurd rfl h1
  | 2#4 => exact absurd rfl h2
  | 0#4 | 3#4 | 4#4 | 5#4 | 6#4 | 7#4 | 8#4 | 9#4 | 10#4 | 11#4 | 12#4 | 13#4 | 14#4 | 15#4 => rfl
  | .ofFin ⟨_ + 16, hlt⟩ => omega

theorem setFault_regWriteStep (reg : BitVec 4) (s : State) (c : Cause) (w : Word) :
    RegWriteStep reg s (s.setFault c w) :=
  ⟨rfl, fun _ _ h1 h2 => regValue_setFault_of_ne h1 h2 s c w⟩

theorem setRegister_regWriteStep (reg : BitVec 4) (val : BitVec 24) (s : State) :
    RegWriteStep reg s (setRegister reg val s) := by
  refine ⟨?_, fun _ hne _ _ => regValue_setRegister_of_ne hne val s⟩
  rw [setRegister_eq]

theorem exec_regWrite_step {reg : BitVec 4} {val : BitVec 24} {s t : State}
    (he : exec (.regWrite reg val) s = .next t) : RegWriteStep reg s t := by
  have raises : ∀ c, RegWriteStep reg s (s.setFault c (encode (.regWrite reg val))) :=
    fun c => setFault_regWriteStep reg s c _
  refine exec_keeps_of_unstopped he (by simp [opcodeOf]) (.refl reg s) ?_
  simp only [bodyOf]
  split
  · exact raises _
  · exact .ite (raises _) (.ite (raises _) (setRegister_regWriteStep reg val s))

/-- Settles O55: `REG_READ` answers or takes a fault, `REG_WRITE` writes its register or takes a fault. -/
theorem registerCommandFrames : Obligations.RegisterCommandFrames := fun _ _ =>
  ⟨fun _ he => exec_regRead_step he, fun _ _ he => exec_regWrite_step he⟩

/-! ### `NOP` (R192) -/

theorem exec_nop (s : State) : exec .nop s = .next s := by
  cases hf : s.fault with
  | true => exact exec_of_fault hf (by decide) (by decide)
  | false => exact exec_of_go hf rfl

/-- Settles O18: its pseudocode does nothing, and a word with its operation is `NOP`'s or has a reserved bit set. -/
theorem nopChangesNothing : Obligations.NopChangesNothing := by
  intro s
  refine ⟨exec_nop s, (runWord_of_decode (i := .nop) rfl s).trans (exec_nop s),
    fun w hw hne => ⟨fun hf => ?_, fun hf => ?_⟩⟩
  · have hreserved : ¬ReservedClear 0xE#4 w := fun h => hne (encode_eq_of_fields (i := .nop) hw h).symm
    refine (runWord_of_reserved hf hw (by decide) (by decide) hreserved).trans (congrArg _ (if_neg ?_))
    rw [hw]
    decide
  · refine (runWord_of_fault hf ?_).trans (congrArg _ (if_neg ?_)) <;> (rw [hw]; decide)

/-! ### `RESET` (R43, R193) -/

/-- With no slot written only the hardwired ones are valid (R28). -/
theorem palValid_nil {i : Nat} : palValid [] i = true ↔ i = 0 ∨ i = 1 ∨ i = 255 := by
  simp [palValid, or_assoc]

/-- The state after reset holds the table of R43. -/
theorem resetWith_atResetTable (p : Params) : AtResetTable (State.resetWith p) :=
  ⟨rfl, rfl, rfl,
    rfl, rfl, rfl,
    rfl, Memory.get?_nil, rfl, rfl, rfl,
    rfl, rfl, rfl, rfl, rfl, rfl, rfl, rfl, rfl, rfl,
    rfl, rfl, rfl, fun _ _ => palValid_nil, rfl,
    Memory.get?_nil, rfl,
    rfl, rfl, rfl⟩

/-- Settles O19: a reset block differs from the state after reset in nothing the table names. -/
theorem resetGivesTheResetTable : Obligations.ResetGivesTheResetTable := fun _ s =>
  ⟨resetBlock s, rfl, resetWith_atResetTable s.cfg, rfl, rfl, rfl, rfl⟩

end Sys2Proof.Machine
end

section
namespace Sys2Proof.Machine
open Sys2Proof.Claims

/-! ### Taking a fault (R213, R214, R220) -/

/-- A fault writes the fault registers, and answers a word with the operation of `REG_READ`. -/
theorem takeFault_eq (c : Cause) (w : Word) (s : State) : takeFault c w s = { s with
    fault := true, cause := c, faultCmd := w, rsp := s.rsp ++ (if opField w = 0xB#4 then [0#32] else []) } := by
  unfold takeFault
  split
  · rfl
  · rw [List.append_nil]
    rfl

theorem faultAnswer_eq (i : Instr) : faultAnswer i = if opField (encode i) = 0xB#4 then [0#32] else [] := by
  rw [opField_encode]
  cases i <;> rfl

/-- A command's own checks raise causes of its row of R213. -/
theorem raisable_subset_causesOf (i : Instr) : raisable i ⊆ causesOf i := by
  cases i <;> simp [raisable, causesOf]

theorem none_notMem_raisable (i : Instr) : Cause.none ∉ raisable i := by
  cases i <;> simp [raisable]

/-- The event stops no command that appends to no stream (R219). -/
theorem bodyOf_unstopped {i : Instr} (hi : .sinkError ∉ causesOf i) (s : State) :
    (bodyOf i s).Ends (fun _ => True) (fun _ => False) (fun _ => True) := by
  cases i with
  | pkWrite n v | pkPad | pkFlush | lzStart | lzSym sym | lzEnd | dtPixel r g b | regRead reg => simp [causesOf] at hi
  | dtBegin chain wref uref => exact .ite trivial (.ite trivial (.ite trivial trivial))
  | palWrite r g b => exact .ite trivial trivial
  | regWrite reg val =>
    simp only [bodyOf]
    split
    · trivial
    · exact .ite trivial (.ite trivial trivial)
  | refWrite r g b => exact .ite trivial (.ite trivial trivial)
  | nop | reset payload => trivial

theorem sinkError_mem_causesOf_of_stop {i : Instr} {s t : State} (h : bodyOf i s = .stop t) :
    .sinkError ∈ causesOf i := by
  by_contra hi
  have hends := bodyOf_unstopped hi s
  rwa [h] at hends

/-- Settles O8: a fault is taken in the state the command began in, and so is a rejected word's. -/
theorem faultEntryIsPrecise : Obligations.FaultEntryIsPrecise := by
  refine ⟨fun i s t hf he ht hsink => ?_, fun w s hf => ⟨fun hw => ?_, fun hw => ?_⟩⟩
  · rcases exec_cases hf he with ⟨-, hgo⟩ | ⟨c, -, hc, rfl⟩ | ⟨u, -, -, rfl⟩
    · simp [hgo] at ht
    · rw [faultAnswer_eq, takeFault_eq]
      exact ⟨fun hnone => none_notMem_raisable i (hnone ▸ hc), rfl⟩
    · exact absurd rfl hsink
  · have hop : opField w ≠ 0xB#4 := by
      rcases decodeWord_eq_illegalOpcode_iff.1 hw with h | h <;> simp [h]
    simp only [runWord, hw, rejectWord_of_not_fault hf, takeFault_eq, if_neg hop, List.append_nil]
  · simp only [runWord, hw, rejectWord_of_not_fault hf, takeFault_eq]

/-- Settles O9: a raised cause is the command's own, and only a command that appends is stopped. -/
theorem commandsRaiseOnlyTheirCauses : Obligations.CommandsRaiseOnlyTheirCauses := by
  intro i s t hf he ht
  rcases exec_cases hf he with ⟨-, hgo⟩ | ⟨c, -, hc, rfl⟩ | ⟨u, hstop, -, rfl⟩
  · simp [hgo] at ht
  · rw [takeFault_eq]
    exact raisable_subset_causesOf i hc
  · exact sinkError_mem_causesOf_of_stop hstop

/-! ### The faulted block (R216, R217) -/

/-- Settles O10: `RESET` and `REG_READ` act, and every other command is discarded. -/
theorem faultedBlockServesOnlyReads : Obligations.FaultedBlockServesOnlyReads := by
  intro i s hf
  cases i with
  | reset payload => rfl
  | regRead reg => exact exec_regRead_of_fault hf reg
  | _ => exact exec_of_fault hf (by simp [opcodeOf]) (by simp [opcodeOf])

/-! ### The sink-error event between two commands (R219) -/

theorem sinkBetween_of_fault {s : State} (hf : s.fault = true) : sinkBetween s = s.setSink none := if_pos hf

theorem sinkBetween_of_not_fault {s : State} (hf : s.fault = false) : sinkBetween s = takeSinkError 0#32 s := by
  simp [sinkBetween, hf]

theorem afterCommand_of_sink {s : State} {k : Nat} (hs : s.sink = some k) : afterCommand s = sinkBetween s := by
  simp only [afterCommand, hs]

theorem afterCommand_of_no_sink {s : State} (hs : s.sink = none) : afterCommand s = s := by
  simp only [afterCommand, hs]

/-- Settles O56: either event is taken at the point between two commands. -/
theorem sinkErrorBetweenCommands : Obligations.SinkErrorBetweenCommands := by
  refine fun s => ⟨fun rest hhost hs => ?_, fun k hs => ?_⟩
  · have hstep : step s = .next (sinkBetween (s.setHost rest)) := step_of_hostAct hhost nofun
    rw [hstep]
    refine ⟨fun hf => ?_, fun hf => ?_⟩
    · rw [sinkBetween_of_not_fault (s := s.setHost rest) hf]
      simp only [takeSinkError, State.setFault, State.setSink, State.setHost, hs]
    · rw [sinkBetween_of_fault (s := s.setHost rest) hf, setSink_of_sink (s := s.setHost rest) hs]
      rfl
  · have hsettle : settle (.next s) = .next (sinkBetween s) := congrArg _ (afterCommand_of_sink hs)
    rw [hsettle]
    exact ⟨fun hf => congrArg _ (sinkBetween_of_not_fault hf), fun hf => congrArg _ (sinkBetween_of_fault hf)⟩

/-! ### Leaving a fault (R216, R217, R240) -/

theorem FaultRegsKept.refl (s : State) : FaultRegsKept s s := ⟨rfl, rfl, rfl, rfl⟩

theorem FaultRegsKept.trans {s t u : State} (h : FaultRegsKept s t) (h' : FaultRegsKept t u) : FaultRegsKept s u :=
  ⟨h'.cfg.trans h.cfg, h'.fault.trans h.fault, h'.cause.trans h.cause, h'.faultCmd.trans h.faultCmd⟩

theorem sinkBetween_keeps_fault {s : State} (hf : s.fault = true) : FaultRegsKept s (sinkBetween s) := by
  rw [sinkBetween_of_fault hf]
  exact ⟨rfl, rfl, rfl, rfl⟩

theorem afterCommand_keeps_fault {s : State} (hf : s.fault = true) : FaultRegsKept s (afterCommand s) := by
  unfold afterCommand
  split
  · exact .refl s
  · exact sinkBetween_keeps_fault hf

/-- While faulted a word other than `RESET` leaves the fault registers (R216). -/
theorem runWord_keeps_fault {w : Word} {s t : State} (hf : s.fault = true) (hreset : opField w ≠ 0xF#4)
    (h : runWord w s = .next t) : FaultRegsKept s t := by
  rw [runWord_of_fault hf hreset] at h
  cases h
  split <;> exact ⟨rfl, rfl, rfl, rfl⟩

/-- The engine leaves the fault registers of a faulted block unless it takes a `RESET` word. -/
theorem runEngine_keeps_fault {k : Option Nat} {s t : State} (hf : s.fault = true) (h : runEngine k s = .next t) :
    FaultRegsKept s t ∨ ∃ w ws, s.port = w :: ws ∧ opField w = 0xF#4 := by
  cases hport : s.port with
  | nil =>
    simp only [runEngine, hport] at h
    cases h
    have hsink : FaultRegsKept s (s.setSink k) := ⟨rfl, rfl, rfl, rfl⟩
    exact .inl (hsink.trans (afterCommand_keeps_fault hf))
  | cons w ws =>
    by_cases hreset : opField w = 0xF#4
    · exact .inr ⟨w, ws, rfl, hreset⟩
    · rw [runEngine_of_port_cons hport] at h
      obtain ⟨u, hu, rfl⟩ := settle_eq_next h
      have htaken : FaultRegsKept s ((s.setPort ws).setSink k) := ⟨rfl, rfl, rfl, rfl⟩
      have hword : FaultRegsKept s u := htaken.trans (runWord_keeps_fault hf hreset hu)
      exact .inl (hword.trans (afterCommand_keeps_fault (hword.fault.trans hf)))

/-- The host leaves the fault registers of a faulted block unless it asserts the reset input. -/
theorem hostAct_keeps_fault {a : HostAction} {s : State} (hf : s.fault = true) (ha : a ≠ .resetInput) :
    FaultRegsKept s (hostAct a s) := by
  cases a with
  | resetInput => exact absurd rfl ha
  | sinkErr => exact sinkBetween_keeps_fault hf
  | _ => exact ⟨rfl, rfl, rfl, rfl⟩

/-- Settles O11: of the engine's words and the host's actions only the two resets write the fault registers of a
faulted block. -/
theorem onlyResetLeavesAFault : Obligations.OnlyResetLeavesAFault := by
  intro s t hf hstep
  have kept : FaultRegsKept s t → t.fault = true ∧ t.cause = s.cause ∧ t.faultCmd = s.faultCmd :=
    fun h => ⟨h.fault.trans hf, h.cause, h.faultCmd⟩
  cases hhost : s.host with
  | nil =>
    rw [step_of_host_nil hhost] at hstep
    rcases runEngine_keeps_fault hf hstep with h | ⟨w, ws, hport, hw⟩
    · exact .inl (kept h)
    · exact .inr (.inr ⟨w, ws, hport, hw, .inl rfl⟩)
  | cons a rest =>
    have hrest : FaultRegsKept s (s.setHost rest) := ⟨rfl, rfl, rfl, rfl⟩
    by_cases hrun : ∃ k, a = .letRun k
    · obtain ⟨k, rfl⟩ := hrun
      rw [step_of_letRun hhost] at hstep
      rcases runEngine_keeps_fault (s := s.setHost rest) hf hstep with h | ⟨w, ws, hport, hw⟩
      · exact .inl (kept (hrest.trans h))
      · exact .inr (.inr ⟨w, ws, hport, hw, .inr ⟨k, rest, rfl⟩⟩)
    · rw [step_of_hostAct hhost fun k hk => hrun ⟨k, hk⟩] at hstep
      cases hstep
      by_cases hreset : a = .resetInput
      · subst hreset
        exact .inr (.inl ⟨rest, rfl, rfl⟩)
      · exact .inl (kept (hrest.trans (hostAct_keeps_fault (s := s.setHost rest) hf hreset)))

/-! ### The idle block and the end of a run (R14, R225) -/

theorem step_of_idle {s : State} (hhost : s.host = []) (hport : s.port = []) (hs : s.sink = none) :
    step s = .next s := by
  rw [step_of_host_nil hhost]
  simp only [runEngine, hport, setSink_of_sink hs, afterCommand_of_no_sink hs]

/-- Each of the registers 0 to 12 has a value (R31): the registers of a result are theirs, in order. -/
theorem registers_eq_map (s : State) :
    (List.range 13).filterMap (fun n => regValue (BitVec.ofNat 4 n) s) =
      (List.range 13).map fun n => (regValue (BitVec.ofNat 4 n) s).getD 0#32 := by
  rw [List.filterMap_eq_map_iff_forall_eq_some]
  intro n hn
  have hreg : (BitVec.ofNat 4 n).toNat ≤ 12 := by
    have := List.mem_range.1 hn
    simp only [BitVec.toNat_ofNat]
    omega
  obtain ⟨v, hv⟩ := exists_regValue hreg s
  rw [hv, Option.getD_some]

theorem registers_getElem? {n : Nat} (h : n ≤ 12) (s : State) :
    ((List.range 13).filterMap fun n => regValue (BitVec.ofNat 4 n) s)[n]? = regValue (BitVec.ofNat 4 n) s := by
  have hreg : (BitVec.ofNat 4 n).toNat ≤ 12 := by
    simp only [BitVec.toNat_ofNat]
    omega
  obtain ⟨v, hv⟩ := exists_regValue hreg s
  rw [registers_eq_map, List.getElem?_map, List.getElem?_range (by omega), Option.map_some, hv, Option.getD_some]

/-- Settles O6: an idle step runs nothing, and a result is read off a state in which nothing is left to do. -/
theorem idleBlockKeepsItsState : Obligations.IdleBlockKeepsItsState := by
  refine fun s => ⟨fun hhost hport hs => ⟨step_of_idle hhost hport hs, fun hout hpix hrsp => ?_⟩, fun r hr => ?_⟩
  · exact ⟨_, if_pos ⟨hport, hhost, hs, hout, hpix, hrsp⟩⟩
  · unfold State.result at hr
    split at hr
    · rename_i hover
      obtain ⟨hport, hhost, hs, hout, hpix, hrsp⟩ := hover
      cases hr
      refine ⟨step_of_idle hhost hport hs, hport, hhost, hout, hpix, hrsp, rfl, rfl, rfl, ?_,
        fun n hn => registers_getElem? hn s, ?_, fun i hi => ?_, fun _ => rfl⟩
      · rw [registers_eq_map, List.length_map, List.length_range]
      · rw [List.length_map, List.length_range]
      · rw [List.getElem?_map, List.getElem?_range (by omega)]
        rfl
    · cases hr

end Sys2Proof.Machine
end

section
namespace Sys2Proof.Machine
open Sys2Proof.Claims

/-! ### Where a flow has been stopped (R219) -/

/-- Two operations are stopped in the first, or in the second where the first goes on. -/
theorem Flow.andThen_eq_stop {f : Flow} {k : State → Flow} {t : State} (h : f.andThen k = .stop t) :
    f = .stop t ∨ ∃ u, f = .go u ∧ k u = .stop t := by
  cases f with
  | go u => exact .inr ⟨u, rfl, h⟩
  | stop u => exact .inl h
  | raise c => cases h
  | broken x => cases h

/-- A stopped operation has passed a check before it. -/
theorem Flow.stop_of_check {c : Prop} [Decidable c] {x : Cause} {f : Flow} {t : State}
    (h : (if c then .raise x else f) = Flow.stop t) : ¬c ∧ f = .stop t := by
  split at h
  · cases h
  · exact ⟨‹_›, h⟩

theorem Flow.stop_of_guard {c : Prop} [Decidable c] {x : Cause} {f : Flow} {t : State}
    (h : (if c then f else .raise x) = Flow.stop t) : c ∧ f = .stop t := by
  split at h
  · exact ⟨‹_›, h⟩
  · cases h

theorem appendPoint_eq_stop {s a t : State} (h : appendPoint s a = .stop t) : t = s := by
  unfold appendPoint at h
  split at h
  · cases h
  split at h <;> cases h
  rfl

theorem WritesOrStops.of_stop {s t : State} {f : Flow} {bits : List Bool} (h : WritesOrStops s f bits)
    (hf : f = .stop t) : PackerStep s t ∧ StoppedEmitting s t bits := by
  subst hf
  exact h fun _ => True

theorem WritesOrStops.of_go {s t : State} {f : Flow} {bits : List Bool} (h : WritesOrStops s f bits)
    (hf : f = .go t) : PackerStep s t ∧ Appends s t bits := by
  subst hf
  exact h fun _ => True

/-- Where the event does not stop an operation, it goes on to where it goes without the event. -/
theorem Sunk.go_eq {f : State → Flow} {s u v : State} {k : Nat} (h : Sunk f s) (hv : f (s.setSink none) = .go v)
    (hu : f (s.setSink (some k)) = .go u) : ∃ j, u = v.setSink j := by
  obtain ⟨-, -, -, -, -, hk⟩ := h v hv
  obtain ⟨hgoes, hstops⟩ := hk k
  rcases Nat.lt_or_ge (streamed s + k) (streamed v) with hlt | hle
  · obtain ⟨t, ht, -⟩ := hstops hlt
    cases hu.symm.trans ht
  · cases hu.symm.trans (hgoes hle)
    exact ⟨_, rfl⟩

/-! ### How many bits are pending (R24) -/

/-- Bits stop at the emit of a full sub-block only where they fill one. -/
theorem StoppedEmitting.full {s t : State} {bits : List Bool} (h : StoppedEmitting s t bits) :
    2040 ≤ s.pk.bits.length + bits.length := by
  obtain ⟨before, d, -, -, hd, -, -, -, hprefix⟩ := h
  have hlen := hprefix.length_le
  rw [length_flatMap_byteBits, List.length_append, List.length_append] at hlen
  omega

/-- Appending bits empties whole sub-blocks. -/
theorem Appends.length_bits {s t : State} {bits : List Bool} (h : Appends s t bits) :
    ∃ n, s.pk.bits.length + bits.length = 2040 * n + t.pk.bits.length := by
  obtain ⟨blocks, hfull, -, hbits, -⟩ := h
  have hsize : blocks.flatten.length = blocks.length * 255 := by
    rw [List.length_flatten, List.sum_eq_card_nsmul _ 255 (by simpa using hfull), List.length_map, smul_eq_mul]
  have hlen := congrArg List.length hbits
  rw [List.length_append, List.length_append, length_flatMap_byteBits, hsize] at hlen
  exact ⟨blocks.length, by omega⟩

/-! ### Where the encoder has been stopped (R124, R125, R128) -/

theorem forcedReset_eq_stop {s t : State} (hwidth : s.lz.width = 12#4) (h : forcedReset s = .stop t) :
    writeCode clearCode 12 s = .stop t := by
  obtain ⟨-, h⟩ := Flow.stop_of_check h
  rw [hwidth] at h
  exact (Flow.andThen_eq_stop h).resolve_right fun ⟨_, _, hgo⟩ => nomatch hgo

/-- A miss is stopped in the code it writes or, the code space being used up, in the clear code after it. -/
theorem lzMiss_stopped {p : BitVec 12} {sym : Byte} {s t : State} (hpk : s.pk.ok) (hlz : s.lz.ok)
    (hcur : s.lz.cur = some p) (h : lzMiss p sym s = .stop t) : StoppedInSymbol sym s t := by
  have hcode := writeCode_kept (p.setWidth 16) s.lz.width.toNat hpk
  rw [lowBits_setWidth p _ (by omega)] at hcode
  rcases Flow.andThen_eq_stop h with hstop | ⟨u, hgo, hrest⟩
  · obtain ⟨hstep, hemit⟩ := hcode.of_stop hstop
    have hfull := hemit.full
    rw [List.length_map, List.length_range] at hfull
    exact ⟨p, hcur, .inl ⟨hfull, hstep.lz_eq, hemit⟩⟩
  · obtain ⟨hstep, happ⟩ := hcode.of_go hgo
    have hreset := (Flow.andThen_eq_stop hrest).resolve_right fun ⟨_, _, hgo⟩ => nomatch hgo
    simp only [hstep.lz_eq, State.setLz_lz] at hreset
    split at hreset
    case isFalse => cases hreset
    case isTrue hspace =>
      have hnext : s.lz.next = 4095#13 := by
        have hsucc : s.lz.next + 1#13 = 4096#13 := hspace
        bv_omega
      have hwidth : s.lz.width = 12#4 := by
        obtain ⟨-, hwidth, -⟩ := hlz
        rw [hnext] at hwidth
        exact BitVec.eq_of_toNat_eq hwidth
      have hbound : (lzBind s.lz p sym).width = 12#4 := by simp [lzBind, hnext, hwidth]
      obtain ⟨hstep', hclear⟩ := (writeCode_kept clearCode 12 (s := u.setLz (lzBind s.lz p sym)) happ.ok).of_stop
        (forcedReset_eq_stop hbound hreset)
      have hlow : s.pk.bits.length + s.lz.width.toNat < 2040 := by
        obtain ⟨n, hn⟩ := happ.length_bits
        have hs := hpk.length_bits_lt
        have hu := happ.ok.length_bits_lt
        have hfull : 2040 ≤ u.pk.bits.length + 12 := by simpa using hclear.full
        rw [List.length_map, List.length_range, hwidth] at hn
        rw [hwidth]
        simp only [BitVec.toNat_ofNat] at hn ⊢
        omega
      have hemit := happ.stoppedEmitting (u := t) hclear
      rw [hwidth] at hemit
      have hclearBits : lowBits clearCode 12 = (List.range 12).map (256#12 : BitVec 12).getLsbD := by decide
      refine ⟨p, hcur, .inr ⟨hlow, hnext, hwidth, hclearBits ▸ hemit, ?_⟩⟩
      rw [hstep'.lz_eq]
      refine ⟨rfl, rfl, hbound, hspace, fun key => ?_⟩
      have hcodeOf : s.lz.next.setWidth 12 = 4095#12 := by rw [hnext]; rfl
      exact hcodeOf ▸ Memory.get?_set s.lz.dict (dictKey p sym) (s.lz.next.setWidth 12) key

/-- `lz_sym` is stopped in a miss alone. -/
theorem lzSym_stopped {sym : Byte} {s t : State} (hpk : s.pk.ok) (hlz : s.lz.ok) (h : lzSym sym s = .stop t) :
    StoppedInSymbol sym s t := by
  cases hcur : s.lz.cur with
  | none =>
    rw [lzSym_root hcur] at h
    cases h
  | some p =>
    cases hd : s.lz.dict.get? (dictKey p sym) with
    | some c =>
      rw [lzSym_hit hcur hd] at h
      cases h
    | none =>
      rw [lzSym_miss hcur hd] at h
      exact lzMiss_stopped hpk hlz hcur h

/-- The three codes of the end sequence, the event arriving or not. -/
theorem writeEndCodes_kept (p : BitVec 12) {s : State} (hok : s.pk.ok) :
    WritesOrStops s (writeEndCodes p s) (endBits p s.lz.width.toNat) := by
  have hbits : endBits p s.lz.width.toNat =
      lowBits (p.setWidth 16) s.lz.width.toNat ++ (lowBits clearCode s.lz.width.toNat ++ lowBits eoiCode 9) := by
    rw [lowBits_setWidth p _ (by omega), ← List.append_assoc]
    rfl
  rw [hbits]
  refine (writeCode_kept _ _ hok).andThen fun t _ hstep ht => ?_
  rw [hstep.lz_eq]
  exact (writeCode_kept _ _ ht.ok).andThen fun u _ _ hu => writeCode_kept _ _ hu.ok

/-- `flush()` stopped at a byte boundary has bytes pending only (R103). -/
theorem flush_stopped {s t : State} (hok : s.pk.ok) (h0 : s.pk.bitIdx = 0#3) (h : flush s = .stop t) :
    PackerStep s t ∧ StoppedFlushing s t [] := by
  have hkept := flush_kept h0 fun _ => True
  rw [h] at hkept
  obtain ⟨hstep, hpk, j, hj, hout⟩ := hkept
  obtain ⟨hclean, hlen⟩ := hok
  refine ⟨hstep, [], s.pk.buf, j, by simp, hlen, hj, by simpa using hout, ?_, ?_⟩
  · rw [hpk, ← h0, ← hclean.accByte_eq_zero h0]
  · simp [Packer.bits_of_boundary h0]

/-- The end sequence is stopped while the codes and the padding fill a sub-block, or in the last flush. -/
theorem lzFinish_stopped {p : BitVec 12} {s t : State} (hok : s.pk.ok) (h : lzFinish p s = .stop t) :
    t.lz = s.lz ∧ ∃ zeros, zeros < 8 ∧
      (StoppedEmitting s t (endBits p s.lz.width.toNat ++ List.replicate zeros false) ∨
        StoppedFlushing s t (endBits p s.lz.width.toNat ++ List.replicate zeros false)) := by
  rw [lzFinish_eq] at h
  have h := (Flow.andThen_eq_stop h).resolve_right fun ⟨_, _, hgo⟩ => nomatch hgo
  have hcodes := writeEndCodes_kept p hok
  rcases Flow.andThen_eq_stop h with hstop | ⟨u, hgo, hrest⟩
  · obtain ⟨hstep, hemit⟩ := hcodes.of_stop hstop
    exact ⟨hstep.lz_eq, 0, by decide, .inl (hemit.mono _)⟩
  · obtain ⟨hstep, happ⟩ := hcodes.of_go hgo
    have hpad := pad_kept happ.ok
    have hzeros : (if u.pk.bitIdx = 0#3 then 0 else 8 - u.pk.bitIdx.toNat) < 8 := by
      split
      · decide
      · rename_i hidx
        have : u.pk.bitIdx.toNat ≠ 0 := fun h' => hidx (BitVec.eq_of_toNat_eq h')
        omega
    rcases Flow.andThen_eq_stop hrest with hstop | ⟨v, hgo', hflush⟩
    · obtain ⟨hstep', hemit⟩ := hpad.of_stop hstop
      exact ⟨hstep'.lz_eq.trans hstep.lz_eq, _, hzeros, .inl (happ.stoppedEmitting hemit)⟩
    · obtain ⟨hstep', happ'⟩ := hpad.of_go hgo'
      obtain ⟨hstep'', hflushing⟩ := flush_stopped happ'.ok (pad_bitIdx hgo') hflush
      have hends := (happ.trans happ').stoppedFlushing hflushing
      rw [List.append_nil] at hends
      exact ⟨(hstep''.lz_eq.trans hstep'.lz_eq).trans hstep.lz_eq, _, hzeros, .inr hends⟩

/-! ### Where a pixel has been stopped (R160, R179) -/

/-- A commit is stopped in its chained symbol or, its lines and mirrored colour written, at PIX. -/
theorem commitPixel_eq_stop {p : Pixel} {s t : State} (h : commitPixel p s = .stop t) :
    (s.dt.chain = true ∧ lzSym p.idx s = .stop t) ∨
      ∃ u, (if s.dt.chain then lzSym p.idx s else .go s) = .go u ∧ t = storePixel p u := by
  rcases Flow.andThen_eq_stop h with hsym | ⟨u, hsym, hrest⟩
  · split at hsym
    · exact .inl ⟨‹_›, hsym⟩
    · cases hsym
  · have hemit := (Flow.andThen_eq_stop hrest).resolve_right fun ⟨_, _, hgo⟩ => nomatch hgo
    exact .inr ⟨u, hsym, appendPoint_eq_stop hemit⟩

/-- A stopped pixel has been accumulated and computed, and is being committed. -/
theorem ditherPixel_eq_stop {v : Rgb} {s t : State} (hframe : s.frameOk) (h : ditherPixel v s = .stop t) :
    ∃ acc p, accumulate (accLimit s.cfg) v (lineGet s.dt.e0 s.dt.x.toNat) = some acc ∧ pixelFor acc s = some p ∧
      commitPixel p s = .stop t := by
  by_cases hno : s.dt.uref = true ∧ s.ref.get? (pixelEntry s.dt) = none
  · rw [ditherPixel_of_noEntry hframe hno.1 hno.2] at h
    cases h
  · rw [ditherPixel_of_entry hframe fun huref => Option.isSome_iff_ne_none.2 fun hnone => hno ⟨huref, hnone⟩] at h
    cases hacc : accumulate (accLimit s.cfg) v (lineGet s.dt.e0 s.dt.x.toNat) with
    | none =>
      rw [hacc] at h
      cases h
    | some acc =>
      rw [hacc, Option.bind_some] at h
      cases hp : pixelFor acc s with
      | none =>
        rw [hp] at h
        cases h
      | some p =>
        rw [hp] at h
        exact ⟨acc, p, rfl, hp, h⟩

/-! ### What each stopped command leaves (R219) -/

/-- A `PK_FLUSH` stopped after `k` elements has its bytes still pending. -/
theorem pkFlush_keptAtStop {k : Nat} {s t : State} (h : flush (s.setSink (some k)) = .stop t)
    (hlen : streamed t = streamed s + k) :
    t.pk = s.pk ∧ t.out = s.out ++ (BitVec.ofNat 8 s.pk.buf.length :: s.pk.buf).take k := by
  have h0 : s.pk.bitIdx = 0#3 := not_not.1 (Flow.stop_of_check h).1
  have hkept := flush_kept (s := s.setSink (some k)) h0 fun _ => True
  rw [h] at hkept
  obtain ⟨hstep, hpk, j, hj, hout⟩ := hkept
  simp only [State.setSink_pk, State.setSink_out] at hpk hj hout
  have hpix : t.pix = s.pix := by rw [hstep]; rfl
  have hrsp : t.rsp = s.rsp := by rw [hstep]; rfl
  have hjk : j = k := by
    unfold streamed at hlen
    rw [hpix, hrsp, hout, List.length_append, List.length_take, List.length_cons] at hlen
    omega
  exact ⟨hpk, hjk ▸ hout⟩

/-- A stopped `DT_PIXEL` has its pixel computed, and is stopped in its chained symbol or at PIX. -/
theorem dtPixel_keptAtStop {r g b : Byte} {k : Nat} {s t : State} (hinv : s.Inv) (hf : s.fault = false)
    (h : bodyOf (.dtPixel r g b) (s.setSink (some k)) = .stop t) : KeptAtStop (.dtPixel r g b) k s t := by
  obtain ⟨hpk, hlz, -⟩ := hinv.unitsRest hf
  obtain ⟨ha, h⟩ := Flow.stop_of_guard h
  obtain ⟨hchain, h⟩ := Flow.stop_of_check h
  have hopen : s.dt.chain = true → s.lz.active = true := by simpa using hchain
  obtain ⟨acc, p, hacc, hp, hcommit⟩ := ditherPixel_eq_stop (s := s.setSink (some k)) (hinv.frameOk ha) h
  rcases commitPixel_eq_stop hcommit with ⟨hc, hsym⟩ | ⟨u, hsym, rfl⟩
  · have hall := lzSym_all p.idx (s.setSink (some k))
    rw [hsym] at hall
    obtain ⟨hstep, -⟩ := hall
    obtain ⟨hdt, -, -, href⟩ := hstep.dt_eq
    have hsymbol : StoppedInSymbol p.idx s t := lzSym_stopped (s := s.setSink (some k)) hpk hlz.1 hsym
    exact ⟨by rw [hstep]; rfl, acc, p, hacc, hp, .inl ⟨hc, hsymbol, hdt, href⟩⟩
  · have hall := chainSym_all p.idx (s.setSink (some k))
    rw [hsym] at hall
    obtain ⟨⟨hstep, -⟩, hun⟩ := hall
    obtain ⟨hdt, -, -, href⟩ := hstep.dt_eq
    have hstored := storePixel_frame p u
    refine ⟨by rw [hstored, hstep]; rfl, acc, p, hacc, hp, .inr ⟨?_, fun a => ?_, fun hc => ?_, fun hc => ?_⟩⟩
    · rw [storePixel_dt, hdt]
      rfl
    · rw [storePixel_ref, hdt, href]
      rfl
    · rw [hstored, hun hc]
      exact ⟨rfl, rfl, rfl⟩
    · obtain ⟨v, hv, hvstep, -⟩ := lzSym_goes p.idx hinv.noSink hpk hlz
      have hc' : (s.setSink (some k)).dt.chain = true := hc
      rw [if_pos hc'] at hsym
      obtain ⟨j, rfl⟩ := (lzSym_sunk p.idx hf).go_eq (by rwa [setSink_of_sink hinv.noSink]) hsym
      refine ⟨v, exec_of_go hf ((bodyOf_lzSym (hopen hc) p.idx).trans hv), by rw [hvstep]; exact hf, ?_⟩
      rw [hstored]
      exact ⟨rfl, rfl, rfl⟩

/-- Every command stopped from a state that meets the invariant. -/
theorem keptAtStop_of_stop {i : Instr} {k : Nat} {s t : State} (hinv : s.Inv) (hf : s.fault = false)
    (h : bodyOf i (s.setSink (some k)) = .stop t) (hlen : streamed t = streamed s + k) : KeptAtStop i k s t := by
  obtain ⟨hpk, hlz, -⟩ := hinv.unitsRest hf
  have hunstopped : .sinkError ∈ causesOf i := sinkError_mem_causesOf_of_stop h
  cases i with
  | pkWrite n v =>
    obtain ⟨-, h⟩ := Flow.stop_of_check h
    obtain ⟨-, h⟩ := Flow.stop_of_check h
    exact ((writeCode_kept v n.toNat (s := s.setSink (some k)) hpk).of_stop h).2
  | pkPad =>
    obtain ⟨-, h⟩ := Flow.stop_of_check h
    obtain ⟨-, hemit⟩ := (pad_kept (s := s.setSink (some k)) hpk).of_stop h
    split at hemit
    · exact hemit.mono (List.replicate (8 - s.pk.bitIdx.toNat) false)
    · exact hemit
  | pkFlush => exact pkFlush_keptAtStop (Flow.stop_of_check h).2 hlen
  | lzStart =>
    obtain ⟨-, h⟩ := Flow.stop_of_check h
    obtain ⟨hstep, hemit⟩ := (writeCode_kept clearCode 9
      (s := (s.setSink (some k)).setLz { lzInit s.lz with active := true }) hpk).of_stop h
    have hclear : lowBits clearCode 9 = [false, false, false, false, false, false, false, false, true] := by decide
    exact ⟨hstep.lz_eq, hclear ▸ hemit⟩
  | lzSym sym => exact lzSym_stopped (s := s.setSink (some k)) hpk hlz.1 (Flow.stop_of_guard h).2
  | lzEnd =>
    obtain ⟨-, h⟩ := Flow.stop_of_guard h
    cases hcur : s.lz.cur with
    | none =>
      simp only [State.setSink_lz, hcur] at h
      cases h
    | some p =>
      simp only [State.setSink_lz, hcur] at h
      obtain ⟨hlz, zeros, hzeros, hends⟩ := lzFinish_stopped (s := s.setSink (some k)) hpk h
      exact ⟨hlz, p, zeros, hcur, hzeros, hends⟩
  | dtPixel r g b => exact dtPixel_keptAtStop hinv hf h
  | regRead reg =>
    simp only [bodyOf] at h
    split at h
    · cases h
    · rw [appendPoint_eq_stop h]
      rfl
  | dtBegin chain wref uref | palWrite r g b | regWrite reg val | refWrite r g b | nop | reset payload =>
    simp [causesOf] at hunstopped

/-- Taking the sink error writes the fault registers, which are no effect of the command. -/
theorem keptAtStop_takeSinkError {i : Instr} {k : Nat} {s t : State} (h : KeptAtStop i k s t) (w : Word) :
    KeptAtStop i k s (takeSinkError w t) := by
  cases i <;> exact h

/-- Settles O57: the event meets the run the command makes without it (`Sunk`), and where it stops the run the units
stand as at that point. -/
theorem sinkErrorStopsAtItsAppendPoint : Obligations.SinkErrorStopsAtItsAppendPoint := by
  intro i k s u hf hi he hu
  have hrun := bodyOf_eq_go_of_completes (s := s.setSink none) hf he hu
  obtain ⟨-, -, -, -, -, hk⟩ := bodyOf_sunk i hf hi u hrun
  obtain ⟨hgoes, hstops⟩ := hk k
  refine ⟨fun hle => exec_of_go (s := s.setSink (some k)) hf (hgoes hle), fun hlt => ?_⟩
  obtain ⟨t, hstop, hlen, hout, hpix, hrsp⟩ := hstops hlt
  refine ⟨_, exec_of_stop (s := s.setSink (some k)) hf hstop, rfl, rfl, rfl, rfl, hlen, hout, hpix, hrsp,
    fun hinv => keptAtStop_takeSinkError (keptAtStop_of_stop hinv hf hstop hlen) _⟩

end Sys2Proof.Machine
end

section
namespace Sys2Proof.Machine
open Sys2Proof.Claims

/-! ### The registers after reset (R241) -/

/-- The position after reset is column 0 of row 0 (R37). -/
theorem posWord_resetWith (p : Params) : posWord (State.resetWith p) = 0#32 :=
  (by decide : posWord State.reset = 0#32)

/-- The encoder stands at `ROOT` after reset, at width 9 and next code 258 (R38). -/
theorem lzStateWord_resetWith (p : Params) : lzStateWord (State.resetWith p) = 0x10009102#32 :=
  (by decide : lzStateWord State.reset = 0x10009102#32)

/-- The packer is empty after reset (R39). -/
theorem pkStateWord_resetWith (p : Params) : pkStateWord (State.resetWith p) = 0#32 :=
  (by decide : pkStateWord State.reset = 0#32)

/-- Settles O20: the writable registers read 0, the `CFG` registers the parameters, and the others views of units at rest. -/
theorem resetRegistersRead : Obligations.ResetRegistersRead := by
  refine ⟨fun p legal => ?_, Params.sample, by decide, rfl⟩
  obtain ⟨hid, hfaultCmd, -, -, -, -, hmaxWidth, hrefDepth, haccBits, -⟩ := plainRegisterValues (State.resetWith p) legal
  exact ⟨resetWith_atResetTable p, hid, congrArg some (statusWord_resetWith p), hfaultCmd,
    rfl, rfl, rfl, rfl,
    congrArg some (posWord_resetWith p), congrArg some (lzStateWord_resetWith p),
    congrArg some (pkStateWord_resetWith p), hmaxWidth, hrefDepth, haccBits⟩

/-! ### The reset input (R240, R243) -/

/-- Settles O21: the reset input is a step of its own, which resets the block and then empties the port. -/
theorem resetInputDiscardsThePort : Obligations.ResetInputDiscardsThePort := fun s rest hhost =>
  ⟨resetByInput (s.setHost rest), step_of_hostAct hhost nofun, resetWith_atResetTable s.cfg, rfl, rfl, rfl, rfl⟩

end Sys2Proof.Machine
end
